-- ==== Sys2Proof/Word.lean ====
section
/-! DEFINITION. The word type of SS-CORE and the index of an operand register. -/

namespace Sys2Proof

/-- A 32-bit word: a command word, a control register, one bus access, one random word (R6, R10, R90). -/
abbrev Word := BitVec 32

/-- The index `i` of the operand register `Xi` (R21, R94): a 3-bit field, every value of which names a register. -/
abbrev RegIdx := Fin 8

end Sys2Proof
end

