-- ==== Sys2Proof/Syntax.lean ====
section
/-! DEFINITION. The commands of SS-CORE: one constructor per row of the opcode map (R96), the two pseudo-instructions
(R104) and the assembler's spelling (R102). -/

namespace Sys2Proof

/-- A command (R96). A register operand is an index; `k` and `nbits` are the immediates of format G (R93, R95). -/
inductive Instr where
  /-- GCD (R121): `X[rd] <- gcd(X[rs1], X[rs2])`. -/
  | gcd (rd rs1 rs2 : RegIdx)
  /-- LCM (R124): `X[rd] <- lcm(X[rs1], X[rs2])`. -/
  | lcm (rd rs1 rs2 : RegIdx)
  /-- MODINV (R127): `X[rd] <-` the inverse of `X[rs1]` modulo `X[rs2]`. -/
  | modinv (rd rs1 rs2 : RegIdx)
  /-- MODEXP (R131): `X[rd] <- X[rs1]^X[rs2] mod X[rs3]`. -/
  | modexp (rd rs1 rs2 rs3 : RegIdx)
  /-- MRTEST (R157): `X[rd] <- is_prime(X[rs1], k)`. -/
  | mrtest (rd rs1 : RegIdx) (k : BitVec 7)
  /-- PRIMEGEN (R161): `X[rd] <- make_prime(nbits, k)`. -/
  | primegen (rd : RegIdx) (nbits : BitVec 13) (k : BitVec 7)
  /-- KEYDERIVE (R181): `(X[rd], X[rd+1], X[rd+2]) <- (N, d, n)` from `p = X[rs1]`, `q = X[rs2]`. -/
  | keyderive (rd rs1 rs2 : RegIdx)
  /-- KEYGEN (R186): `(X[rd], X[rd+1], X[rd+2]) <- (N, d, n) = key_gen(nbits, k)`. -/
  | keygen (rd : RegIdx) (nbits : BitVec 13) (k : BitVec 7)
  deriving DecidableEq, Repr

/-- The pseudo-instruction `encrypt xc, xm, xN` (R104): one MODEXP. -/
def Instr.encrypt (xc xm xN : RegIdx) : Instr := .modexp xc xm xN xN

/-- The pseudo-instruction `decrypt xm, xc, xd, xn` (R104): one MODEXP. -/
def Instr.decrypt (xm xc xd xn : RegIdx) : Instr := .modexp xm xc xd xn

/-- The assembler's name of an operand register (R102). -/
def RegIdx.toAsm (i : RegIdx) : String := "x" ++ toString i.val

/-- The assembler's spelling of a command (R102): destination first, immediates as `k=` and `nbits=`. -/
def Instr.toAsm : Instr → String
  | .gcd rd a b => "gcd " ++ rd.toAsm ++ ", " ++ a.toAsm ++ ", " ++ b.toAsm
  | .lcm rd a b => "lcm " ++ rd.toAsm ++ ", " ++ a.toAsm ++ ", " ++ b.toAsm
  | .modinv rd a n => "modinv " ++ rd.toAsm ++ ", " ++ a.toAsm ++ ", " ++ n.toAsm
  | .modexp rd a e n => "modexp " ++ rd.toAsm ++ ", " ++ a.toAsm ++ ", " ++ e.toAsm ++ ", " ++ n.toAsm
  | .mrtest rd n k => "mrtest " ++ rd.toAsm ++ ", " ++ n.toAsm ++ ", k=" ++ toString k.toNat
  | .primegen rd b k => "primegen " ++ rd.toAsm ++ ", nbits=" ++ toString b.toNat ++ ", k=" ++ toString k.toNat
  | .keyderive rd p q => "keyderive " ++ rd.toAsm ++ ", " ++ p.toAsm ++ ", " ++ q.toAsm
  | .keygen rd b k => "keygen " ++ rd.toAsm ++ ", nbits=" ++ toString b.toNat ++ ", k=" ++ toString k.toNat

end Sys2Proof
end

