-- ==== Sys2Proof/WellFormed.lean ====
section
/-! DEFINITION. Which commands have a legal word: every field value is legal but for the destination of the two
commands that write three registers (R94, R97). -/

namespace Sys2Proof

/-- A command is well formed if its word is legal (R99): KEYDERIVE and KEYGEN need `RD <= 5` (R97). -/
def Instr.wellFormed : Instr → Bool
  | .gcd _ _ _ => true
  | .lcm _ _ _ => true
  | .modinv _ _ _ => true
  | .modexp _ _ _ _ => true
  | .mrtest _ _ _ => true
  | .primegen _ _ _ => true
  | .keyderive rd _ _ => decide (rd.val ≤ 5)
  | .keygen rd _ _ => decide (rd.val ≤ 5)

end Sys2Proof
end

