-- ==== Sys2Proof/Decode.lean ====
section
/-! DEFINITION. The decoder of R101 and the encoder of R92, R93 and R96. -/

namespace Sys2Proof

/-- Why a word is illegal (R98, R99): the names under which the decoder rejects it. Each ends in EILL (R204). -/
inductive Illegal where
  /-- OP is 0x00 or 0x09-0x3F (R98). -/
  | reservedOp (op : BitVec 6)
  /-- A defined OP with a non-zero "must be 0" field (R99). -/
  | mustBeZero (op : BitVec 6)
  /-- KEYDERIVE or KEYGEN with `RD > 5` (R97, R99). -/
  | rdTooLarge (rd : RegIdx)
  deriving DecidableEq, Repr

/-- OP, bits 5:0 (R91). -/
def fieldOp (w : Word) : BitVec 6 := w.extractLsb' 0 6
/-- RD, bits 8:6 (R92, R93). -/
def fieldRd (w : Word) : RegIdx := (w.extractLsb' 6 3).toFin
/-- RS1, bits 11:9 (R92, R93). -/
def fieldRs1 (w : Word) : RegIdx := (w.extractLsb' 9 3).toFin
/-- RS2, bits 14:12 (R92). -/
def fieldRs2 (w : Word) : RegIdx := (w.extractLsb' 12 3).toFin
/-- RS3, bits 17:15 (R92). -/
def fieldRs3 (w : Word) : RegIdx := (w.extractLsb' 15 3).toFin
/-- NBITS, bits 24:12 (R93). -/
def fieldNbits (w : Word) : BitVec 13 := w.extractLsb' 12 13
/-- K, bits 31:25 (R93). -/
def fieldK (w : Word) : BitVec 7 := w.extractLsb' 25 7

/-- One row of the opcode map (R96): a word spells the command if and only if `w &&& mask = pattern`. -/
structure OpcodeRow where
  /-- The row's `mask` column. -/
  mask : Word
  /-- The row's `match` column. -/
  pattern : Word
  deriving DecidableEq, Repr

/-- R96: "a word `w` spells the command if and only if `(w & mask) == match`". -/
def OpcodeRow.spells (r : OpcodeRow) (w : Word) : Bool := w &&& r.mask == r.pattern

/-- R96, the row of GCD. -/
def rowGcd : OpcodeRow := { mask := 0xFFFF803F, pattern := 0x00000001 }
/-- R96, the row of LCM. -/
def rowLcm : OpcodeRow := { mask := 0xFFFF803F, pattern := 0x00000002 }
/-- R96, the row of MODINV. -/
def rowModinv : OpcodeRow := { mask := 0xFFFF803F, pattern := 0x00000003 }
/-- R96, the row of MODEXP. -/
def rowModexp : OpcodeRow := { mask := 0xFFFC003F, pattern := 0x00000004 }
/-- R96, the row of MRTEST. -/
def rowMrtest : OpcodeRow := { mask := 0x01FFF03F, pattern := 0x00000005 }
/-- R96, the row of PRIMEGEN. -/
def rowPrimegen : OpcodeRow := { mask := 0x00000E3F, pattern := 0x00000006 }
/-- R96, the row of KEYDERIVE. -/
def rowKeyderive : OpcodeRow := { mask := 0xFFFF803F, pattern := 0x00000007 }
/-- R96, the row of KEYGEN. -/
def rowKeygen : OpcodeRow := { mask := 0x00000E3F, pattern := 0x00000008 }

/-- The opcode map (R96), in the table's order. -/
def opcodeMap : List OpcodeRow :=
  [rowGcd, rowLcm, rowModinv, rowModexp, rowMrtest, rowPrimegen, rowKeyderive, rowKeygen]

/-- The name under which a word that matches no row is rejected (R98, R99). -/
def illegalReason (w : Word) : Illegal :=
  if 1 ≤ (fieldOp w).toNat ∧ (fieldOp w).toNat ≤ 8 then .mustBeZero (fieldOp w) else .reservedOp (fieldOp w)

/-- `decode(w)` of R101: total on every 32-bit word, a command or `Illegal`. -/
def decode (w : Word) : Except Illegal Instr :=
  if rowGcd.spells w then .ok (.gcd (fieldRd w) (fieldRs1 w) (fieldRs2 w))
  else if rowLcm.spells w then .ok (.lcm (fieldRd w) (fieldRs1 w) (fieldRs2 w))
  else if rowModinv.spells w then .ok (.modinv (fieldRd w) (fieldRs1 w) (fieldRs2 w))
  else if rowModexp.spells w then .ok (.modexp (fieldRd w) (fieldRs1 w) (fieldRs2 w) (fieldRs3 w))
  else if rowMrtest.spells w then .ok (.mrtest (fieldRd w) (fieldRs1 w) (fieldK w))
  else if rowPrimegen.spells w then .ok (.primegen (fieldRd w) (fieldNbits w) (fieldK w))
  else if rowKeyderive.spells w then
    if (fieldRd w).val ≤ 5 then .ok (.keyderive (fieldRd w) (fieldRs1 w) (fieldRs2 w))
    else .error (.rdTooLarge (fieldRd w))
  else if rowKeygen.spells w then
    if (fieldRd w).val ≤ 5 then .ok (.keygen (fieldRd w) (fieldNbits w) (fieldK w))
    else .error (.rdTooLarge (fieldRd w))
  else .error (illegalReason w)

/-- A register index as a 3-bit field (R94). -/
def regField (i : RegIdx) : BitVec 3 := BitVec.ofFin i

/-- Format R (R92): RES = 0, RS3, RS2, RS1, RD, OP from bit 31 down. -/
def formatR (op : BitVec 6) (rd rs1 rs2 rs3 : RegIdx) : Word :=
  0#14 ++ regField rs3 ++ regField rs2 ++ regField rs1 ++ regField rd ++ op

/-- Format G (R93): K, NBITS, RS1, RD, OP from bit 31 down. -/
def formatG (op : BitVec 6) (rd rs1 : RegIdx) (nbits : BitVec 13) (k : BitVec 7) : Word :=
  k ++ nbits ++ regField rs1 ++ regField rd ++ op

/-- The word of a command (R92, R93, R96). Of a command that is not well formed it is the illegal word that spells its
fields. -/
def encode : Instr → Word
  | .gcd rd rs1 rs2 => formatR 0x01 rd rs1 rs2 0
  | .lcm rd rs1 rs2 => formatR 0x02 rd rs1 rs2 0
  | .modinv rd rs1 rs2 => formatR 0x03 rd rs1 rs2 0
  | .modexp rd rs1 rs2 rs3 => formatR 0x04 rd rs1 rs2 rs3
  | .mrtest rd rs1 k => formatG 0x05 rd rs1 0 k
  | .primegen rd nbits k => formatG 0x06 rd 0 nbits k
  | .keyderive rd rs1 rs2 => formatR 0x07 rd rs1 rs2 0
  | .keygen rd nbits k => formatG 0x08 rd 0 nbits k

/-- The word whose low `nbits` bits are those of `w`, the bits above them zero. -/
def tableWord (nbits w : Nat) : Word := BitVec.ofNat 32 (w % 2 ^ nbits)

/-- What the decoder reads from a row's word: a command is one 32-bit word (R90), so the table's numbering of bits is
the word's own (R9). -/
def decodeTableWord (nbits w : Nat) : Option Instr := (decode (tableWord nbits w)).toOption

end Sys2Proof
end

