-- ==== Sys2Proof/Config.lean ====
section
/-! DEFINITION. The implementation parameters of R5, and the constants a model of one block is built with. -/

namespace Sys2Proof

/-- The four parameters of R5. None is fixed by the spec: State carries one choice of them, which no step changes,
so that a statement about every state holds for every choice (DESIGN CHOICE, log entry 1). -/
structure Params where
  /-- `W`: the operand width in bits. -/
  width : Nat
  /-- `F`: the depth of the host-fed FIFO in words. -/
  fifoDepth : Nat
  /-- `EXTRNG`: the external entropy port is connected. -/
  extRng : Bool
  /-- `BASE`: the physical byte address of the register window. -/
  base : Nat
  deriving DecidableEq, Repr

/-- The legal values of the parameters (R5): `W` a multiple of 32 with `64 <= W <= 4096`, `1 <= F <= 255`, `BASE` a
multiple of 0x2000. -/
def Params.legal (p : Params) : Bool :=
  p.width % 32 == 0 && decide (64 ≤ p.width) && decide (p.width ≤ 4096) &&
    decide (1 ≤ p.fifoDepth) && decide (p.fifoDepth ≤ 255) && p.base % 0x2000 == 0

namespace Config

/-- The parameters that `State.reset` is built with: those of the spec's test vectors (95_test_vectors.md section 0:
`W = 64`, `F = 8`, `EXTRNG = 1`), at `BASE = 0`. DESIGN CHOICE, unsafe, log entry 1: R5 fixes none of them. -/
def params : Params := { width := 64, fifoDepth := 8, extRng := true, base := 0 }

/-- The turn of the arrival that `State.withFetchWord` places: more internal steps than any command without random
words needs at any legal `W`. DESIGN CHOICE, log entry 11. -/
def fetchTurn : Nat := 65536

end Config

end Sys2Proof
end

