-- ==== Sys2Proof/Machine/State.lean ====
section
/-! DEFINITION. The state of one SS-CORE block (R20), what can arrive at its ports, and the state after reset. -/

namespace Sys2Proof.Machine

/-- The error codes of R201 (ECODE 0x01 to 0x08). The reserved codes 0x09-0xFF are never produced. -/
inductive ErrCode where
  /-- 0x01: the CMD word is illegal (R204). -/
  | eill
  /-- 0x02: an operand is outside the operation's domain (R124, R127, R131, R181). -/
  | edom
  /-- 0x03: the exact result does not fit in `W` bits (R7, R124, R181). -/
  | erange
  /-- 0x04: `nbits` is outside the command's range (R161, R186). -/
  | earg
  /-- 0x05: KEYDERIVE's `p`, `q` satisfy the step-2 relation (R183). -/
  | ekeyrel
  /-- 0x06: MAXTRY candidates drawn without completing (R163). -/
  | etimeout
  /-- 0x07: the host wrote ABORT while the command ran (R207). -/
  | eabort
  /-- 0x08: a randomised command with RNGSRC = 0 and EXTRNG = 0 (R204). -/
  | enorng
  deriving DecidableEq, Repr

/-- The stored bits of STATUS (R35). BUSY and RNGWAIT are live views of the sequencer (R36, R41) and not stored. -/
structure Status where
  /-- DONE, bit 1 (R37). -/
  done : Bool
  /-- ERR, bit 2 (R38). -/
  err : Bool
  /-- RESULT, bit 3 (R39). -/
  result : Bool
  /-- NOINV, bit 4 (R40). -/
  noinv : Bool
  /-- ACCERR, bit 6, sticky (R42). -/
  accerr : Bool
  /-- CMDOVR, bit 7, sticky (R43). -/
  cmdovr : Bool
  /-- FOVF, bit 8, sticky (R44). -/
  fovf : Bool
  /-- ECODE, bits 23:16 (R38, R201); `none` is 0x00. -/
  ecode : Option ErrCode
  deriving DecidableEq, Repr

/-- STATUS = 0 (R53): no flag, ECODE = 0. -/
def Status.zero : Status :=
  { done := false, err := false, result := false, noinv := false, accerr := false, cmdovr := false, fovf := false,
    ecode := none }

/-- The point of the command's pseudocode at which the running sequencer stands (R26). -/
inductive Phase where
  /-- Accepted, the checks of R204 not yet made. -/
  | start
  /-- The head of the loop of `Gcd` (R121). -/
  | euclid
  /-- The head of the loop of `ModInv` (R127). -/
  | bezout
  /-- The head of the loop of `ModExp` (R131). -/
  | power
  /-- The head of Miller-Rabin's squaring loop (R156). -/
  | square
  /-- The next word of a witness draw (R153). -/
  | witness
  /-- The next word of a candidate draw (R162). -/
  | candidate
  deriving DecidableEq, Repr

/-- The sequencer (R20, R26). The word of the running command is LASTCMD: acceptance writes both at once (R25), and
nothing else writes either while the command runs (log entry 8). -/
inductive Seq where
  /-- No command runs; BUSY = 0. -/
  | idle
  /-- A command runs; BUSY = 1 (R36). -/
  | run (at_ : Phase)
  deriving DecidableEq, Repr

/-- The working state of the running command (R27). No register shows any part of it. -/
structure Work where
  /-- The snapshot of `X[RS1]` (R24). -/
  a : Nat
  /-- The snapshot of `X[RS2]` (R24). -/
  b : Nat
  /-- The snapshot of `X[RS3]` (R24). -/
  c : Nat
  /-- Euclid's first remainder (R121, R127). -/
  r : Nat
  /-- Euclid's second remainder (R121, R127). -/
  newr : Nat
  /-- The first Bezout coefficient, signed (R127). -/
  t : Int
  /-- The second Bezout coefficient, signed (R127). -/
  newt : Int
  /-- The modulus of the running `ModInv` or `ModExp` (R127, R131). -/
  modulus : Nat
  /-- The square-and-multiply accumulator (R131). -/
  res : Nat
  /-- The square-and-multiply base (R131). -/
  base : Nat
  /-- The exponent bits still to be used (R131). -/
  exp : Nat
  /-- The number under test (R156). -/
  n : Nat
  /-- Miller-Rabin's `s` (R155). -/
  s : Nat
  /-- Miller-Rabin's odd `r` (R155). -/
  d : Nat
  /-- Miller-Rabin's `y` (R156). -/
  y : Nat
  /-- The rounds passed (R156). -/
  round : Nat
  /-- Miller-Rabin's squaring counter `j` (R156). -/
  sq : Nat
  /-- The value assembled from the words of the running `RandBits` (R152). -/
  acc : Nat
  /-- The words the running `RandBits` has taken (R152). -/
  got : Nat
  /-- The current candidate (R162). -/
  cand : Nat
  /-- The prime `p` of KEYDERIVE and KEYGEN (R182, R186). -/
  p : Nat
  /-- The prime `q` of KEYDERIVE and KEYGEN (R182, R186). -/
  q : Nat
  /-- `λ` (R182). -/
  lam : Nat
  /-- KEYGEN has sampled its `p` (R186). -/
  haveP : Bool
  deriving DecidableEq, Repr

/-- `work` cleared to all zeros (R28, R53). -/
def Work.zero : Work :=
  { a := 0, b := 0, c := 0, r := 0, newr := 0, t := 0, newt := 0, modulus := 0, res := 0, base := 0, exp := 0,
    n := 0, s := 0, d := 0, y := 0, round := 0, sq := 0, acc := 0, got := 0, cand := 0, p := 0, q := 0, lam := 0,
    haveP := false }

/-- The width of a host access (R64): only 32-bit accesses are served. -/
inductive AccessSize where
  | b8
  | b16
  | b32
  | b64
  | wider
  deriving DecidableEq, Repr

/-- One host bus access (R64, R65), at a physical byte address. Of a write that is not 32 bits wide the value is never
looked at. -/
inductive Access where
  | read (addr : Nat) (size : AccessSize)
  | write (addr : Nat) (size : AccessSize) (value : Word)
  deriving DecidableEq, Repr

/-- What can arrive at the block from outside between two internal steps of its sequencer. -/
inductive Input where
  /-- A host bus access (R65). -/
  | access (a : Access)
  /-- The platform has its next word for the entropy port (R214). -/
  | entropy (w : Word)
  /-- The reset input is asserted (R230). -/
  | reset
  /-- Nothing arrives. -/
  | quiet
  deriving DecidableEq, Repr

/-- An input, and the number of internal steps that the sequencer takes before the next one (R70: "any number of steps,
including zero"). -/
structure Arrival where
  input : Input
  turn : Nat
  deriving DecidableEq, Repr

/-- What the model holds of the block's surroundings. None of it is the block's state (R20); log entries 2, 4, 9. Both lists
are finite (DESIGN CHOICE, log entry 15): how many words and arrivals ever come is open (R165), and from one state finitely
many candidates are drawn, after which the command waits. -/
structure Env where
  /-- What will still arrive, in the order of arrival (R70, R78). -/
  inbox : List Arrival
  /-- The internal steps the sequencer takes in the step under way (R70). -/
  turn : Nat
  /-- The words at the entropy port that the block has not taken, oldest first (R214): the oldest is the one the port
  presents as valid, the others follow it. Each is any word (R150). -/
  port : List Word
  /-- The word that the read served in the last step returned (R65). -/
  resp : Option Word
  deriving DecidableEq, Repr

/-- The state of one block (R20), with the parameters it is built with (R5) and its surroundings. -/
structure State where
  /-- The implementation parameters, the same at every step (R5, log entry 1). -/
  params : Params
  /-- The operand registers X0..X7 (R21). -/
  x : Vector Nat 8
  /-- CTRL (R33). -/
  ctrl : Word
  /-- STATUS (R35). -/
  status : Status
  /-- LASTCMD (R47). -/
  lastcmd : Word
  /-- ATTEMPTS (R48). -/
  attempts : Word
  /-- The host-fed FIFO, oldest word first (R49). -/
  fifo : List Word
  /-- The sequencer (R26). -/
  seq : Seq
  /-- The working state (R27). -/
  work : Work
  /-- The surroundings, the model's own. -/
  env : Env
  deriving DecidableEq, Repr

/-- The reasons the machine stops with a fault. There is none: "No error is fatal to the block: after any completion the
block is `Idle` and accepts the next command" (R200), and an access the block does not serve sets ACCERR (R64, R68). -/
inductive Fault where
  deriving DecidableEq, Repr

/-- The reasons the model refuses an instruction. -/
inductive Refusal where
  /-- An instruction that has no meaning yet: raised by no arm of `exec` (safe). -/
  | notModelled (mnemonic : String)
  deriving DecidableEq, Repr

/-- The reset values of every piece of state (R53, R230), for a block with the parameters `p` in the surroundings `e`. -/
def State.resetOf (p : Params) (e : Env) : State :=
  { params := p
    x := Vector.replicate 8 0
    ctrl := 0
    status := Status.zero
    lastcmd := 0
    attempts := 0
    fifo := []
    seq := .idle
    work := Work.zero
    env := e }

/-- Surroundings in which nothing arrives (log entry 2). -/
def Env.quiet : Env := { inbox := [], turn := 0, port := [], resp := none }

/-- The machine right after reset (R53, R230, R232), with the parameters `Config.params` (log entry 1). -/
def State.reset : State := State.resetOf Config.params Env.quiet

end Sys2Proof.Machine
end

