-- ==== Sys2Proof/Machine/Operands.lean ====
section
/-! DEFINITION. Operands: registers and their words (R63), the fields of CTRL (R33), exact-number helpers (R8). -/

namespace Sys2Proof.Machine

/-- `bitlen(x)`: the number of binary digits of `x`, 0 for 0 (R8). -/
def bitlen (x : Nat) : Nat := if x = 0 then 0 else Nat.log2 x + 1

/-- `ceil(b / 32)`: the words that `RandBits(b)` takes (R152). -/
def wordsFor (b : Nat) : Nat := (b + 31) / 32

/-- The number of factors 2 of `m`, and the odd part that they leave, at most `fuel` factors taken. -/
def splitTwos : Nat → Nat → Nat × Nat
  | 0, m => (0, m)
  | fuel + 1, m => if m % 2 = 0 then ((splitTwos fuel (m / 2)).1 + 1, (splitTwos fuel (m / 2)).2) else (0, m)

/-- R155: the naturals `s` and `r` with `n - 1 = 2^s * r` and `r` odd, for `n >= 5`. -/
def oddSplit (n : Nat) : Nat × Nat := splitTwos (bitlen (n - 1)) (n - 1)

/-- `Rel(p, q)`, the step-2 relation (R183). -/
def keyRel (p q : Nat) : Bool := p == q || (p - 1) % q == 0 || (q - 1) % p == 0

/-- CTRL.RNGSRC, bit 0 (R33): the host-fed FIFO is the random source. -/
def State.rngSrc (s : State) : Bool := s.ctrl.getLsbD 0

/-- CTRL.IE, bit 1 (R33). -/
def State.ie (s : State) : Bool := s.ctrl.getLsbD 1

/-- CTRL.MAXTRY, bits 31:16 (R33, R163). -/
def State.maxTry (s : State) : Nat := (s.ctrl.extractLsb' 16 16).toNat

/-- The bits of CTRL that hold a field (R33): the reserved bits 15:2 read 0 and writes to them are ignored (R30). -/
def ctrlMask : Word := 0xFFFF0003

/-- Word `j` of the value `v`: bits `[32j+31 : 32j]` (R63). -/
def wordOf (v j : Nat) : Word := BitVec.ofNat 32 (v / 2 ^ (32 * j))

/-- `v` with its word `j` replaced by `w`, every other bit unchanged (R67). -/
def withWord (v j : Nat) (w : Word) : Nat :=
  v % 2 ^ (32 * j) + w.toNat * 2 ^ (32 * j) + v / 2 ^ (32 * (j + 1)) * 2 ^ (32 * (j + 1))

/-- The words `0 .. W/32-1` of a value, least significant first (R63). -/
def wordsOf (p : Params) (v : Nat) : List Word := (List.range (p.width / 32)).map (wordOf v)

/-- The register file with the pairs of `writes` written in order (R24). -/
def writeAll (x : Vector Nat 8) (writes : List (RegIdx × Nat)) : Vector Nat 8 :=
  writes.foldl (fun x iv => x.set iv.1 iv.2) x

/-- The exact results of a command all fit in `W` bits (R7). -/
def fits (p : Params) (writes : List (RegIdx × Nat)) : Bool := writes.all fun iv => decide (iv.2 < 2 ^ p.width)

/-- The initial working state of an accepted command (R25): the snapshot of the registers that the fields RS1, RS2 and
RS3 of its word name (R24), everything else zero (log entry 8). -/
def snapshot (x : Vector Nat 8) (w : Word) : Work :=
  { Work.zero with a := x[fieldRs1 w], b := x[fieldRs2 w], c := x[fieldRs3 w] }

/-- The two destinations that follow RD (R97): `RD + j`. For `RD <= 5` and `j <= 2` the sum is a register index. -/
def destPlus (rd : RegIdx) (j : Nat) : RegIdx := Fin.ofNat 8 (rd.val + j)

/-- The three destination writes of KEYDERIVE and KEYGEN (R97): `N`, `d`, `n`. -/
def keyWrites (rd : RegIdx) (bigN d n : Nat) : List (RegIdx × Nat) :=
  [(rd, bigN), (destPlus rd 1, d), (destPlus rd 2, n)]

end Sys2Proof.Machine
end

