-- ==== Sys2Proof/Machine/Flags.lean ====
section
/-! DEFINITION. STATUS: its live bits, the word a read returns, W1C, the interrupt line (R35-R45, R210), and the
handshake of the entropy port (R214). -/

namespace Sys2Proof.Machine

/-- The number of an error code in STATUS.ECODE (R201). -/
def ErrCode.number : ErrCode → BitVec 8
  | .eill => 0x01
  | .edom => 0x02
  | .erange => 0x03
  | .earg => 0x04
  | .ekeyrel => 0x05
  | .etimeout => 0x06
  | .eabort => 0x07
  | .enorng => 0x08

/-- The value of the field ECODE (R201): 0 for no error. -/
def ecodeField : Option ErrCode → BitVec 8
  | none => 0x00
  | some e => e.number

/-- STATUS.BUSY: 1 exactly while the sequencer runs (R36). -/
def State.busy (s : State) : Bool :=
  match s.seq with
  | .idle => false
  | .run _ => true

/-- The points of the pseudocode at which the next thing the sequencer does is take a random word (R152, R153, R162). -/
def Phase.draws : Phase → Bool
  | .witness => true
  | .candidate => true
  | .start => false
  | .euclid => false
  | .bezout => false
  | .power => false
  | .square => false

/-- The words that the random source selected by CTRL.RNGSRC has ready, oldest first (R151). -/
def State.source (s : State) : List Word := if s.rngSrc then s.fifo else s.env.port

/-- "the sequencer needs a word" (R214): it stands at a point that draws. -/
def State.needsWord (s : State) : Bool :=
  match s.seq with
  | .idle => false
  | .run ph => ph.draws

/-- STATUS.RNGWAIT: 1 exactly while the sequencer waits for a word that the selected source has not supplied (R41,
log entry 7). -/
def State.rngWait (s : State) : Bool := s.needsWord && s.source.isEmpty

/-- The ready output of the entropy port (R214): asserted exactly while the port exists (EXTRNG = 1) and the sequencer
needs a word with CTRL.RNGSRC = 0. -/
def State.portReady (s : State) : Bool := s.params.extRng && s.needsWord && !s.rngSrc

/-- The valid input of the entropy port (R214): the port presents a word, the oldest of `env.port` (log entry 4). -/
def State.portValid (s : State) : Bool := s.params.extRng && !s.env.port.isEmpty

/-- The word a read of STATUS returns (R35); reserved bits read 0. -/
def State.statusWord (s : State) : Word :=
  0#8 ++ ecodeField s.status.ecode ++ 0#7 ++ BitVec.ofBool s.status.fovf ++ BitVec.ofBool s.status.cmdovr ++
    BitVec.ofBool s.status.accerr ++ BitVec.ofBool s.rngWait ++ BitVec.ofBool s.status.noinv ++
    BitVec.ofBool s.status.result ++ BitVec.ofBool s.status.err ++ BitVec.ofBool s.status.done ++
    BitVec.ofBool s.busy

/-- A write to STATUS (R45): each W1C bit whose position holds 1 is cleared, every other bit is ignored. -/
def Status.writeOneToClear (st : Status) (v : Word) : Status :=
  { st with
    done := st.done && !v.getLsbD 1
    err := st.err && !v.getLsbD 2
    accerr := st.accerr && !v.getLsbD 6
    cmdovr := st.cmdovr && !v.getLsbD 7
    fovf := st.fovf && !v.getLsbD 8 }

/-- What acceptance does to STATUS (R25): DONE, ERR, ECODE, RESULT and NOINV cleared, the sticky flags unchanged. -/
def Status.accepted (st : Status) : Status :=
  { st with done := false, err := false, result := false, noinv := false, ecode := none }

/-- The interrupt output (R210): `CTRL.IE and (STATUS.DONE or STATUS.ERR)`. -/
def State.irq (s : State) : Bool := s.ie && (s.status.done || s.status.err)

/-- The randomised commands end with ENORNG (R204): RNGSRC = 0 and the entropy port is not connected. -/
def State.noRandomSource (s : State) : Bool := !s.rngSrc && !s.params.extRng

end Sys2Proof.Machine
end

