-- ==== Sys2Proof/Machine/Ops.lean ====
section
/-! DEFINITION. The shared operations of the sequencer: acceptance (R25), the two completions (R202, R203), random draws
(R151, R152), the loops of `Gcd`, `ModInv` and `ModExp` (R121, R127, R131), `MillerRabin` (R156), `PrimeSample` (R162) and
`Derive` (R182). An operation that ends a part of the pseudocode takes as `ret` what the sequencer does next, in the same
internal step. One internal step takes one random word or passes one loop head (log entry 5). -/

namespace Sys2Proof.Machine

/-- The running sequencer moves to a point of the pseudocode with a new working state. -/
def State.goto (ph : Phase) (w : Work) (s : State) : State := { s with seq := .run ph, work := w }

/-- Acceptance of a command word (R25). -/
def accept (w : Word) (s : State) : State :=
  { s with
    lastcmd := w
    status := s.status.accepted
    attempts := 0
    seq := .run .start
    work := snapshot s.x w }

/-- A command word taken for execution: accepted if the sequencer is Idle; a command that runs goes on. -/
def issue (w : Word) (s : State) : State :=
  match s.seq with
  | .idle => accept w s
  | .run _ => s

/-- Successful completion (R202): every destination write takes effect, RESULT and NOINV take their final values, DONE
is set, `work` is cleared, the sequencer is Idle. -/
def complete (writes : List (RegIdx × Nat)) (result noinv : Bool) (s : State) : State :=
  { s with
    x := writeAll s.x writes
    status := { s.status with done := true, result := result, noinv := noinv }
    seq := .idle
    work := Work.zero }

/-- Error completion (R203), the block's one exception (R200): ERR and ECODE are set, no operand register is written,
`work` is cleared, the sequencer is Idle. Nothing is returned to: the host issues the next command (R212). -/
def raise (e : ErrCode) (s : State) : State :=
  { s with
    status := { s.status with err := true, ecode := some e }
    seq := .idle
    work := Work.zero }

/-- The end of a command's arithmetic (R7): "If the result is `< 2^W`, it writes the result. Otherwise it ends with error
ERANGE and writes nothing." -/
def finish (writes : List (RegIdx × Nat)) (result noinv : Bool) (s : State) : State :=
  if fits s.params writes then complete writes result noinv s else raise .erange s

/-! ### Random words -/

/-- `RandWord()` (R151): the oldest word of the selected source and the state without it; none while there is no word. With
RNGSRC = 0 it is the transfer of the port's handshake (R214): it happens only where the sequencer needs a word, so while
the port's ready is asserted, and takes the word that is presented as valid. -/
def takeWord (s : State) : Option (Word × State) :=
  match s.rngSrc, s.fifo, s.env.port with
  | true, w :: rest, _ => some (w, { s with fifo := rest })
  | false, _, w :: rest => some (w, { s with env := { s.env with port := rest } })
  | _, _, _ => none

/-- The beginning of `RandBits` (R152) at a point that draws. -/
def drawBegin (ph : Phase) (s : State) : State := s.goto ph { s.work with acc := 0, got := 0 }

/-- One word of `RandBits(b)` (R152): the first word taken is the least significant; after `ceil(b/32)` words `ret` gets
the value mod `2^b`. While the source has no word the sequencer waits (R151). -/
def drawStep (b : Nat) (ph : Phase) (ret : Nat → State → State) (s : State) : State :=
  match takeWord s with
  | none => s
  | some (w, s1) =>
    if s.work.got + 1 < wordsFor b then
      s1.goto ph { s.work with acc := s.work.acc + w.toNat * 2 ^ (32 * s.work.got), got := s.work.got + 1 }
    else ret ((s.work.acc + w.toNat * 2 ^ (32 * s.work.got)) % 2 ^ b) s1

/-! ### Gcd, ModInv, ModExp -/

/-- The call `Gcd(a, b)` (R121). -/
def euclidBegin (a b : Nat) (s : State) : State := s.goto .euclid { s.work with r := a, newr := b }

/-- The head of the loop of `Gcd` (R121): `(a, b) <- (b, a mod b)` while `b != 0`. -/
def euclidStep (ret : Nat → State → State) (s : State) : State :=
  if s.work.newr = 0 then ret s.work.r s
  else s.goto .euclid { s.work with r := s.work.newr, newr := s.work.r % s.work.newr }

/-- The call `ModInv(a, n)` (R127) with `n >= 1`. -/
def bezoutBegin (a n : Nat) (s : State) : State :=
  s.goto .bezout { s.work with t := 0, newt := 1, r := n, newr := a % n, modulus := n }

/-- The value that `ModInv` returns at the end of its loop (R127), and the no-inverse bit. -/
def bezoutResult (w : Work) : Nat × Bool :=
  if w.r > 1 then (0, true) else ((if w.t < 0 then w.t + w.modulus else w.t).toNat, false)

/-- The head of the loop of `ModInv` (R127). -/
def bezoutStep (ret : Nat → Bool → State → State) (s : State) : State :=
  if s.work.newr = 0 then ret (bezoutResult s.work).1 (bezoutResult s.work).2 s
  else
    s.goto .bezout
      { s.work with
        t := s.work.newt
        newt := s.work.t - (s.work.r / s.work.newr : Nat) * s.work.newt
        r := s.work.newr
        newr := s.work.r - s.work.r / s.work.newr * s.work.newr }

/-- The call `ModExp(a, d, n)` (R131) with `n >= 1`. -/
def powerBegin (a d n : Nat) (s : State) : State :=
  s.goto .power { s.work with res := 1 % n, base := a % n, exp := d, modulus := n }

/-- The head of the loop of `ModExp` (R131): right-to-left square-and-multiply. -/
def powerStep (ret : Nat → State → State) (s : State) : State :=
  if s.work.exp = 0 then ret s.work.res s
  else
    s.goto .power
      { s.work with
        res := if s.work.exp % 2 = 1 then s.work.res * s.work.base % s.work.modulus else s.work.res
        base := s.work.base * s.work.base % s.work.modulus
        exp := s.work.exp / 2 }

/-! ### MillerRabin -/

/-- The head of the round loop of `MillerRabin(n, k)` (R156): after `k` rounds the answer is 1, else the next witness is
drawn. -/
def roundHead (k : Nat) (ret : Bool → State → State) (s : State) : State :=
  if s.work.round = k then ret true s else drawBegin .witness s

/-- The call `MillerRabin(n, k)` (R156). The small cases take no word. -/
def mrBegin (n k : Nat) (ret : Bool → State → State) (s : State) : State :=
  if n ≤ 1 ∨ n = 4 then ret false s
  else if n = 2 ∨ n = 3 then ret true s
  else
    roundHead k ret
      { s with work := { s.work with n := n, s := (oddSplit n).1, d := (oddSplit n).2, round := 0 } }

/-- A value drawn for a witness (R153): `u <= t` gives the witness `u + 2` and starts the round's `ModExp` (R156); another
value is rejected and drawn again. -/
def witnessDrawn (u : Nat) (s : State) : State :=
  if u ≤ s.work.n - 4 then powerBegin (u + 2) s.work.d s.work.n s else drawBegin .witness s

/-- A round has passed (R156). -/
def roundPassed (k : Nat) (ret : Bool → State → State) (s : State) : State :=
  roundHead k ret { s with work := { s.work with round := s.work.round + 1 } }

/-- The round's `y = a^r mod n` (R156): 1 and `n - 1` pass the round, another value is squared. -/
def mrPowerDone (k : Nat) (ret : Bool → State → State) (y : Nat) (s : State) : State :=
  if y = 1 ∨ y = s.work.n - 1 then roundPassed k ret { s with work := { s.work with y := y } }
  else s.goto .square { s.work with y := y, sq := 1 }

/-- The head of the squaring loop (R156): while `j <= s - 1` and `y != n - 1`. -/
def squareStep (k : Nat) (ret : Bool → State → State) (s : State) : State :=
  if s.work.sq < s.work.s ∧ s.work.y ≠ s.work.n - 1 then
    if s.work.y * s.work.y % s.work.n = 1 then ret false s
    else s.goto .square { s.work with y := s.work.y * s.work.y % s.work.n, sq := s.work.sq + 1 }
  else if s.work.y ≠ s.work.n - 1 then ret false s
  else roundPassed k ret s

/-- One internal step inside `MillerRabin(n, k)` (R156) at the point `ph`. -/
def mrStep (k : Nat) (ret : Bool → State → State) (ph : Phase) (s : State) : State :=
  match ph with
  | .witness => drawStep (bitlen (s.work.n - 4)) .witness witnessDrawn s
  | .power => powerStep (mrPowerDone k ret) s
  | .square => squareStep k ret s
  | .start => s
  | .euclid => s
  | .bezout => s
  | .candidate => s

/-! ### PrimeSample -/

/-- `ATTEMPTS <- sat32(ATTEMPTS + 1)` (R48, R162). -/
def countAttempt (n : Word) : Word := if n = 0xFFFFFFFF#32 then n else n + 1

/-- The head of the loop of `PrimeSample` (R162): ETIMEOUT when MAXTRY candidates have been drawn (R163), else the next
candidate is drawn. -/
def sampleBegin (s : State) : State :=
  if s.maxTry ≠ 0 ∧ s.attempts.toNat = s.maxTry then raise .etimeout s else drawBegin .candidate s

/-- The Miller-Rabin answer on a candidate (R162): 1 ends the sampling, 0 samples again. -/
def sampleTested (ret : Nat → State → State) (passed : Bool) (s : State) : State :=
  if passed then ret s.work.cand s else sampleBegin s

/-- A candidate has been drawn (R162): it is counted, then tested. -/
def candidateDrawn (k : Nat) (ret : Nat → State → State) (c : Nat) (s : State) : State :=
  mrBegin c k (sampleTested ret) { s with attempts := countAttempt s.attempts, work := { s.work with cand := c } }

/-- One internal step inside `PrimeSample(b, k)` (R162) at the point `ph`. -/
def sampleStep (b k : Nat) (ret : Nat → State → State) (ph : Phase) (s : State) : State :=
  match ph with
  | .candidate => drawStep b .candidate (candidateDrawn k ret) s
  | .witness => mrStep k (sampleTested ret) .witness s
  | .power => mrStep k (sampleTested ret) .power s
  | .square => mrStep k (sampleTested ret) .square s
  | .start => s
  | .euclid => s
  | .bezout => s

/-! ### Derive -/

/-- The call `Derive(p, q)` (R182): it starts with `Gcd(p - 1, q - 1)`, the gcd of `Lcm` (R124). -/
def deriveBegin (p q : Nat) (s : State) : State :=
  euclidBegin (p - 1) (q - 1) { s with work := { s.work with p := p, q := q } }

/-- The gcd of `Derive` is known (R182): `lam <- Lcm(p - 1, q - 1)`, then `ModInv(N, lam)`. -/
def deriveLam (g : Nat) (s : State) : State :=
  bezoutBegin (s.work.p * s.work.p * s.work.q) ((s.work.p - 1) * (s.work.q - 1) / g)
    { s with work := { s.work with lam := (s.work.p - 1) * (s.work.q - 1) / g } }

/-- `d` of `Derive` is known (R182): the three results are written (R180) and NOINV is the no-inverse bit. -/
def deriveDone (rd : RegIdx) (d : Nat) (noinv : Bool) (s : State) : State :=
  finish (keyWrites rd (s.work.p * s.work.p * s.work.q) d (s.work.p * s.work.q)) false noinv s

/-- One internal step inside `Derive` (R182) at the point `ph`. -/
def deriveStep (rd : RegIdx) (ph : Phase) (s : State) : State :=
  match ph with
  | .euclid => euclidStep deriveLam s
  | .bezout => bezoutStep (deriveDone rd) s
  | .start => s
  | .power => s
  | .square => s
  | .witness => s
  | .candidate => s

/-! ### The sequencer's turn -/

/-- The internal step of the sequencer that runs a command whose step at the point `ph` is `f ph`: an Idle sequencer and
one that waits for a random word (R26) take none. -/
def seqStep (f : Phase → State → State) (s : State) : State :=
  match s.seq with
  | .idle => s
  | .run ph => if s.rngWait then s else f ph s

/-- At most `n` internal steps (R70): the turn ends early when the command ends or waits for a random word. -/
def runTurn (f : Phase → State → State) : Nat → State → State
  | 0, s => s
  | n + 1, s => if s.busy && !s.rngWait then runTurn f n (seqStep f s) else s

/-- The internal steps of the turn under way are taken out of the surroundings: the sequencer spends them. -/
def spendTurn (s : State) : State := { s with env := { s.env with turn := 0 } }

/-- A command word is run: it is accepted if the sequencer is Idle (R25), and the sequencer takes the internal steps of
the turn under way (R26, R70). -/
def runCommand (w : Word) (f : Phase → State → State) (s : State) : State :=
  runTurn f s.env.turn (issue w (spendTurn s))

/-- The internal step of an illegal word (R204): the first one raises EILL. -/
def illegalStep (_ : Phase) (s : State) : State := raise .eill s

end Sys2Proof.Machine
end

