-- ==== Sys2Proof/Machine/Arithmetic.lean ====
section
/-! DEFINITION. The modular arithmetic commands GCD, LCM, MODINV, MODEXP (R120-R135). A command's step says what one internal
step does at each point of its pseudocode; points that the command never reaches leave the state as it is. -/

namespace Sys2Proof.Machine

/-- GCD (R121): one internal step. -/
def gcdStep (rd : RegIdx) (ph : Phase) (s : State) : State :=
  match ph with
  | .start => euclidBegin s.work.a s.work.b s
  | .euclid => euclidStep (fun g => finish [(rd, g)] false false) s
  | .bezout => s
  | .power => s
  | .square => s
  | .witness => s
  | .candidate => s

/-- GCD — `gcd xd, xa, xb` (R121). -/
def execGcd (rd rs1 rs2 : RegIdx) (s : State) : Host.Outcome State Fault Refusal :=
  .next (runCommand (encode (.gcd rd rs1 rs2)) (gcdStep rd) s)

/-- LCM (R124): one internal step. A zero operand is EDOM before any arithmetic; the exact lcm is range-checked. -/
def lcmStep (rd : RegIdx) (ph : Phase) (s : State) : State :=
  match ph with
  | .start => if s.work.a = 0 ∨ s.work.b = 0 then raise .edom s else euclidBegin s.work.a s.work.b s
  | .euclid => euclidStep (fun g s => finish [(rd, s.work.a * s.work.b / g)] false false s) s
  | .bezout => s
  | .power => s
  | .square => s
  | .witness => s
  | .candidate => s

/-- LCM — `lcm xd, xa, xb` (R124). -/
def execLcm (rd rs1 rs2 : RegIdx) (s : State) : Host.Outcome State Fault Refusal :=
  .next (runCommand (encode (.lcm rd rs1 rs2)) (lcmStep rd) s)

/-- MODINV (R127): one internal step. Modulus 0 is EDOM; the no-inverse case completes with 0 and NOINV (R128). -/
def modinvStep (rd : RegIdx) (ph : Phase) (s : State) : State :=
  match ph with
  | .start => if s.work.b = 0 then raise .edom s else bezoutBegin s.work.a s.work.b s
  | .bezout => bezoutStep (fun v noinv => finish [(rd, v)] false noinv) s
  | .euclid => s
  | .power => s
  | .square => s
  | .witness => s
  | .candidate => s

/-- MODINV — `modinv xd, xa, xn` (R127). -/
def execModinv (rd rs1 rs2 : RegIdx) (s : State) : Host.Outcome State Fault Refusal :=
  .next (runCommand (encode (.modinv rd rs1 rs2)) (modinvStep rd) s)

/-- MODEXP (R131): one internal step. Modulus 0 is EDOM. -/
def modexpStep (rd : RegIdx) (ph : Phase) (s : State) : State :=
  match ph with
  | .start => if s.work.c = 0 then raise .edom s else powerBegin s.work.a s.work.b s.work.c s
  | .power => powerStep (fun v => finish [(rd, v)] false false) s
  | .euclid => s
  | .bezout => s
  | .square => s
  | .witness => s
  | .candidate => s

/-- MODEXP — `modexp xd, xa, xe, xn` (R131). -/
def execModexp (rd rs1 rs2 rs3 : RegIdx) (s : State) : Host.Outcome State Fault Refusal :=
  .next (runCommand (encode (.modexp rd rs1 rs2 rs3)) (modexpStep rd) s)

end Sys2Proof.Machine
end

