-- ==== Sys2Proof/Machine/KeyGen.lean ====
section
/-! DEFINITION. The key generation commands KEYDERIVE and KEYGEN (R180-R190). -/

namespace Sys2Proof.Machine

/-- KEYDERIVE (R181): one internal step. The checks stand in the order of R208: EILL, EDOM, EKEYREL, ERANGE. -/
def keyderiveStep (rd : RegIdx) (ph : Phase) (s : State) : State :=
  match ph with
  | .start =>
    if 5 < rd.val then raise .eill s
    else if s.work.a < 2 ∨ s.work.b < 2 then raise .edom s
    else if keyRel s.work.a s.work.b then raise .ekeyrel s
    else if 2 ^ s.params.width ≤ s.work.a * s.work.a * s.work.b then raise .erange s
    else deriveBegin s.work.a s.work.b s
  | .euclid => deriveStep rd .euclid s
  | .bezout => deriveStep rd .bezout s
  | .power => s
  | .square => s
  | .witness => s
  | .candidate => s

/-- KEYDERIVE — `keyderive xd, xp, xq` (R181). -/
def execKeyderive (rd rs1 rs2 : RegIdx) (s : State) : Host.Outcome State Fault Refusal :=
  .next (runCommand (encode (.keyderive rd rs1 rs2)) (keyderiveStep rd) s)

/-- A prime of KEYGEN has been sampled (R186): the first is `p`; a later one is `q`, resampled while `Rel(p, q)` (R187). -/
def keygenSampled (c : Nat) (s : State) : State :=
  if s.work.haveP then
    if keyRel s.work.p c then sampleBegin s else deriveBegin s.work.p c s
  else sampleBegin { s with work := { s.work with p := c, haveP := true } }

/-- KEYGEN (R186): one internal step. EILL, ENORNG, EARG in the order of R208; `h = nbits div 2` (R190). -/
def keygenStep (rd : RegIdx) (nbits k : Nat) (ph : Phase) (s : State) : State :=
  match ph with
  | .start =>
    if 5 < rd.val then raise .eill s
    else if s.noRandomSource then raise .enorng s
    else if nbits / 2 < 3 ∨ s.params.width < 3 * (nbits / 2) then raise .earg s
    else sampleBegin s
  | .candidate => sampleStep (nbits / 2) k keygenSampled .candidate s
  | .witness => sampleStep (nbits / 2) k keygenSampled .witness s
  | .power => sampleStep (nbits / 2) k keygenSampled .power s
  | .square => sampleStep (nbits / 2) k keygenSampled .square s
  | .euclid => deriveStep rd .euclid s
  | .bezout => deriveStep rd .bezout s

/-- KEYGEN — `keygen xd, nbits=<b>, k=<k>` (R186). -/
def execKeygen (rd : RegIdx) (nbits : BitVec 13) (k : BitVec 7) (s : State) : Host.Outcome State Fault Refusal :=
  .next (runCommand (encode (.keygen rd nbits k)) (keygenStep rd nbits.toNat k.toNat) s)

end Sys2Proof.Machine
end

