-- ==== Sys2Proof/Machine/Primality.lean ====
section
/-! DEFINITION. The primality commands MRTEST and PRIMEGEN (R150-R165). -/

namespace Sys2Proof.Machine

/-- The end of MRTEST (R157): `X[RD] <- zext_W(v); STATUS.RESULT <- v; complete`. -/
def mrtestDone (rd : RegIdx) (v : Bool) (s : State) : State := finish [(rd, v.toNat)] v false s

/-- MRTEST (R157): one internal step. ENORNG is decided first, for every `n` (R204). -/
def mrtestStep (rd : RegIdx) (k : Nat) (ph : Phase) (s : State) : State :=
  match ph with
  | .start => if s.noRandomSource then raise .enorng s else mrBegin s.work.a k (mrtestDone rd) s
  | .witness => mrStep k (mrtestDone rd) .witness s
  | .power => mrStep k (mrtestDone rd) .power s
  | .square => mrStep k (mrtestDone rd) .square s
  | .euclid => s
  | .bezout => s
  | .candidate => s

/-- MRTEST — `mrtest xd, xn, k=<k>` (R157). -/
def execMrtest (rd rs1 : RegIdx) (k : BitVec 7) (s : State) : Host.Outcome State Fault Refusal :=
  .next (runCommand (encode (.mrtest rd rs1 k)) (mrtestStep rd k.toNat) s)

/-- The end of PRIMEGEN (R161): `X[RD] <- c; complete`. -/
def primegenDone (rd : RegIdx) (c : Nat) (s : State) : State := finish [(rd, c)] false false s

/-- PRIMEGEN (R161): one internal step. ENORNG comes before EARG (R208). -/
def primegenStep (rd : RegIdx) (nbits k : Nat) (ph : Phase) (s : State) : State :=
  match ph with
  | .start =>
    if s.noRandomSource then raise .enorng s
    else if 2 ≤ nbits ∧ nbits ≤ s.params.width then sampleBegin s
    else raise .earg s
  | .candidate => sampleStep nbits k (primegenDone rd) .candidate s
  | .witness => sampleStep nbits k (primegenDone rd) .witness s
  | .power => sampleStep nbits k (primegenDone rd) .power s
  | .square => sampleStep nbits k (primegenDone rd) .square s
  | .euclid => s
  | .bezout => s

/-- PRIMEGEN — `primegen xd, nbits=<b>, k=<k>` (R161). -/
def execPrimegen (rd : RegIdx) (nbits : BitVec 13) (k : BitVec 7) (s : State) : Host.Outcome State Fault Refusal :=
  .next (runCommand (encode (.primegen rd nbits k)) (primegenStep rd nbits.toNat k.toNat) s)

end Sys2Proof.Machine
end

