-- ==== Sys2Proof/Machine/Dispatch.lean ====
section
/-! DEFINITION. The meaning of every command: one arm per constructor of Instr. -/

namespace Sys2Proof.Machine

def exec (i : Instr) (s : State) : Host.Outcome State Fault Refusal :=
  match i with
  | .gcd rd rs1 rs2 => Sys2Proof.Machine.execGcd rd rs1 rs2 s
  | .lcm rd rs1 rs2 => Sys2Proof.Machine.execLcm rd rs1 rs2 s
  | .modinv rd rs1 rs2 => Sys2Proof.Machine.execModinv rd rs1 rs2 s
  | .modexp rd rs1 rs2 rs3 => Sys2Proof.Machine.execModexp rd rs1 rs2 rs3 s
  | .mrtest rd rs1 k => Sys2Proof.Machine.execMrtest rd rs1 k s
  | .primegen rd nbits k => Sys2Proof.Machine.execPrimegen rd nbits k s
  | .keyderive rd rs1 rs2 => Sys2Proof.Machine.execKeyderive rd rs1 rs2 s
  | .keygen rd nbits k => Sys2Proof.Machine.execKeygen rd nbits k s

end Sys2Proof.Machine
end

