-- ==== Sys2Proof/Machine/Bus.lean ====
section
/-! DEFINITION. The register window (R60-R68), its registers (R29-R51), and what each input does to the block. -/

namespace Sys2Proof.Machine

/-- What an aligned offset of the window names (R29, R61, R62). -/
inductive Target where
  | id
  | cfg
  | ctrl
  | status
  | cmd
  | lastcmd
  | attempts
  | rngData
  | rngLevel
  | abort
  /-- Word `j` of `Xi` (R62). -/
  | operand (i : RegIdx) (j : Nat)
  /-- An unmapped offset (R68). -/
  | unmapped
  deriving DecidableEq, Repr

/-- The offset of a physical address in the window at `BASE` (R60, R72); none outside it (log entry 10). -/
def windowOffset (p : Params) (addr : Nat) : Option Nat :=
  if p.base ≤ addr ∧ addr < p.base + 0x2000 then some (addr - p.base) else none

/-- The register at an offset of the control page (R29, R61). -/
def controlTarget (off : Nat) : Target :=
  if off = 0x000 then .id
  else if off = 0x004 then .cfg
  else if off = 0x008 then .ctrl
  else if off = 0x00C then .status
  else if off = 0x010 then .cmd
  else if off = 0x014 then .lastcmd
  else if off = 0x018 then .attempts
  else if off = 0x01C then .rngData
  else if off = 0x020 then .rngLevel
  else if off = 0x024 then .abort
  else .unmapped

/-- The word at an offset of the operand page (R62): register `i` at `0x1000 + 0x200*i`, its word `j` at `+ 4*j`, mapped
for `j < W/32`. -/
def operandTarget (p : Params) (off : Nat) : Target :=
  if (off - 0x1000) % 0x200 / 4 < p.width / 32 then
    .operand (Fin.ofNat 8 ((off - 0x1000) / 0x200)) ((off - 0x1000) % 0x200 / 4)
  else .unmapped

/-- What an aligned offset of the window names (R60-R62, R68). -/
def targetAt (p : Params) (off : Nat) : Target :=
  if off < 0x1000 then controlTarget off else operandTarget p off

/-- The offset of the register CMD (R46). -/
def cmdOffset : Nat := 0x010

/-- ID (R31): 'S' 'S', major version 1, minor version 0. -/
def idWord : Word := 0x53530100

/-- CFG (R32): WBITS, FIFODEPTH, EXTRNG. -/
def cfgWord (p : Params) : Word :=
  0#7 ++ BitVec.ofBool p.extRng ++ BitVec.ofNat 8 p.fifoDepth ++ BitVec.ofNat 16 p.width

/-- The word a read of a register returns (R30-R51, R66). Write-only registers and unmapped offsets read 0. -/
def readTarget (s : State) : Target → Word
  | .id => idWord
  | .cfg => cfgWord s.params
  | .ctrl => s.ctrl
  | .status => s.statusWord
  | .cmd => 0
  | .lastcmd => s.lastcmd
  | .attempts => s.attempts
  | .rngData => 0
  | .rngLevel => 0#16 ++ BitVec.ofNat 16 s.fifo.length
  | .abort => 0
  | .operand i j => wordOf s.x[i] j
  | .unmapped => 0

/-- STATUS.ACCERR is set (R42). -/
def accessError (s : State) : State := { s with status := { s.status with accerr := true } }

/-- A CTRL write (R34): dropped with ACCERR while BUSY, else it updates the fields and ignores the reserved bits. -/
def writeCtrl (v : Word) (s : State) : State :=
  if s.busy then accessError s else { s with ctrl := v &&& ctrlMask }

/-- A STATUS write (R45). -/
def writeStatus (v : Word) (s : State) : State := { s with status := s.status.writeOneToClear v }

/-- A CMD write (R25, R43, R206): accepted if BUSY = 0, else discarded with CMDOVR. -/
def writeCmd (v : Word) (s : State) : State :=
  if s.busy then { s with status := { s.status with cmdovr := true } } else accept v s

/-- An RNG_DATA write (R44, R49): the word is appended, or discarded with FOVF when the FIFO holds `F` words. -/
def writeRngData (v : Word) (s : State) : State :=
  if s.fifo.length < s.params.fifoDepth then { s with fifo := s.fifo ++ [v] }
  else { s with status := { s.status with fovf := true } }

/-- The action of ABORT bit 0 (R51, R207): it ends a running command with EABORT. -/
def abortRun (s : State) : State := if s.busy then raise .eabort s else s

/-- The action of ABORT bit 1, FLUSH (R51): it empties the FIFO. -/
def flushFifo (s : State) : State := { s with fifo := [] }

/-- An ABORT write (R51): both actions in the same step; bits 31:2 are ignored. -/
def writeAbort (v : Word) (s : State) : State :=
  match v.getLsbD 0, v.getLsbD 1 with
  | true, true => flushFifo (abortRun s)
  | true, false => abortRun s
  | false, true => flushFifo s
  | false, false => s

/-- A write of word `j` of `Xi` (R67): dropped with ACCERR while BUSY. -/
def writeOperand (i : RegIdx) (j : Nat) (v : Word) (s : State) : State :=
  if s.busy then accessError s else { s with x := s.x.set i (withWord s.x[i] j v) }

/-- What a 32-bit write to a register does (R30, R65). Read-only registers ignore it. -/
def writeTarget (v : Word) (s : State) : Target → State
  | .id => s
  | .cfg => s
  | .ctrl => writeCtrl v s
  | .status => writeStatus v s
  | .cmd => writeCmd v s
  | .lastcmd => s
  | .attempts => s
  | .rngData => writeRngData v s
  | .rngLevel => s
  | .abort => writeAbort v s
  | .operand i j => writeOperand i j v s
  | .unmapped => accessError s

/-- An access is served only if it is 32 bits wide at a multiple of 4 (R64). -/
def wellFormedAccess (size : AccessSize) (off : Nat) : Bool := size == .b32 && off % 4 == 0

/-- The word that a read returns on the bus (log entry 9). -/
def respond (w : Word) (s : State) : State := { s with env := { s.env with resp := some w } }

/-- `MemRead` at an offset of the window (R64-R66, R68, R71): the only side effect of a read is ACCERR. -/
def busRead (size : AccessSize) (off : Nat) (s : State) : State :=
  if wellFormedAccess size off then
    match targetAt s.params off with
    | .unmapped => respond 0 (accessError s)
    | t => respond (readTarget s t) s
  else respond 0 (accessError s)

/-- `MemWrite` at an offset of the window (R64, R65, R67, R68). -/
def busWrite (size : AccessSize) (off : Nat) (v : Word) (s : State) : State :=
  if wellFormedAccess size off then writeTarget v s (targetAt s.params off) else accessError s

/-- One host access (R65). One outside the window does not reach the block (log entry 10). -/
def serveAccess (a : Access) (s : State) : State :=
  match a with
  | .read addr size =>
    match windowOffset s.params addr with
    | some off => busRead size off s
    | none => s
  | .write addr size v =>
    match windowOffset s.params addr with
    | some off => busWrite size off v s
    | none => s

/-- The platform has a next word for the entropy port (R214): the port presents it as valid once the words before it are
taken, and holds it until the block asserts ready (`State.portReady`) and takes it (log entry 4). It does not enter the
block. Without the port there is nothing to present it. -/
def presentWord (w : Word) (s : State) : State :=
  if s.params.extRng then { s with env := { s.env with port := s.env.port ++ [w] } } else s

/-- What an input does to the block (R65, R214, R230). Reset leaves the surroundings as they are. -/
def serve (input : Input) (s : State) : State :=
  match input with
  | .access a => serveAccess a s
  | .entropy w => presentWord w s
  | .reset => State.resetOf s.params s.env
  | .quiet => s

/-- The command word that an input gets accepted (R25, R46): that of an aligned 32-bit write to CMD while BUSY = 0. -/
def acceptedWord (input : Input) (s : State) : Option Word :=
  match input with
  | .access (.write addr size v) =>
    match windowOffset s.params addr with
    | some off =>
      if wellFormedAccess size off && targetAt s.params off == .cmd && !s.busy then some v else none
    | none => none
  | .access (.read _ _) => none
  | .entropy _ => none
  | .reset => none
  | .quiet => none

end Sys2Proof.Machine
end

