-- ==== Sys2Proof/Machine/HostOps.lean ====
section
/-! DEFINITION. The host's notation of R103: operations of the host, each a list of bus accesses, not commands. -/

namespace Sys2Proof.Machine

/-- `MemWrite(off, 4, v)` (R65). -/
def memWrite (p : Params) (off : Nat) (v : Word) : Access := .write (p.base + off) .b32 v

/-- `MemRead(off, 4)` (R65). -/
def memRead (p : Params) (off : Nat) : Access := .read (p.base + off) .b32

/-- The offset of word `j` of `Xi` (R62). -/
def operandOffset (i : RegIdx) (j : Nat) : Nat := 0x1000 + 0x200 * i.val + 4 * j

/-- `li xi, v` (R103): every word of the register, low word first. -/
def hostLi (p : Params) (i : RegIdx) (v : Nat) : List Access :=
  (List.range (p.width / 32)).map fun j => memWrite p (operandOffset i j) (wordOf v j)

/-- `rd xi` (R103): every word of the register. -/
def hostRd (p : Params) (i : RegIdx) : List Access :=
  (List.range (p.width / 32)).map fun j => memRead p (operandOffset i j)

/-- `cmd <instr>` (R103). -/
def hostCmd (p : Params) (i : Instr) : Access := memWrite p cmdOffset (encode i)

/-- `rng w` (R103). -/
def hostRng (p : Params) (w : Word) : Access := memWrite p 0x01C w

/-- `ctrl v` (R103). -/
def hostCtrl (p : Params) (v : Word) : Access := memWrite p 0x008 v

/-- `st` (R103); the host's `wait` polls this access until bit 0 of what it returns is 0. -/
def hostSt (p : Params) : Access := memRead p 0x00C

/-- An access and the internal steps that follow it (R70). -/
def arrive (a : Access) (turn : Nat) : Arrival := { input := .access a, turn := turn }

/-- The state with an arrival put first in its inbox. -/
def State.withArrival (s : State) (a : Arrival) : State := { s with env := { s.env with inbox := a :: s.env.inbox } }

end Sys2Proof.Machine
end

