-- ==== Sys2Proof/Machine/Fetch.lean ====
section
/-! DEFINITION. What the step reads of the surroundings, and how a command word is placed where the next step takes it.
SS-CORE fetches nothing (R23): the next instruction is the next accepted CMD write. -/

namespace Sys2Proof.Machine

/-- The next arrival (R70); with an empty inbox nothing arrives and a running command takes one internal step (log
entry 6). -/
def State.nextArrival (s : State) : Arrival :=
  match s.env.inbox with
  | [] => { input := .quiet, turn := 1 }
  | a :: _ => a

/-- The state in which the next arrival is served: it has left the inbox, its turn is the turn under way, and no read has
returned a word yet. -/
def State.beginStep (s : State) : State :=
  { s with env := { s.env with inbox := s.env.inbox.tail, turn := s.nextArrival.turn, resp := none } }

/-- The CMD write that makes `w` the next command, with turn enough to run it. -/
def fetchArrival (s : State) (w : Word) : Arrival := arrive (memWrite s.params cmdOffset w) Config.fetchTurn

/-- The sequencer Idle with `work` cleared (R28), as a CMD write needs it to be accepted (R25). -/
def State.madeIdle (s : State) : State := { s with seq := .idle, work := Work.zero }

end Sys2Proof.Machine
end

