-- ==== Sys2Proof/Machine/Turn.lean ====
section
/-! DEFINITION. The running of a command word, and one arrival with the sequencer's turn after it (R70, R204). -/

namespace Sys2Proof.Machine

/-- A command word is run (R204): the command that R101 decodes, or EILL for an illegal word. -/
def dispatch (w : Word) (s : State) : Host.Outcome State Fault Refusal :=
  match decode w with
  | .ok i => exec i s
  | .error _ => .next (runCommand w illegalStep s)

/-- The sequencer's turn after an input that accepts no command: a running command goes on, an Idle sequencer stays
Idle (R26). -/
def resume (s : State) : Host.Outcome State Fault Refusal :=
  match s.seq with
  | .idle => .next (spendTurn s)
  | .run _ => dispatch s.lastcmd s

/-- The next arrival is served completely (R65); then the sequencer takes the arrival's internal steps (R70). -/
def serveArrival (s : State) : Host.Outcome State Fault Refusal :=
  match acceptedWord s.nextArrival.input s.beginStep with
  | some w => dispatch w s.beginStep
  | none => resume (serve s.nextArrival.input s.beginStep)

/-- The command word `w` placed where the next step takes its command: the sequencer is Idle and the next arrival is the
CMD write of the word (log entry 11). -/
def placeCommand (w : Word) (s : State) : State := s.madeIdle.withArrival (fetchArrival s w)

end Sys2Proof.Machine
end

