-- ==== Sys2Proof/Machine/Step.lean ====
section
/-! DEFINITION. One step of the machine, and the state whose next step runs a given command word. -/

namespace Sys2Proof.Machine

/-- One step: the next arrival is served, then the sequencer takes the internal steps that the arrival carries (R65, R70).
-/
def step (s : State) : Host.Outcome State Fault Refusal := serveArrival s

/-- `s` with the table's word `w` placed where the next step takes its command (log entry 11). -/
def State.withFetchWord (s : State) (nbits w : Nat) : State := placeCommand (tableWord nbits w) s

end Sys2Proof.Machine
end

