-- ==== Sys2Proof/Pseudocode.lean ====
section
/-! DEFINITION. The randomised functions of the spec as relations between the words a source has ready, the value
returned and the words left (R150-R163, R183-R187). They are written from the pseudocode without the machine: statements
say that the sequencer computes them. -/

namespace Sys2Proof.Pseudocode

open Sys2Proof.Machine

/-- R152: the value of the words taken, the first the least significant. -/
def assemble : List Word → Nat
  | [] => 0
  | w :: ws => w.toNat + 2 ^ 32 * assemble ws

/-- `RandBits b ws v rest` (R152): `ceil(b/32)` words taken from `ws` give `v` and leave `rest`. -/
inductive RandBits (b : Nat) : List Word → Nat → List Word → Prop where
  | mk (ws rest : List Word) (count : ws.length = wordsFor b) : RandBits b (ws ++ rest) (assemble ws % 2 ^ b) rest

/-- `DrawWitness n ws a rest` (R153), for `n >= 5`: rejection sampling in `[2, n-2]`. -/
inductive DrawWitness (n : Nat) : List Word → Nat → List Word → Prop where
  | accept (ws rest : List Word) (u : Nat) (draw : RandBits (bitlen (n - 4)) ws u rest) (inRange : u ≤ n - 4) :
      DrawWitness n ws (u + 2) rest
  | reject (ws mid rest : List Word) (u a : Nat) (draw : RandBits (bitlen (n - 4)) ws u mid) (outOfRange : n - 4 < u)
      (again : DrawWitness n mid a rest) : DrawWitness n ws a rest

/-- The squaring loop of R156 with `m` squarings left: true when the round passes. -/
def squarings (n : Nat) : Nat → Nat → Bool
  | 0, y => y == n - 1
  | m + 1, y => if y = n - 1 then true else if y * y % n = 1 then false else squarings n m (y * y % n)

/-- One round of R156 with the witness `a`: true when it does not prove `n` composite. -/
def roundPasses (n a : Nat) : Bool :=
  let y := a ^ (oddSplit n).2 % n
  y == 1 || y == n - 1 || squarings n ((oddSplit n).1 - 1) y

/-- The `k` rounds of R156, for `n >= 5`. -/
inductive Rounds (n : Nat) : Nat → List Word → Bool → List Word → Prop where
  | none (ws : List Word) : Rounds n 0 ws true ws
  | fail (k a : Nat) (ws rest : List Word) (witness : DrawWitness n ws a rest) (fails : roundPasses n a = false) :
      Rounds n (k + 1) ws false rest
  | pass (k a : Nat) (ws mid rest : List Word) (v : Bool) (witness : DrawWitness n ws a mid)
      (passes : roundPasses n a = true) (more : Rounds n k mid v rest) : Rounds n (k + 1) ws v rest

/-- `MillerRabin(n, k)` (R156): the answer and the words left. -/
inductive MillerRabin (n k : Nat) : List Word → Bool → List Word → Prop where
  | composite (ws : List Word) (small : n ≤ 1 ∨ n = 4) : MillerRabin n k ws false ws
  | prime (ws : List Word) (small : n = 2 ∨ n = 3) : MillerRabin n k ws true ws
  | rounds (ws rest : List Word) (v : Bool) (large : 5 ≤ n) (run : Rounds n k ws v rest) : MillerRabin n k ws v rest

/-- `sat32(n + 1)` (R10, R48). -/
def satSucc (n : Nat) : Nat := min (n + 1) (2 ^ 32 - 1)

/-- R163: MAXTRY candidates have been drawn. -/
def bounded (maxTry attempts : Nat) : Prop := maxTry ≠ 0 ∧ attempts = maxTry

/-- `PrimeSample(b, k)` (R162) from the count `attempts`: a candidate that passes, or none for ETIMEOUT (R163); the count
and the words left. -/
inductive PrimeSample (b k maxTry : Nat) : Nat → List Word → Option Nat → Nat → List Word → Prop where
  | timeout (n : Nat) (ws : List Word) (bound : bounded maxTry n) : PrimeSample b k maxTry n ws none n ws
  | pass (n c : Nat) (ws mid rest : List Word) (free : ¬ bounded maxTry n) (draw : RandBits b ws c mid)
      (test : MillerRabin c k mid true rest) : PrimeSample b k maxTry n ws (some c) (satSucc n) rest
  | fail (n n' c : Nat) (ws mid rest rest' : List Word) (o : Option Nat) (free : ¬ bounded maxTry n)
      (draw : RandBits b ws c mid) (test : MillerRabin c k mid false rest)
      (again : PrimeSample b k maxTry (satSucc n) rest o n' rest') : PrimeSample b k maxTry n ws o n' rest'

/-- The loop of KEYGEN that samples `q` until `Rel(p, q)` is false (R186, R187). -/
inductive SampleQ (p b k maxTry : Nat) : Nat → List Word → Option Nat → Nat → List Word → Prop where
  | timeout (n n' : Nat) (ws rest : List Word) (sample : PrimeSample b k maxTry n ws none n' rest) :
      SampleQ p b k maxTry n ws none n' rest
  | accept (n n' q : Nat) (ws rest : List Word) (sample : PrimeSample b k maxTry n ws (some q) n' rest)
      (unrelated : keyRel p q = false) : SampleQ p b k maxTry n ws (some q) n' rest
  | resample (n n' n'' q : Nat) (ws mid rest : List Word) (o : Option Nat)
      (sample : PrimeSample b k maxTry n ws (some q) n' mid) (related : keyRel p q = true)
      (again : SampleQ p b k maxTry n' mid o n'' rest) : SampleQ p b k maxTry n ws o n'' rest

/-- The two samplings of KEYGEN (R186) from a count of 0: the primes `p` and `q`, or none for ETIMEOUT. -/
inductive KeyPrimes (b k maxTry : Nat) : List Word → Option (Nat × Nat) → Nat → List Word → Prop where
  | noP (n : Nat) (ws rest : List Word) (sample : PrimeSample b k maxTry 0 ws none n rest) :
      KeyPrimes b k maxTry ws none n rest
  | noQ (n n' p : Nat) (ws mid rest : List Word) (sample : PrimeSample b k maxTry 0 ws (some p) n mid)
      (sampleQ : SampleQ p b k maxTry n mid none n' rest) : KeyPrimes b k maxTry ws none n' rest
  | both (n n' p q : Nat) (ws mid rest : List Word) (sample : PrimeSample b k maxTry 0 ws (some p) n mid)
      (sampleQ : SampleQ p b k maxTry n mid (some q) n' rest) : KeyPrimes b k maxTry ws (some (p, q)) n' rest

/-- `λ = lcm(p - 1, q - 1)` of R182. -/
def lambda (p q : Nat) : Nat := Nat.lcm (p - 1) (q - 1)

/-- R127, stated without the algorithm: `v` is the inverse of `a` modulo `n`, or 0 with the no-inverse bit. -/
def IsModInv (a n v : Nat) (noinv : Bool) : Prop :=
  (Nat.gcd a n = 1 → noinv = false ∧ v < n ∧ a * v % n = 1 % n) ∧ (Nat.gcd a n ≠ 1 → noinv = true ∧ v = 0)

end Sys2Proof.Pseudocode
end

