-- ==== Sys2Proof/Safety.lean ====
section
/-! DEFINITION. The terms in which statements speak of runs: how a command ends as one record update of the state it was
issued in (R25 with R202 or R203), and the invariants of the block. -/

namespace Sys2Proof.Machine

/-- The state with a turn of `n` internal steps for its next command (R70). -/
def State.withTurn (s : State) (n : Nat) : State := { s with env := { s.env with turn := n } }

/-- The state with the words `ws` ready in the selected random source (R151). -/
def State.withSource (s : State) (ws : List Word) : State :=
  { s with
    fifo := if s.rngSrc then ws else s.fifo
    env := { s.env with port := if s.rngSrc then s.env.port else ws } }

/-- The state in which an arrival with the turn `n` is served: `n` is the turn under way, no read has returned a word. -/
def State.begun (s : State) (n : Nat) : State := { s with env := { s.env with turn := n, resp := none } }

/-- The state whose next arrival is the CMD write of the word `w`, followed by `n` internal steps (R46, R70). -/
def State.offers (s : State) (w : Word) (n : Nat) : State := s.withArrival (arrive (memWrite s.params cmdOffset w) n)

/-- The words that spell a legal command (R96, R97, R99), said without the decoder. -/
def LegalWord (w : Word) : Prop :=
  (∃ row ∈ opcodeMap, row.spells w = true) ∧
    (rowKeyderive.spells w = true ∨ rowKeygen.spells w = true → (fieldRd w).val ≤ 5)

/-- The registers that a command writes at successful completion (R22, R97). -/
def dests : Instr → List RegIdx
  | .gcd rd _ _ => [rd]
  | .lcm rd _ _ => [rd]
  | .modinv rd _ _ => [rd]
  | .modexp rd _ _ _ => [rd]
  | .mrtest rd _ _ => [rd]
  | .primegen rd _ _ => [rd]
  | .keyderive rd _ _ => [rd, destPlus rd 1, destPlus rd 2]
  | .keygen rd _ _ => [rd, destPlus rd 1, destPlus rd 2]

/-- The commands that take random words (R204). -/
def randomised : Instr → Bool
  | .gcd _ _ _ => false
  | .lcm _ _ _ => false
  | .modinv _ _ _ => false
  | .modexp _ _ _ _ => false
  | .mrtest _ _ _ => true
  | .primegen _ _ _ => true
  | .keyderive _ _ _ => false
  | .keygen _ _ _ => true

/-- The commands that count candidates in ATTEMPTS (R48): those that call `PrimeSample` (R162). -/
def samplesCandidates : Instr → Bool
  | .gcd _ _ _ => false
  | .lcm _ _ _ => false
  | .modinv _ _ _ => false
  | .modexp _ _ _ _ => false
  | .mrtest _ _ _ => false
  | .primegen _ _ _ => true
  | .keyderive _ _ _ => false
  | .keygen _ _ _ => true

/-- How the command word `w`, issued in `s`, ends in success (R25, R202): everything that is not named is as in `s`. -/
def State.succeeded (s : State) (w : Word) (attempts : Word) (writes : List (RegIdx × Nat)) (result noinv : Bool) :
    State :=
  { s with
    x := writeAll s.x writes
    status := { s.status with done := true, err := false, result := result, noinv := noinv, ecode := none }
    lastcmd := w
    attempts := attempts
    seq := .idle
    work := Work.zero
    env := { s.env with turn := 0 } }

/-- How the command word `w`, issued in `s`, ends in the error `e` (R25, R203): no operand register is written. -/
def State.failed (s : State) (w : Word) (attempts : Word) (e : ErrCode) : State :=
  { s with
    status := { s.status with done := false, err := true, result := false, noinv := false, ecode := some e }
    lastcmd := w
    attempts := attempts
    seq := .idle
    work := Work.zero
    env := { s.env with turn := 0 } }

/-- Every operand register holds a value below `2^W` (R7, R21). -/
def State.operandsFit (s : State) : Prop := ∀ i : RegIdx, s.x[i] < 2 ^ s.params.width

/-- The invariant of the block: what holds at reset and what every step keeps. -/
structure State.Inv (s : State) : Prop where
  /-- R5: the parameters are legal. -/
  params_legal : s.params.legal = true
  /-- R7, R21: every operand register holds a `W`-bit value. -/
  operands_fit : s.operandsFit
  /-- R30, R33: the reserved bits of CTRL are 0. -/
  ctrl_reserved : s.ctrl &&& ctrlMask = s.ctrl
  /-- R49: the FIFO holds at most `F` words. -/
  fifo_bounded : s.fifo.length ≤ s.params.fifoDepth
  /-- R38: DONE and ERR are never both 1. -/
  one_end : ¬ (s.status.done = true ∧ s.status.err = true)
  /-- R38: ERR comes with an error code. -/
  err_code : s.status.err = true → s.status.ecode ≠ none
  /-- R202: after a success ECODE is 0. -/
  done_code : s.status.done = true → s.status.ecode = none
  /-- R203: after an error RESULT and NOINV are 0. -/
  error_flags : s.status.ecode ≠ none → s.status.result = false ∧ s.status.noinv = false
  /-- R25: while a command runs the flags that acceptance clears are 0. -/
  running_flags : s.busy = true →
    s.status.done = false ∧ s.status.err = false ∧ s.status.ecode = none ∧ s.status.result = false ∧
      s.status.noinv = false
  /-- R28: `work` is all zeros while the sequencer is Idle. -/
  idle_cleared : s.seq = .idle → s.work = Work.zero

/-- R163: with MAXTRY = m > 0 a running command has drawn at most `m` candidates, and fewer while it draws one. -/
def State.attemptsBounded (s : State) : Prop :=
  s.maxTry ≠ 0 → s.busy = true →
    s.attempts.toNat ≤ s.maxTry ∧ (s.seq = .run .candidate → s.attempts.toNat < s.maxTry)

/-- R204: an accepted word that is not legal ends in the first internal step, so it stands nowhere but at its start. -/
def State.illegalAtStart (s : State) : Prop := s.busy = true → ¬ LegalWord s.lastcmd → s.seq = .run .start

/-- Two states that agree on everything but `work`, the state no register shows (R27). -/
def State.sameButWork (s s' : State) : Prop := { s with work := Work.zero } = { s' with work := Work.zero }

end Sys2Proof.Machine
end

