-- ==== Sys2Proof/Certificates/Slice0/Obligations.lean ====
section
/-! DEFINITION. The statements about SS-CORE. Each docstring names the rule of spec/ it formalises. A statement about a
command gives its whole next state: `succeeded` and `failed` (Safety) update the fields they name and no other, so each of
them is also the command's frame. A command starts from an Idle sequencer; the turn is the number of internal steps that the
environment grants (R70, log entry 2), and a statement that a command completes asks for a turn long enough, counted in the
model's internal steps (DESIGN CHOICE, log entry 5). -/

open Sys2Proof Sys2Proof.Machine Sys2Proof.Pseudocode

/-! ### Encoding -/

/-- R92, R93, R96, R101: no bit of an encoding is dropped. -/
def Obligations.DecodeOfEncode : Prop :=
  ∀ i : Instr, i.wellFormed = true → decode (encode i) = .ok i

/-- R96, R99, R101: a legal word is the word of the command it decodes to, so each command has one word. -/
def Obligations.EncodeOfDecode : Prop :=
  ∀ (w : Word) (i : Instr), decode w = .ok i → i.wellFormed = true ∧ encode i = w

/-- R99: "exactly the words that match one row of rule R96 are legal, and for KEYDERIVE and KEYGEN only those with
`RD <= 5`. Every other 32-bit word is illegal." -/
def Obligations.LegalWordsAreTheRowsOfTheMap : Prop :=
  ∀ w : Word, (∃ i, decode w = .ok i) ↔ LegalWord w

/-- R96, R102: words of 95_test_vectors.md section 2.1 decode to the commands they stand for. -/
def Obligations.ExampleWordsDecode : Prop :=
  decode 0x00002201 = .ok (.gcd 0 1 2) ∧ decode 0x000058C2 = .ok (.lcm 3 4 5) ∧
    decode 0x00003443 = .ok (.modinv 1 2 3) ∧ decode 0x000110C4 = .ok (.modexp 3 0 1 2) ∧
    decode 0x28000045 = .ok (.mrtest 1 0 20) ∧ decode 0x04008006 = .ok (.primegen 0 8 2) ∧
    decode 0x00001147 = .ok (.keyderive 5 0 1) ∧ decode 0xFE02B088 = .ok (.keygen 2 43 127)

/-! ### The step -/

/-- R23, R25, R204: the CMD write of a word that decodes to `i`, arriving while BUSY = 0, makes the step that of `exec i`:
the arrival has left the inbox and its turn is the turn under way. -/
def Obligations.StepRunsTheDecodedCommand : Prop :=
  ∀ (s : State) (w : Word) (i : Instr) (n : Nat), s.busy = false → decode w = .ok i →
    step (s.offers w n) = exec i (s.begun n)

/-- R26, R70: after any arrival that leaves a command running, the step is that of the command in LASTCMD, from the state
the arrival leaves. -/
def Obligations.StepGoesOnWithTheRunningCommand : Prop :=
  ∀ (s : State) (a : Arrival) (i : Instr), s.busy = true → (serve a.input (s.begun a.turn)).busy = true →
    decode s.lastcmd = .ok i → step (s.withArrival a) = exec i (serve a.input (s.begun a.turn))

/-- R70: "between two host accesses, the sequencer may take any number of steps, including zero": a turn of `m + n`
internal steps is a turn of `m` followed by a turn of `n`, as long as the command still runs. -/
def Obligations.TurnsCompose : Prop :=
  ∀ (i : Instr) (s t : State) (m n : Nat), exec i (s.withTurn m) = .next t → t.busy = true →
    exec i (s.withTurn (m + n)) = exec i (t.withTurn n)

/-- R200: "No error is fatal to the block": every step of every state answers a next state. -/
def Obligations.EveryStepAnswersNext : Prop :=
  ∀ s : State, ∃ t, step s = .next t

/-! ### Acceptance -/

/-- R25: what acceptance does in one step, for every word, legal or not, and R206: what a CMD write does while BUSY = 1.
The arrival carries no internal step, so nothing else happens. That the snapshot is taken by the bits 11:9, 14:12 and 17:15
of every word, a word of format G or an illegal one too, is the model's choice (DEDUCED, log entry 8). -/
def Obligations.CmdWriteIsAcceptedOrDiscarded : Prop :=
  ∀ (s : State) (w : Word),
    (s.busy = false → step (s.offers w 0) = .next
      { s.begun 0 with
        lastcmd := w
        status := { s.status with done := false, err := false, ecode := none, result := false, noinv := false }
        attempts := 0
        seq := .run .start
        work := { Work.zero with a := s.x[fieldRs1 w], b := s.x[fieldRs2 w], c := s.x[fieldRs3 w] } }) ∧
    (s.busy = true → step (s.offers w 0) = .next
      { s.begun 0 with status := { s.status with cmdovr := true } })

/-- R98, R99: exactly the words of `LegalWord` run as commands; every other word is accepted and completes at once with ERR
and ECODE = EILL, writing no register, in the first internal step after acceptance (R204). -/
def Obligations.OnlyLegalWordsRunOthersEndWithEill : Prop :=
  ∀ (s : State) (w : Word) (n : Nat), s.busy = false → 1 ≤ n →
    (LegalWord w → ∃ i, decode w = .ok i ∧ step (s.offers w n) = exec i (s.begun n)) ∧
    (¬ LegalWord w → step (s.offers w n) = .next ((s.begun n).failed w 0 .eill))

/-- R204: an illegal word that was accepted by an arrival without an internal step still runs, and ends with EILL in the first
internal step of a later arrival, whatever the arrivals in between (but for ABORT and reset, which end it at once: then
`u.busy` is false). `illegalAtStart` is an invariant of its own, `EveryStepKeepsIllegalWordsAtStart`. -/
def Obligations.RunningIllegalWordEndsWithEill : Prop :=
  ∀ (s : State) (a : Arrival), s.busy = true → ¬ LegalWord s.lastcmd → s.illegalAtStart →
    let u := serve a.input (s.begun a.turn)
    u.busy = true →
    step (s.withArrival a) = .next
      (if a.turn = 0 then u
       else
         { u with
           status := { u.status with err := true, ecode := some .eill }
           seq := .idle
           work := Work.zero
           env := { u.env with turn := 0 } })

/-- What a KEYDERIVE or KEYGEN term with `RD > 5` does. R97 speaks of the word, which `OnlyLegalWordsRunOthersEndWithEill`
covers; the decoder never gives such a term, and that it ends as its word does is the model's choice (DEDUCED, log entry
12). -/
def Obligations.DestinationAboveFiveIsEill : Prop :=
  ∀ (s : State) (rd ra rb : RegIdx) (nbits : BitVec 13) (k : BitVec 7), s.seq = .idle → 5 < rd.val → 1 ≤ s.env.turn →
    exec (.keyderive rd ra rb) s = .next (s.failed (encode (.keyderive rd ra rb)) 0 .eill) ∧
    exec (.keygen rd nbits k) s = .next (s.failed (encode (.keygen rd nbits k)) 0 .eill)

/-! ### Modular arithmetic -/

/-- R121, R120: GCD writes the greatest common divisor, for every pair of operands, and ends within the internal steps of
`2*W + 2` Euclid iterations. -/
def Obligations.GcdResult : Prop :=
  ∀ (s : State) (rd ra rb : RegIdx), s.seq = .idle → s.operandsFit → 2 * s.params.width + 4 ≤ s.env.turn →
    exec (.gcd rd ra rb) s =
      .next (s.succeeded (encode (.gcd rd ra rb)) 0 [(rd, Nat.gcd s.x[ra] s.x[rb])] false false)

/-- R124, R7: LCM ends with EDOM for a zero operand, with ERANGE if the exact lcm does not fit, and else writes it. -/
def Obligations.LcmResult : Prop :=
  ∀ (s : State) (rd ra rb : RegIdx), s.seq = .idle → s.operandsFit → 2 * s.params.width + 4 ≤ s.env.turn →
    exec (.lcm rd ra rb) s =
      if s.x[ra] = 0 ∨ s.x[rb] = 0 then .next (s.failed (encode (.lcm rd ra rb)) 0 .edom)
      else if 2 ^ s.params.width ≤ Nat.lcm s.x[ra] s.x[rb] then .next (s.failed (encode (.lcm rd ra rb)) 0 .erange)
      else .next (s.succeeded (encode (.lcm rd ra rb)) 0 [(rd, Nat.lcm s.x[ra] s.x[rb])] false false)

/-- R127: MODINV ends with EDOM for modulus 0; else it writes the inverse in `[0, n)`, or 0 with NOINV when the gcd is not
1. A value and bit of that kind exist, and there is only one: whatever `v` and `noinv` meet `IsModInv`, they are written. -/
def Obligations.ModinvResult : Prop :=
  ∀ (s : State) (rd ra rn : RegIdx), s.seq = .idle → s.operandsFit → 2 * s.params.width + 4 ≤ s.env.turn →
    (s.x[rn] = 0 → exec (.modinv rd ra rn) s = .next (s.failed (encode (.modinv rd ra rn)) 0 .edom)) ∧
    (s.x[rn] ≠ 0 → (∃ v noinv, IsModInv s.x[ra] s.x[rn] v noinv) ∧
      ∀ v noinv, IsModInv s.x[ra] s.x[rn] v noinv →
        exec (.modinv rd ra rn) s = .next (s.succeeded (encode (.modinv rd ra rn)) 0 [(rd, v)] false noinv))


/-- R127, R129: for coprime operands MODINV writes "the unique `t` with `0 <= t < n` and `(a * t) mod n = 1 mod n`", said of
the register it leaves: it is below the modulus, it is an inverse, and every other value below the modulus that is one is
the same. -/
def Obligations.ModinvOfCoprimesWritesTheOnlyInverse : Prop :=
  ∀ (s : State) (rd ra rn : RegIdx), s.seq = .idle → s.operandsFit → 2 * s.params.width + 4 ≤ s.env.turn →
    s.x[rn] ≠ 0 → Nat.Coprime s.x[ra] s.x[rn] →
    ∃ t, exec (.modinv rd ra rn) s = .next t ∧ t.status.done = true ∧ t.status.noinv = false ∧
      t.x[rd] < s.x[rn] ∧ s.x[ra] * t.x[rd] % s.x[rn] = 1 % s.x[rn] ∧
      ∀ v < s.x[rn], s.x[ra] * v % s.x[rn] = 1 % s.x[rn] → v = t.x[rd]


/-- R131, R132: MODEXP ends with EDOM for modulus 0; else it writes `(a ^ d) mod n`, within the internal steps of
`bitlen(d)` loop iterations. -/
def Obligations.ModexpResult : Prop :=
  ∀ (s : State) (rd ra re rn : RegIdx), s.seq = .idle → s.operandsFit → bitlen s.x[re] + 2 ≤ s.env.turn →
    exec (.modexp rd ra re rn) s =
      if s.x[rn] = 0 then .next (s.failed (encode (.modexp rd ra re rn)) 0 .edom)
      else .next (s.succeeded (encode (.modexp rd ra re rn)) 0 [(rd, s.x[ra] ^ s.x[re] % s.x[rn])] false false)

/-! ### Primality -/

/-- R204: MRTEST, PRIMEGEN and KEYGEN with RNGSRC = 0 and EXTRNG = 0 end with ENORNG, whatever `n`, `nbits` and `k` are. -/
def Obligations.NoRandomSourceIsEnorng : Prop :=
  ∀ (s : State) (rd rn : RegIdx) (nbits : BitVec 13) (k : BitVec 7), s.seq = .idle → s.ctrl.getLsbD 0 = false →
    s.params.extRng = false → 1 ≤ s.env.turn →
    exec (.mrtest rd rn k) s = .next (s.failed (encode (.mrtest rd rn k)) 0 .enorng) ∧
    exec (.primegen rd nbits k) s = .next (s.failed (encode (.primegen rd nbits k)) 0 .enorng) ∧
    (rd.val ≤ 5 → exec (.keygen rd nbits k) s = .next (s.failed (encode (.keygen rd nbits k)) 0 .enorng))

/-- R156, R157, R158: MRTEST on the operands that need no random word: `n <= 1` and `n = 4` give 0, `n = 2` and `n = 3`
give 1, and with `k = 0` every `n >= 5` gives 1. -/
def Obligations.MrtestWithoutWords : Prop :=
  ∀ (s : State) (rd rn : RegIdx) (k : BitVec 7), s.seq = .idle → s.noRandomSource = false → 0 < s.params.width →
    1 ≤ s.env.turn → (s.x[rn] ≤ 4 ∨ k = 0) →
    exec (.mrtest rd rn k) s =
      if s.x[rn] ≤ 1 ∨ s.x[rn] = 4 then .next (s.succeeded (encode (.mrtest rd rn k)) 0 [(rd, 0)] false false)
      else .next (s.succeeded (encode (.mrtest rd rn k)) 0 [(rd, 1)] true false)

/-- R155, R8, R152, R33: the numbers that the relations of `Sys2Proof/Pseudocode.lean` and the commands are written with. The
split of `n - 1` is the unique one with `r` odd, with its parity cases; `bitlen(x)` is the number of binary digits;
`ceil(b/32)` words hold `b` bits; MAXTRY and RNGSRC are the fields of CTRL. -/
def Obligations.NumbersOfTheRelationsAreTheSpecs : Prop :=
  (∀ n, 5 ≤ n →
    n - 1 = 2 ^ (oddSplit n).1 * (oddSplit n).2 ∧ (oddSplit n).2 % 2 = 1 ∧
    (∀ s r, n - 1 = 2 ^ s * r → r % 2 = 1 → oddSplit n = (s, r)) ∧
    (n % 2 = 1 → 1 ≤ (oddSplit n).1) ∧ (n % 2 = 0 → oddSplit n = (0, n - 1))) ∧
  bitlen 0 = 0 ∧ (∀ x, 0 < x → 2 ^ (bitlen x - 1) ≤ x ∧ x < 2 ^ bitlen x) ∧
  (∀ b, 1 ≤ b → 32 * (wordsFor b - 1) < b ∧ b ≤ 32 * wordsFor b) ∧
  ∀ s : State, s.maxTry = s.ctrl.toNat / 2 ^ 16 ∧ s.source = (if s.ctrl.getLsbD 0 then s.fifo else s.env.port) ∧
    s.noRandomSource = (!s.ctrl.getLsbD 0 && !s.params.extRng)

/-- R156, R157: on the words of the selected source MRTEST computes `MillerRabin(n, k)`, writes the answer to `X[RD]` and
RESULT, and takes exactly the words of the draws. -/
def Obligations.MrtestComputesMillerRabin : Prop :=
  ∀ (s : State) (rd rn : RegIdx) (k : BitVec 7) (v : Bool) (rest : List Word), s.seq = .idle →
    s.noRandomSource = false → 0 < s.params.width → MillerRabin s.x[rn] k.toNat s.source v rest →
    ∃ enough, ∀ turn ≥ enough, exec (.mrtest rd rn k) (s.withTurn turn) =
      .next ((s.succeeded (encode (.mrtest rd rn k)) 0 [(rd, v.toNat)] v false).withSource rest)

/-- R159(a): no prime gets 0, for any words: an MRTEST of a prime that completes writes 1 and sets RESULT. -/
def Obligations.MrtestNeverRejectsAPrime : Prop :=
  ∀ (s t : State) (rd rn : RegIdx) (k : BitVec 7), s.seq = .idle → Nat.Prime s.x[rn] →
    exec (.mrtest rd rn k) s = .next t → t.status.done = true → t.x[rd] = 1 ∧ t.status.result = true

/-- R161: PRIMEGEN with `nbits < 2` or `nbits > W` ends with EARG and takes no word. -/
def Obligations.PrimegenRange : Prop :=
  ∀ (s : State) (rd : RegIdx) (nbits : BitVec 13) (k : BitVec 7), s.seq = .idle → s.noRandomSource = false →
    (nbits.toNat < 2 ∨ s.params.width < nbits.toNat) → 1 ≤ s.env.turn →
    exec (.primegen rd nbits k) s = .next (s.failed (encode (.primegen rd nbits k)) 0 .earg)

/-- R161, R162, R163: on the words of the selected source PRIMEGEN computes `PrimeSample(nbits, k)`: the candidate that
passes is written, or MAXTRY candidates end it with ETIMEOUT; ATTEMPTS counts the candidates. -/
def Obligations.PrimegenComputesPrimeSample : Prop :=
  ∀ (s : State) (rd : RegIdx) (nbits : BitVec 13) (k : BitVec 7) (o : Option Nat) (n : Nat) (rest : List Word),
    s.seq = .idle → s.noRandomSource = false → 2 ≤ nbits.toNat → nbits.toNat ≤ s.params.width →
    PrimeSample nbits.toNat k.toNat s.maxTry 0 s.source o n rest →
    ∃ enough, ∀ turn ≥ enough, exec (.primegen rd nbits k) (s.withTurn turn) =
      match o with
      | some c => .next
          ((s.succeeded (encode (.primegen rd nbits k)) (BitVec.ofNat 32 n) [(rd, c)] false false).withSource rest)
      | none => .next ((s.failed (encode (.primegen rd nbits k)) (BitVec.ofNat 32 n) .etimeout).withSource rest)

/-- R158, R161: a PRIMEGEN with `k = 0` whose very first candidate is not 0, 1 or 4 writes that candidate. (Runs in which
candidates are rejected first are those of `PrimegenComputesPrimeSample`.) -/
def Obligations.PrimegenWithoutRounds : Prop :=
  ∀ (s : State) (rd : RegIdx) (nbits : BitVec 13) (words rest : List Word), s.seq = .idle → s.noRandomSource = false →
    2 ≤ nbits.toNat → nbits.toNat ≤ s.params.width → s.source = words ++ rest → words.length = wordsFor nbits.toNat →
    assemble words % 2 ^ nbits.toNat ∉ [0, 1, 4] → words.length + 1 ≤ s.env.turn →
    exec (.primegen rd nbits 0) s = .next
      ((s.succeeded (encode (.primegen rd nbits 0)) 1 [(rd, assemble words % 2 ^ nbits.toNat)] false false).withSource
        rest)

/-- R164: what PRIMEGEN writes when it completes is at least 2 and has at most `nbits` bits. -/
def Obligations.PrimegenResultHasAtMostNbits : Prop :=
  ∀ (s t : State) (rd : RegIdx) (nbits : BitVec 13) (k : BitVec 7), s.seq = .idle →
    exec (.primegen rd nbits k) s = .next t → t.status.done = true → 2 ≤ t.x[rd] ∧ t.x[rd] < 2 ^ nbits.toNat

/-! ### Key generation -/

/-- R181, R182, R183, R97: KEYDERIVE's errors in their order, and else its three results. -/
def Obligations.KeyderiveResult : Prop :=
  ∀ (s : State) (rd ra rb : RegIdx) (p q : Nat) (h : rd.val ≤ 5), s.seq = .idle → s.operandsFit →
    s.x[ra] = p → s.x[rb] = q → 4 * s.params.width + 8 ≤ s.env.turn →
    if p < 2 ∨ q < 2 then
      exec (.keyderive rd ra rb) s = .next (s.failed (encode (.keyderive rd ra rb)) 0 .edom)
    else if p = q ∨ (p - 1) % q = 0 ∨ (q - 1) % p = 0 then
      exec (.keyderive rd ra rb) s = .next (s.failed (encode (.keyderive rd ra rb)) 0 .ekeyrel)
    else if 2 ^ s.params.width ≤ p * p * q then
      exec (.keyderive rd ra rb) s = .next (s.failed (encode (.keyderive rd ra rb)) 0 .erange)
    else ∃ d noinv t, IsModInv (p * p * q) (lambda p q) d noinv ∧ exec (.keyderive rd ra rb) s = .next t ∧
      t = s.succeeded (encode (.keyderive rd ra rb)) 0 (keyWrites rd (p * p * q) d (p * q)) false noinv ∧
      t.x[rd.val] = p * p * q ∧ t.x[rd.val + 1] = d ∧ t.x[rd.val + 2] = p * q

/-- R184: from distinct primes that do not satisfy the relation, KEYDERIVE and KEYGEN find the inverse: NOINV = 0 and
`d · N mod λ = 1 mod λ`. Of KEYGEN it is said of the `p` and `q` that it samples (`KeyPrimes`), where both are prime. -/
def Obligations.KeysOfPrimesHaveInverse : Prop :=
  (∀ (s t : State) (rd ra rb : RegIdx) (h : rd.val ≤ 5), s.seq = .idle → s.operandsFit →
    4 * s.params.width + 8 ≤ s.env.turn → Nat.Prime s.x[ra] → Nat.Prime s.x[rb] →
    exec (.keyderive rd ra rb) s = .next t → t.status.done = true →
    t.status.noinv = false ∧
      t.x[rd.val + 1] * t.x[rd.val] % lambda s.x[ra] s.x[rb] = 1 % lambda s.x[ra] s.x[rb]) ∧
  ∀ (s : State) (rd : RegIdx) (nbits : BitVec 13) (k : BitVec 7) (p q n : Nat) (rest : List Word) (h : rd.val ≤ 5),
    s.seq = .idle → s.noRandomSource = false → 3 ≤ nbits.toNat / 2 → 3 * (nbits.toNat / 2) ≤ s.params.width →
    KeyPrimes (nbits.toNat / 2) k.toNat s.maxTry s.source (some (p, q)) n rest → Nat.Prime p → Nat.Prime q →
    ∃ enough, ∀ turn ≥ enough, ∃ t, exec (.keygen rd nbits k) (s.withTurn turn) = .next t ∧ t.status.done = true ∧
      t.status.noinv = false ∧ t.x[rd.val + 1] * t.x[rd.val] % lambda p q = 1 % lambda p q

/-- R185: after a KEYDERIVE or KEYGEN from primes with NOINV = 0, `ModExp(ModExp(m, N, N), d, n) = m` for every `m < n`. From
primes KEYGEN always leaves NOINV = 0 (R184). -/
def Obligations.KeysDecryptWhatTheyEncrypt : Prop :=
  (∀ (s t : State) (rd ra rb : RegIdx) (h : rd.val ≤ 5), s.seq = .idle → s.operandsFit →
    4 * s.params.width + 8 ≤ s.env.turn → Nat.Prime s.x[ra] → Nat.Prime s.x[rb] →
    exec (.keyderive rd ra rb) s = .next t → t.status.done = true → t.status.noinv = false →
    ∀ m < t.x[rd.val + 2], (m ^ t.x[rd.val] % t.x[rd.val]) ^ t.x[rd.val + 1] % t.x[rd.val + 2] = m) ∧
  ∀ (s : State) (rd : RegIdx) (nbits : BitVec 13) (k : BitVec 7) (p q n : Nat) (rest : List Word) (h : rd.val ≤ 5),
    s.seq = .idle → s.noRandomSource = false → 3 ≤ nbits.toNat / 2 → 3 * (nbits.toNat / 2) ≤ s.params.width →
    KeyPrimes (nbits.toNat / 2) k.toNat s.maxTry s.source (some (p, q)) n rest → Nat.Prime p → Nat.Prime q →
    ∃ enough, ∀ turn ≥ enough, ∃ t, exec (.keygen rd nbits k) (s.withTurn turn) = .next t ∧ t.status.done = true ∧
      t.status.noinv = false ∧ t.x[rd.val + 2] = p * q ∧
      ∀ m < t.x[rd.val + 2], (m ^ t.x[rd.val] % t.x[rd.val]) ^ t.x[rd.val + 1] % t.x[rd.val + 2] = m

/-- R186, R190: KEYGEN with `h = nbits div 2` below 3 or `3h > W` ends with EARG and takes no word. -/
def Obligations.KeygenRange : Prop :=
  ∀ (s : State) (rd : RegIdx) (nbits : BitVec 13) (k : BitVec 7), rd.val ≤ 5 → s.seq = .idle →
    s.noRandomSource = false → (nbits.toNat / 2 < 3 ∨ s.params.width < 3 * (nbits.toNat / 2)) → 1 ≤ s.env.turn →
    exec (.keygen rd nbits k) s = .next (s.failed (encode (.keygen rd nbits k)) 0 .earg)

/-- R186, R187, R180: on the words of the selected source KEYGEN samples `p` once and `q` until the relation is false, and
writes `N`, `d` and `n`; or MAXTRY candidates end it with ETIMEOUT. ATTEMPTS counts the candidates of both. -/
def Obligations.KeygenComputesKeyGen : Prop :=
  ∀ (s : State) (rd : RegIdx) (nbits : BitVec 13) (k : BitVec 7) (o : Option (Nat × Nat)) (n : Nat) (rest : List Word),
    rd.val ≤ 5 → s.seq = .idle → s.noRandomSource = false → 3 ≤ nbits.toNat / 2 →
    3 * (nbits.toNat / 2) ≤ s.params.width →
    KeyPrimes (nbits.toNat / 2) k.toNat s.maxTry s.source o n rest →
    match o with
    | some (p, q) => ∃ d noinv enough, IsModInv (p * p * q) (lambda p q) d noinv ∧ ∀ turn ≥ enough,
        exec (.keygen rd nbits k) (s.withTurn turn) =
          .next ((s.succeeded (encode (.keygen rd nbits k)) (BitVec.ofNat 32 n)
            (keyWrites rd (p * p * q) d (p * q)) false noinv).withSource rest)
    | none => ∃ enough, ∀ turn ≥ enough, exec (.keygen rd nbits k) (s.withTurn turn) =
        .next ((s.failed (encode (.keygen rd nbits k)) (BitVec.ofNat 32 n) .etimeout).withSource rest)

/-- R158, R186: with `k = 0` and primes of at most 32 bits KEYGEN completes on two words, whenever neither candidate is 0, 1 or
4 and they do not satisfy the relation. -/
def Obligations.KeygenWithoutRounds : Prop :=
  ∀ (s : State) (rd : RegIdx) (nbits : BitVec 13) (u v : Word) (rest : List Word) (p q : Nat), rd.val ≤ 5 →
    s.seq = .idle → s.noRandomSource = false → s.maxTry ≠ 1 → 3 ≤ nbits.toNat / 2 → nbits.toNat / 2 ≤ 32 →
    3 * (nbits.toNat / 2) ≤ s.params.width → s.source = u :: v :: rest →
    p = u.toNat % 2 ^ (nbits.toNat / 2) → q = v.toNat % 2 ^ (nbits.toNat / 2) → p ∉ [0, 1, 4] → q ∉ [0, 1, 4] →
    ¬ (p = q ∨ (p - 1) % q = 0 ∨ (q - 1) % p = 0) → 4 * s.params.width + 8 ≤ s.env.turn →
    ∃ d noinv, IsModInv (p * p * q) (lambda p q) d noinv ∧
      exec (.keygen rd nbits 0) s = .next ((s.succeeded (encode (.keygen rd nbits 0)) 2
        (keyWrites rd (p * p * q) d (p * q)) false noinv).withSource rest)

/-! ### Frames, waiting and secrecy -/

/-- R22, R24, R203: a command changes an operand register only at successful completion, and only its destinations. -/
def Obligations.OperandsChangeOnlyAtSuccess : Prop :=
  ∀ (i : Instr) (s t : State), (s.busy = true → s.status.done = false) → exec i s = .next t →
    (t.x = s.x ∨ (t.status.done = true ∧ t.seq = .idle)) ∧ ∀ r : RegIdx, r ∉ dests i → t.x[r] = s.x[r]

/-- R25, R34, R48, R49, R120, R151, R202, R203: what no command changes: the parameters, CTRL, the sticky flags, what is still
to arrive; LASTCMD once the command runs; the random source that RNGSRC does not select; both sources, for a command that
takes no random words; and ATTEMPTS, which acceptance clears, for a command that samples no candidates. -/
def Obligations.CommandFrame : Prop :=
  ∀ (i : Instr) (s t : State), exec i s = .next t →
    t.params = s.params ∧ t.ctrl = s.ctrl ∧ t.status.accerr = s.status.accerr ∧ t.status.cmdovr = s.status.cmdovr ∧
    t.status.fovf = s.status.fovf ∧ t.env.inbox = s.env.inbox ∧ t.env.resp = s.env.resp ∧
    t.lastcmd = (if s.busy then s.lastcmd else encode i) ∧
    (∃ taken, s.source = taken ++ t.source) ∧
    (s.ctrl.getLsbD 0 = true → t.env.port = s.env.port) ∧ (s.ctrl.getLsbD 0 = false → t.fifo = s.fifo) ∧
    (randomised i = false → t.fifo = s.fifo ∧ t.env.port = s.env.port) ∧
    (samplesCandidates i = false → t.attempts = if s.busy then s.attempts else 0)


/-- R151, R26: a command that waits for a random word stays as it is, whatever its turn. -/
def Obligations.WaitingCommandStands : Prop :=
  ∀ (i : Instr) (s : State), s.rngWait = true → exec i s = .next (s.withTurn 0)

/-- R28: "`work` is cleared to all zeros whenever the sequencer leaves `Run`: on successful completion, on error
completion, on ABORT and on reset." -/
def Obligations.LeavingRunClearsWork : Prop :=
  ∀ s t : State, step s = .next t → s.busy = true → t.seq = .idle → t.work = Work.zero

/-- R27: "The host cannot read or write any part of `work` through any register." -/
def Obligations.NoRegisterShowsWork : Prop :=
  ∀ (s : State) (w : Work) (r : Target),
    readTarget { s with work := w } r = readTarget s r ∧ ({ s with work := w } : State).irq = s.irq

/-- R27, R188: no access, entropy word or reset sees the work of a running command: two running states that agree on
everything but `work` answer an arrival without an internal step alike (the word a read returns and IRQ are the same), and
again agree on everything but `work`. -/
def Obligations.AccessesDoNotSeeTheWorkOfARunningCommand : Prop :=
  ∀ (s s' t : State) (input : Input), s.busy = true → s.sameButWork s' →
    step (s.withArrival { input := input, turn := 0 }) = .next t →
    ∃ t', step (s'.withArrival { input := input, turn := 0 }) = .next t' ∧ t.sameButWork t' ∧
      t'.env.resp = t.env.resp ∧ t'.irq = t.irq


/-! ### Reset and invariants -/

/-- R53, R230: the reset values, and IRQ = 0. -/
def Obligations.ResetValues : Prop :=
  (∀ i : RegIdx, State.reset.x[i] = 0) ∧ State.reset.ctrl = 0 ∧ State.reset.statusWord = 0 ∧ State.reset.lastcmd = 0 ∧
    State.reset.attempts = 0 ∧ State.reset.fifo = [] ∧ State.reset.seq = .idle ∧ State.reset.work = Work.zero ∧
    State.reset.irq = false

/-- R230, R231: the reset input, at any moment, sets every piece of state to its reset value, so IRQ = 0. That the
parameters, the arrivals still to come and the words presented at the entropy port stay as they are is the model's choice
(DEDUCED, log entry 14). -/
def Obligations.ResetInputRestoresResetValues : Prop :=
  ∀ (s : State) (n : Nat),
    let t := { State.reset with params := s.params, env := { s.env with turn := 0, resp := none } }
    step (s.withArrival { input := .reset, turn := n }) = .next t ∧ t.irq = false

/-- The invariants of the block hold at reset. -/
def Obligations.ResetKeepsTheInvariant : Prop :=
  State.reset.Inv ∧ State.reset.attemptsBounded ∧ State.reset.illegalAtStart

/-- R7, R21, R28, R30, R38, R49, R203: every step keeps the invariant of the block, whatever arrives. -/
def Obligations.EveryStepKeepsTheInvariant : Prop :=
  ∀ s t : State, s.Inv → step s = .next t → t.Inv

/-- R163: "at most `m` candidates are drawn in the whole command": every step keeps the bound. -/
def Obligations.EveryStepKeepsTheAttemptBound : Prop :=
  ∀ s t : State, s.attemptsBounded → step s = .next t → t.attemptsBounded
/-- R204: "In the first sequencer step after acceptance": every step keeps an accepted illegal word at its start, whatever
arrives. -/
def Obligations.EveryStepKeepsIllegalWordsAtStart : Prop :=
  ∀ s t : State, s.illegalAtStart → step s = .next t → t.illegalAtStart


/-! ### The register window -/

/-- R29, R31, R32, R46, R49, R50, R66: an aligned 32-bit read of each mapped offset returns the register's word and has no
side effect. -/
def Obligations.MappedReads : Prop :=
  ∀ s : State,
    let read := fun off w => step (s.withArrival (arrive (memRead s.params off) 0)) =
      .next { s.begun 0 with env := { (s.begun 0).env with resp := some w } }
    read 0x000 0x53530100 ∧ read 0x004 (cfgWord s.params) ∧ read 0x008 s.ctrl ∧ read 0x00C s.statusWord ∧
      read 0x010 0 ∧ read 0x014 s.lastcmd ∧ read 0x018 s.attempts ∧ read 0x01C 0 ∧
      read 0x020 (BitVec.ofNat 32 (s.fifo.length % 2 ^ 16)) ∧ read 0x024 0 ∧
      (s.params.width ≤ 4096 → ∀ (i : RegIdx) (j : Nat), j < s.params.width / 32 →
        read (0x1000 + 0x200 * i.val + 4 * j) (BitVec.ofNat 32 (s.x[i] / 2 ^ (32 * j))))
/-- R35, R36, R41, R201: a read of STATUS, bit by bit. BUSY is 1 exactly while the sequencer is in Run; RNGWAIT is 1 exactly
while it stands at a draw and the source that RNGSRC selects has no word (DEDUCED, log entry 7); reserved bits read 0; ECODE
is the number of the error. -/
def Obligations.StatusReadShowsEachFlag : Prop :=
  ∀ s : State, ∃ w : Word,
    step (s.withArrival (arrive (memRead s.params 0x00C) 0)) =
      .next { s.begun 0 with env := { (s.begun 0).env with resp := some w } } ∧
    (w.getLsbD 0 = true ↔ s.seq ≠ .idle) ∧ w.getLsbD 1 = s.status.done ∧ w.getLsbD 2 = s.status.err ∧
    w.getLsbD 3 = s.status.result ∧ w.getLsbD 4 = s.status.noinv ∧
    (w.getLsbD 5 = true ↔ (s.seq = .run .witness ∨ s.seq = .run .candidate) ∧
      (if s.ctrl.getLsbD 0 then s.fifo else s.env.port) = []) ∧
    w.getLsbD 6 = s.status.accerr ∧ w.getLsbD 7 = s.status.cmdovr ∧ w.getLsbD 8 = s.status.fovf ∧
    w.extractLsb' 9 7 = 0 ∧ w.extractLsb' 24 8 = 0 ∧
    w.extractLsb' 16 8 = match s.status.ecode with
      | none => 0x00
      | some .eill => 0x01
      | some .edom => 0x02
      | some .erange => 0x03
      | some .earg => 0x04
      | some .ekeyrel => 0x05
      | some .etimeout => 0x06
      | some .eabort => 0x07
      | some .enorng => 0x08

/-- R32: a read of CFG, field by field, for legal parameters. -/
def Obligations.CfgReadShowsTheParameters : Prop :=
  ∀ s : State, s.params.legal = true → ∃ w : Word,
    step (s.withArrival (arrive (memRead s.params 0x004) 0)) =
      .next { s.begun 0 with env := { (s.begun 0).env with resp := some w } } ∧
    (w.extractLsb' 0 16).toNat = s.params.width ∧ (w.extractLsb' 16 8).toNat = s.params.fifoDepth ∧
    w.getLsbD 24 = s.params.extRng ∧ w.extractLsb' 25 7 = 0


/-- R63: the words of a register, least significant first, are its value. -/
def Obligations.WordsMakeTheValue : Prop :=
  ∀ (p : Params) (v : Nat), p.width % 32 = 0 → v < 2 ^ p.width → assemble (wordsOf p v) = v

/-- R67: a host write of word `j` of `Xi` sets that word and leaves every other bit while BUSY = 0, and is dropped with
ACCERR while BUSY = 1. -/
def Obligations.OperandWrite : Prop :=
  ∀ (s : State) (i : RegIdx) (j : Nat) (v : Word), s.params.width ≤ 4096 → j < s.params.width / 32 →
    (s.busy = false → ∃ u, step (s.withArrival (arrive (memWrite s.params (0x1000 + 0x200 * i.val + 4 * j) v) 0)) =
        .next { s.begun 0 with x := s.x.set i u } ∧
      (∀ j', wordOf u j' = if j' = j then v else wordOf s.x[i] j') ∧
      (s.params.width % 32 = 0 → s.x[i] < 2 ^ s.params.width → u < 2 ^ s.params.width)) ∧
    (s.busy = true → step (s.withArrival (arrive (memWrite s.params (0x1000 + 0x200 * i.val + 4 * j) v) 0)) =
        .next { s.begun 0 with status := { s.status with accerr := true } })

/-- R64, R68: an access that is not 32 bits wide, or not at a multiple of 4, or at an unmapped offset, changes nothing but
ACCERR; a read returns 0. -/
def Obligations.UnservedAccesses : Prop :=
  ∀ (s : State) (size : AccessSize) (off : Nat) (v : Word), off < 0x2000 →
    (size ≠ .b32 ∨ off % 4 ≠ 0 ∨ (0x028 ≤ off ∧ off < 0x1000) ∨
      (0x1000 ≤ off ∧ s.params.width / 32 ≤ off % 0x200 / 4)) →
    step (s.withArrival (arrive (.write (s.params.base + off) size v) 0)) =
      .next { s.begun 0 with status := { s.status with accerr := true } } ∧
    step (s.withArrival (arrive (.read (s.params.base + off) size) 0)) =
      .next { s.begun 0 with
        status := { s.status with accerr := true }
        env := { (s.begun 0).env with resp := some 0 } }

/-- R30, R31, R32, R47, R48, R50: a write to a read-only register changes nothing. -/
def Obligations.ReadOnlyWritesAreIgnored : Prop :=
  ∀ (s : State) (off : Nat) (v : Word), off ∈ [0x000, 0x004, 0x014, 0x018, 0x020] →
    step (s.withArrival (arrive (memWrite s.params off v) 0)) = .next (s.begun 0)

/-- R33, R34: a CTRL write updates RNGSRC, IE and MAXTRY while BUSY = 0, the reserved bits staying 0; while BUSY = 1 it is
dropped with ACCERR, and no command changes CTRL, so a running command sees one random source and one MAXTRY. -/
def Obligations.CtrlWrite : Prop :=
  ∀ (s : State) (v : Word),
    (s.busy = false → ∃ c : Word, step (s.withArrival (arrive (memWrite s.params 0x008 v) 0)) =
        .next { s.begun 0 with ctrl := c } ∧
      ∀ b < 32, c.getLsbD b = (v.getLsbD b && (decide (b ≤ 1) || decide (16 ≤ b)))) ∧
    (s.busy = true → step (s.withArrival (arrive (memWrite s.params 0x008 v) 0)) =
        .next { s.begun 0 with status := { s.status with accerr := true } }) ∧
    ∀ (i : Instr) (t : State), exec i s = .next t → t.ctrl = s.ctrl

/-- R45: a STATUS write clears each W1C bit whose position holds 1 in the written word and ignores every other bit, whether
or not BUSY = 1: the word STATUS reads loses exactly those bits. -/
def Obligations.StatusWrite : Prop :=
  ∀ (s : State) (v : Word), ∃ st : Status,
    step (s.withArrival (arrive (memWrite s.params 0x00C v) 0)) = .next { s.begun 0 with status := st } ∧
    ({ s with status := st } : State).statusWord = s.statusWord &&& ~~~(v &&& 0x000001C6)

/-- R44, R49: an RNG_DATA write appends the word while the FIFO holds fewer than `F`, and else sets FOVF and discards it,
whether or not BUSY = 1. -/
def Obligations.RngDataWrite : Prop :=
  ∀ (s : State) (v : Word), step (s.withArrival (arrive (memWrite s.params 0x01C v) 0)) =
    if s.fifo.length < s.params.fifoDepth then .next { s.begun 0 with fifo := s.fifo ++ [v] }
    else .next { s.begun 0 with status := { s.status with fovf := true } }

/-- R51, R207: an ABORT write with bit 0 ends a running command with EABORT at once, whatever it was doing, and has no
effect while BUSY = 0; with bit 1 it empties the FIFO at any time; with both it does both. -/
def Obligations.AbortWrite : Prop :=
  ∀ (s : State) (v : Word) (n : Nat), (s.busy = false ∨ v.getLsbD 0 = true) →
    step (s.withArrival (arrive (memWrite s.params 0x024 v) n)) = .next
      (let fifo := if v.getLsbD 1 then [] else s.fifo
       if s.busy then
         { s.begun 0 with
           fifo := fifo
           status := { s.status with err := true, ecode := some .eabort }
           seq := .idle
           work := Work.zero }
       else { s.begun 0 with fifo := fifo })

/-- R51: FLUSH while a command runs empties the FIFO and lets the command run on. -/
def Obligations.FlushWhileRunning : Prop :=
  ∀ (s : State) (v : Word), s.busy = true → v.getLsbD 0 = false →
    step (s.withArrival (arrive (memWrite s.params 0x024 v) 0)) =
      .next { s.begun 0 with fifo := if v.getLsbD 1 then [] else s.fifo }

/-- R71: writes to CTRL, STATUS, ABORT and operand words are idempotent: the same write twice equals it once. -/
def Obligations.IdempotentWrites : Prop :=
  ∀ (s : State) (r : Target) (v : Word),
    (r = .ctrl ∨ r = .status ∨ r = .abort ∨ ∃ i j, r = .operand i j) →
    writeTarget v (writeTarget v s r) r = writeTarget v s r

/-- R214, R151: the next word of the platform stands last at the entropy port, where the port is connected, whether or not
ready is asserted: the words not yet taken are the model's own list (DESIGN CHOICE, log entry 4). -/
def Obligations.EntropyWordArrives : Prop :=
  ∀ (s : State) (w : Word), step (s.withArrival { input := .entropy w, turn := 0 }) =
    .next { s.begun 0 with
      env := { (s.begun 0).env with port := if s.params.extRng then s.env.port ++ [w] else s.env.port } }

/-- R214, R151: the handshake of the entropy port. Ready is asserted exactly while the port exists and the sequencer stands
at a draw with CTRL.RNGSRC = 0. In an internal step in which ready is asserted, a randomised command that stands at its draw
waits with RNGWAIT = 1 while no word is valid (log entry 7), and else takes exactly the word presented, so that the next one
follows it; in an internal step in which ready is not asserted no word is taken. The internal steps are the model's (DESIGN
CHOICE, log entry 5), and that a word which is not taken stays presented is its choice too (log entry 4). -/
def Obligations.EntropyPortHandshake : Prop :=
  ∀ (i : Instr) (s : State),
    (s.portReady = true ↔
      s.params.extRng = true ∧ s.ctrl.getLsbD 0 = false ∧ (s.seq = .run .witness ∨ s.seq = .run .candidate)) ∧
    (s.portValid = true ↔ s.params.extRng = true ∧ s.env.port ≠ []) ∧
    (s.portReady = true → s.portValid = false → s.rngWait = true ∧ exec i (s.withTurn 1) = .next (s.withTurn 0)) ∧
    (s.portReady = true → (s.seq = .run .witness → randomised i = true) →
      (s.seq = .run .candidate → samplesCandidates i = true) → ∀ w rest, s.env.port = w :: rest →
      s.rngWait = false ∧ ∃ t, exec i (s.withTurn 1) = .next t ∧ t.env.port = rest) ∧
    (s.params.extRng = true → s.portReady = false →
      ∃ t, exec i (s.withTurn 1) = .next t ∧ t.env.port = s.env.port)

/-- R210, R211: IRQ is CTRL.IE and (DONE or ERR): from a state with the invariant, after a turn of any command IRQ is 1
exactly when IE = 1 and the command has ended, so with IE = 0 it is 0; a W1C write of both bits lowers it; ACCERR, CMDOVR and
FOVF do not drive it. -/
def Obligations.InterruptFollowsCompletion : Prop :=
  ∀ (i : Instr) (s t : State), s.Inv → exec i s = .next t →
    t.irq = (s.ctrl.getLsbD 1 && !t.busy) ∧ (s.ctrl.getLsbD 1 = false → t.irq = false) ∧
    ({ t with status := t.status.writeOneToClear 0x00000006 } : State).irq = false ∧
    ∀ accerr cmdovr fovf : Bool,
      ({ t with status := { t.status with accerr := accerr, cmdovr := cmdovr, fovf := fovf } } : State).irq = t.irq
end

