-- ==== Sys2Proof/Laws/State.lean ====
section
/-! SUPPORT. One lemma per field per update of the state, each true by `rfl`. -/

namespace Sys2Proof.Machine

/-! ### goto: the sequencer's move to a point -/

@[simp] theorem goto_params (ph : Phase) (w : Work) (s : State) : (s.goto ph w).params = s.params := rfl
@[simp] theorem goto_x (ph : Phase) (w : Work) (s : State) : (s.goto ph w).x = s.x := rfl
@[simp] theorem goto_ctrl (ph : Phase) (w : Work) (s : State) : (s.goto ph w).ctrl = s.ctrl := rfl
@[simp] theorem goto_status (ph : Phase) (w : Work) (s : State) : (s.goto ph w).status = s.status := rfl
@[simp] theorem goto_lastcmd (ph : Phase) (w : Work) (s : State) : (s.goto ph w).lastcmd = s.lastcmd := rfl
@[simp] theorem goto_attempts (ph : Phase) (w : Work) (s : State) : (s.goto ph w).attempts = s.attempts := rfl
@[simp] theorem goto_fifo (ph : Phase) (w : Work) (s : State) : (s.goto ph w).fifo = s.fifo := rfl
@[simp] theorem goto_seq (ph : Phase) (w : Work) (s : State) : (s.goto ph w).seq = .run ph := rfl
@[simp] theorem goto_work (ph : Phase) (w : Work) (s : State) : (s.goto ph w).work = w := rfl
@[simp] theorem goto_env (ph : Phase) (w : Work) (s : State) : (s.goto ph w).env = s.env := rfl

/-! ### accept: acceptance (R25) -/

@[simp] theorem accept_params (w : Word) (s : State) : (accept w s).params = s.params := rfl
@[simp] theorem accept_x (w : Word) (s : State) : (accept w s).x = s.x := rfl
@[simp] theorem accept_ctrl (w : Word) (s : State) : (accept w s).ctrl = s.ctrl := rfl
@[simp] theorem accept_status (w : Word) (s : State) : (accept w s).status = s.status.accepted := rfl
@[simp] theorem accept_lastcmd (w : Word) (s : State) : (accept w s).lastcmd = w := rfl
@[simp] theorem accept_attempts (w : Word) (s : State) : (accept w s).attempts = 0 := rfl
@[simp] theorem accept_fifo (w : Word) (s : State) : (accept w s).fifo = s.fifo := rfl
@[simp] theorem accept_seq (w : Word) (s : State) : (accept w s).seq = .run .start := rfl
@[simp] theorem accept_work (w : Word) (s : State) : (accept w s).work = snapshot s.x w := rfl
@[simp] theorem accept_env (w : Word) (s : State) : (accept w s).env = s.env := rfl

/-! ### complete: successful completion (R202) -/

@[simp] theorem complete_params (ws : List (RegIdx × Nat)) (res noinv : Bool) (s : State) : (complete ws res noinv s).params = s.params := rfl
@[simp] theorem complete_x (ws : List (RegIdx × Nat)) (res noinv : Bool) (s : State) : (complete ws res noinv s).x = writeAll s.x ws := rfl
@[simp] theorem complete_ctrl (ws : List (RegIdx × Nat)) (res noinv : Bool) (s : State) : (complete ws res noinv s).ctrl = s.ctrl := rfl
@[simp] theorem complete_status (ws : List (RegIdx × Nat)) (res noinv : Bool) (s : State) : (complete ws res noinv s).status = { s.status with done := true, result := res, noinv := noinv } := rfl
@[simp] theorem complete_lastcmd (ws : List (RegIdx × Nat)) (res noinv : Bool) (s : State) : (complete ws res noinv s).lastcmd = s.lastcmd := rfl
@[simp] theorem complete_attempts (ws : List (RegIdx × Nat)) (res noinv : Bool) (s : State) : (complete ws res noinv s).attempts = s.attempts := rfl
@[simp] theorem complete_fifo (ws : List (RegIdx × Nat)) (res noinv : Bool) (s : State) : (complete ws res noinv s).fifo = s.fifo := rfl
@[simp] theorem complete_seq (ws : List (RegIdx × Nat)) (res noinv : Bool) (s : State) : (complete ws res noinv s).seq = .idle := rfl
@[simp] theorem complete_work (ws : List (RegIdx × Nat)) (res noinv : Bool) (s : State) : (complete ws res noinv s).work = Work.zero := rfl
@[simp] theorem complete_env (ws : List (RegIdx × Nat)) (res noinv : Bool) (s : State) : (complete ws res noinv s).env = s.env := rfl

/-! ### raise: error completion (R203) -/

@[simp] theorem raise_params (e : ErrCode) (s : State) : (raise e s).params = s.params := rfl
@[simp] theorem raise_x (e : ErrCode) (s : State) : (raise e s).x = s.x := rfl
@[simp] theorem raise_ctrl (e : ErrCode) (s : State) : (raise e s).ctrl = s.ctrl := rfl
@[simp] theorem raise_status (e : ErrCode) (s : State) : (raise e s).status = { s.status with err := true, ecode := some e } := rfl
@[simp] theorem raise_lastcmd (e : ErrCode) (s : State) : (raise e s).lastcmd = s.lastcmd := rfl
@[simp] theorem raise_attempts (e : ErrCode) (s : State) : (raise e s).attempts = s.attempts := rfl
@[simp] theorem raise_fifo (e : ErrCode) (s : State) : (raise e s).fifo = s.fifo := rfl
@[simp] theorem raise_seq (e : ErrCode) (s : State) : (raise e s).seq = .idle := rfl
@[simp] theorem raise_work (e : ErrCode) (s : State) : (raise e s).work = Work.zero := rfl
@[simp] theorem raise_env (e : ErrCode) (s : State) : (raise e s).env = s.env := rfl

/-! ### accessError: a dropped or malformed access (R42) -/

@[simp] theorem accessError_params (s : State) : (accessError s).params = s.params := rfl
@[simp] theorem accessError_x (s : State) : (accessError s).x = s.x := rfl
@[simp] theorem accessError_ctrl (s : State) : (accessError s).ctrl = s.ctrl := rfl
@[simp] theorem accessError_status (s : State) : (accessError s).status = { s.status with accerr := true } := rfl
@[simp] theorem accessError_lastcmd (s : State) : (accessError s).lastcmd = s.lastcmd := rfl
@[simp] theorem accessError_attempts (s : State) : (accessError s).attempts = s.attempts := rfl
@[simp] theorem accessError_fifo (s : State) : (accessError s).fifo = s.fifo := rfl
@[simp] theorem accessError_seq (s : State) : (accessError s).seq = s.seq := rfl
@[simp] theorem accessError_work (s : State) : (accessError s).work = s.work := rfl
@[simp] theorem accessError_env (s : State) : (accessError s).env = s.env := rfl

/-! ### respond: the answer of a read -/

@[simp] theorem respond_params (w : Word) (s : State) : (respond w s).params = s.params := rfl
@[simp] theorem respond_x (w : Word) (s : State) : (respond w s).x = s.x := rfl
@[simp] theorem respond_ctrl (w : Word) (s : State) : (respond w s).ctrl = s.ctrl := rfl
@[simp] theorem respond_status (w : Word) (s : State) : (respond w s).status = s.status := rfl
@[simp] theorem respond_lastcmd (w : Word) (s : State) : (respond w s).lastcmd = s.lastcmd := rfl
@[simp] theorem respond_attempts (w : Word) (s : State) : (respond w s).attempts = s.attempts := rfl
@[simp] theorem respond_fifo (w : Word) (s : State) : (respond w s).fifo = s.fifo := rfl
@[simp] theorem respond_seq (w : Word) (s : State) : (respond w s).seq = s.seq := rfl
@[simp] theorem respond_work (w : Word) (s : State) : (respond w s).work = s.work := rfl
@[simp] theorem respond_env (w : Word) (s : State) : (respond w s).env = { s.env with resp := some w } := rfl

/-! ### flushFifo: FLUSH (R51) -/

@[simp] theorem flushFifo_params (s : State) : (flushFifo s).params = s.params := rfl
@[simp] theorem flushFifo_x (s : State) : (flushFifo s).x = s.x := rfl
@[simp] theorem flushFifo_ctrl (s : State) : (flushFifo s).ctrl = s.ctrl := rfl
@[simp] theorem flushFifo_status (s : State) : (flushFifo s).status = s.status := rfl
@[simp] theorem flushFifo_lastcmd (s : State) : (flushFifo s).lastcmd = s.lastcmd := rfl
@[simp] theorem flushFifo_attempts (s : State) : (flushFifo s).attempts = s.attempts := rfl
@[simp] theorem flushFifo_fifo (s : State) : (flushFifo s).fifo = [] := rfl
@[simp] theorem flushFifo_seq (s : State) : (flushFifo s).seq = s.seq := rfl
@[simp] theorem flushFifo_work (s : State) : (flushFifo s).work = s.work := rfl
@[simp] theorem flushFifo_env (s : State) : (flushFifo s).env = s.env := rfl

/-! ### spendTurn: the end of a turn -/

@[simp] theorem spendTurn_params (s : State) : (spendTurn s).params = s.params := rfl
@[simp] theorem spendTurn_x (s : State) : (spendTurn s).x = s.x := rfl
@[simp] theorem spendTurn_ctrl (s : State) : (spendTurn s).ctrl = s.ctrl := rfl
@[simp] theorem spendTurn_status (s : State) : (spendTurn s).status = s.status := rfl
@[simp] theorem spendTurn_lastcmd (s : State) : (spendTurn s).lastcmd = s.lastcmd := rfl
@[simp] theorem spendTurn_attempts (s : State) : (spendTurn s).attempts = s.attempts := rfl
@[simp] theorem spendTurn_fifo (s : State) : (spendTurn s).fifo = s.fifo := rfl
@[simp] theorem spendTurn_seq (s : State) : (spendTurn s).seq = s.seq := rfl
@[simp] theorem spendTurn_work (s : State) : (spendTurn s).work = s.work := rfl
@[simp] theorem spendTurn_env (s : State) : (spendTurn s).env = { s.env with turn := 0 } := rfl

/-! ### withTurn: a turn given -/

@[simp] theorem withTurn_params (s : State) (n : Nat) : (s.withTurn n).params = s.params := rfl
@[simp] theorem withTurn_x (s : State) (n : Nat) : (s.withTurn n).x = s.x := rfl
@[simp] theorem withTurn_ctrl (s : State) (n : Nat) : (s.withTurn n).ctrl = s.ctrl := rfl
@[simp] theorem withTurn_status (s : State) (n : Nat) : (s.withTurn n).status = s.status := rfl
@[simp] theorem withTurn_lastcmd (s : State) (n : Nat) : (s.withTurn n).lastcmd = s.lastcmd := rfl
@[simp] theorem withTurn_attempts (s : State) (n : Nat) : (s.withTurn n).attempts = s.attempts := rfl
@[simp] theorem withTurn_fifo (s : State) (n : Nat) : (s.withTurn n).fifo = s.fifo := rfl
@[simp] theorem withTurn_seq (s : State) (n : Nat) : (s.withTurn n).seq = s.seq := rfl
@[simp] theorem withTurn_work (s : State) (n : Nat) : (s.withTurn n).work = s.work := rfl
@[simp] theorem withTurn_env (s : State) (n : Nat) : (s.withTurn n).env = { s.env with turn := n } := rfl

/-! ### beginStep: the arrival taken from the inbox -/

@[simp] theorem beginStep_params (s : State) : (s.beginStep).params = s.params := rfl
@[simp] theorem beginStep_x (s : State) : (s.beginStep).x = s.x := rfl
@[simp] theorem beginStep_ctrl (s : State) : (s.beginStep).ctrl = s.ctrl := rfl
@[simp] theorem beginStep_status (s : State) : (s.beginStep).status = s.status := rfl
@[simp] theorem beginStep_lastcmd (s : State) : (s.beginStep).lastcmd = s.lastcmd := rfl
@[simp] theorem beginStep_attempts (s : State) : (s.beginStep).attempts = s.attempts := rfl
@[simp] theorem beginStep_fifo (s : State) : (s.beginStep).fifo = s.fifo := rfl
@[simp] theorem beginStep_seq (s : State) : (s.beginStep).seq = s.seq := rfl
@[simp] theorem beginStep_work (s : State) : (s.beginStep).work = s.work := rfl
@[simp] theorem beginStep_env (s : State) : (s.beginStep).env = { s.env with inbox := s.env.inbox.tail, turn := s.nextArrival.turn, resp := none } := rfl

/-! ### resetOf: reset (R53) -/

@[simp] theorem resetOf_params (p : Params) (e : Env) : (State.resetOf p e).params = p := rfl
@[simp] theorem resetOf_x (p : Params) (e : Env) : (State.resetOf p e).x = Vector.replicate 8 0 := rfl
@[simp] theorem resetOf_ctrl (p : Params) (e : Env) : (State.resetOf p e).ctrl = 0 := rfl
@[simp] theorem resetOf_status (p : Params) (e : Env) : (State.resetOf p e).status = Status.zero := rfl
@[simp] theorem resetOf_lastcmd (p : Params) (e : Env) : (State.resetOf p e).lastcmd = 0 := rfl
@[simp] theorem resetOf_attempts (p : Params) (e : Env) : (State.resetOf p e).attempts = 0 := rfl
@[simp] theorem resetOf_fifo (p : Params) (e : Env) : (State.resetOf p e).fifo = [] := rfl
@[simp] theorem resetOf_seq (p : Params) (e : Env) : (State.resetOf p e).seq = .idle := rfl
@[simp] theorem resetOf_work (p : Params) (e : Env) : (State.resetOf p e).work = Work.zero := rfl
@[simp] theorem resetOf_env (p : Params) (e : Env) : (State.resetOf p e).env = e := rfl

/-! ### The views of CTRL and of the sequencer -/

@[simp] theorem goto_rngSrc (ph : Phase) (w : Work) (s : State) : (s.goto ph w).rngSrc = s.rngSrc := rfl
@[simp] theorem goto_maxTry (ph : Phase) (w : Work) (s : State) : (s.goto ph w).maxTry = s.maxTry := rfl
@[simp] theorem goto_ie (ph : Phase) (w : Work) (s : State) : (s.goto ph w).ie = s.ie := rfl
@[simp] theorem goto_noRandomSource (ph : Phase) (w : Work) (s : State) : (s.goto ph w).noRandomSource = s.noRandomSource := rfl
@[simp] theorem goto_busy (ph : Phase) (w : Work) (s : State) : (s.goto ph w).busy = true := rfl
@[simp] theorem goto_source (ph : Phase) (w : Work) (s : State) : (s.goto ph w).source = s.source := rfl

@[simp] theorem accept_rngSrc (w : Word) (s : State) : (accept w s).rngSrc = s.rngSrc := rfl
@[simp] theorem accept_maxTry (w : Word) (s : State) : (accept w s).maxTry = s.maxTry := rfl
@[simp] theorem accept_ie (w : Word) (s : State) : (accept w s).ie = s.ie := rfl
@[simp] theorem accept_noRandomSource (w : Word) (s : State) : (accept w s).noRandomSource = s.noRandomSource := rfl
@[simp] theorem accept_busy (w : Word) (s : State) : (accept w s).busy = true := rfl
@[simp] theorem accept_source (w : Word) (s : State) : (accept w s).source = s.source := rfl

@[simp] theorem complete_rngSrc (ws : List (RegIdx × Nat)) (res noinv : Bool) (s : State) : (complete ws res noinv s).rngSrc = s.rngSrc := rfl
@[simp] theorem complete_maxTry (ws : List (RegIdx × Nat)) (res noinv : Bool) (s : State) : (complete ws res noinv s).maxTry = s.maxTry := rfl
@[simp] theorem complete_ie (ws : List (RegIdx × Nat)) (res noinv : Bool) (s : State) : (complete ws res noinv s).ie = s.ie := rfl
@[simp] theorem complete_noRandomSource (ws : List (RegIdx × Nat)) (res noinv : Bool) (s : State) : (complete ws res noinv s).noRandomSource = s.noRandomSource := rfl
@[simp] theorem complete_busy (ws : List (RegIdx × Nat)) (res noinv : Bool) (s : State) : (complete ws res noinv s).busy = false := rfl
@[simp] theorem complete_source (ws : List (RegIdx × Nat)) (res noinv : Bool) (s : State) : (complete ws res noinv s).source = s.source := rfl

@[simp] theorem raise_rngSrc (e : ErrCode) (s : State) : (raise e s).rngSrc = s.rngSrc := rfl
@[simp] theorem raise_maxTry (e : ErrCode) (s : State) : (raise e s).maxTry = s.maxTry := rfl
@[simp] theorem raise_ie (e : ErrCode) (s : State) : (raise e s).ie = s.ie := rfl
@[simp] theorem raise_noRandomSource (e : ErrCode) (s : State) : (raise e s).noRandomSource = s.noRandomSource := rfl
@[simp] theorem raise_busy (e : ErrCode) (s : State) : (raise e s).busy = false := rfl
@[simp] theorem raise_source (e : ErrCode) (s : State) : (raise e s).source = s.source := rfl

@[simp] theorem accessError_rngSrc (s : State) : (accessError s).rngSrc = s.rngSrc := rfl
@[simp] theorem accessError_maxTry (s : State) : (accessError s).maxTry = s.maxTry := rfl
@[simp] theorem accessError_ie (s : State) : (accessError s).ie = s.ie := rfl
@[simp] theorem accessError_noRandomSource (s : State) : (accessError s).noRandomSource = s.noRandomSource := rfl
@[simp] theorem accessError_busy (s : State) : (accessError s).busy = s.busy := rfl
@[simp] theorem accessError_source (s : State) : (accessError s).source = s.source := rfl

@[simp] theorem respond_rngSrc (w : Word) (s : State) : (respond w s).rngSrc = s.rngSrc := rfl
@[simp] theorem respond_maxTry (w : Word) (s : State) : (respond w s).maxTry = s.maxTry := rfl
@[simp] theorem respond_ie (w : Word) (s : State) : (respond w s).ie = s.ie := rfl
@[simp] theorem respond_noRandomSource (w : Word) (s : State) : (respond w s).noRandomSource = s.noRandomSource := rfl
@[simp] theorem respond_busy (w : Word) (s : State) : (respond w s).busy = s.busy := rfl
@[simp] theorem respond_source (w : Word) (s : State) : (respond w s).source = s.source := rfl

@[simp] theorem flushFifo_rngSrc (s : State) : (flushFifo s).rngSrc = s.rngSrc := rfl
@[simp] theorem flushFifo_maxTry (s : State) : (flushFifo s).maxTry = s.maxTry := rfl
@[simp] theorem flushFifo_ie (s : State) : (flushFifo s).ie = s.ie := rfl
@[simp] theorem flushFifo_noRandomSource (s : State) : (flushFifo s).noRandomSource = s.noRandomSource := rfl
@[simp] theorem flushFifo_busy (s : State) : (flushFifo s).busy = s.busy := rfl

@[simp] theorem spendTurn_rngSrc (s : State) : (spendTurn s).rngSrc = s.rngSrc := rfl
@[simp] theorem spendTurn_maxTry (s : State) : (spendTurn s).maxTry = s.maxTry := rfl
@[simp] theorem spendTurn_ie (s : State) : (spendTurn s).ie = s.ie := rfl
@[simp] theorem spendTurn_noRandomSource (s : State) : (spendTurn s).noRandomSource = s.noRandomSource := rfl
@[simp] theorem spendTurn_busy (s : State) : (spendTurn s).busy = s.busy := rfl
@[simp] theorem spendTurn_source (s : State) : (spendTurn s).source = s.source := rfl

@[simp] theorem withTurn_rngSrc (s : State) (n : Nat) : (s.withTurn n).rngSrc = s.rngSrc := rfl
@[simp] theorem withTurn_maxTry (s : State) (n : Nat) : (s.withTurn n).maxTry = s.maxTry := rfl
@[simp] theorem withTurn_ie (s : State) (n : Nat) : (s.withTurn n).ie = s.ie := rfl
@[simp] theorem withTurn_noRandomSource (s : State) (n : Nat) : (s.withTurn n).noRandomSource = s.noRandomSource := rfl
@[simp] theorem withTurn_busy (s : State) (n : Nat) : (s.withTurn n).busy = s.busy := rfl
@[simp] theorem withTurn_source (s : State) (n : Nat) : (s.withTurn n).source = s.source := rfl
@[simp] theorem withTurn_rngWait (s : State) (n : Nat) : (s.withTurn n).rngWait = s.rngWait := rfl
@[simp] theorem withTurn_portReady (s : State) (n : Nat) : (s.withTurn n).portReady = s.portReady := rfl
@[simp] theorem withTurn_portValid (s : State) (n : Nat) : (s.withTurn n).portValid = s.portValid := rfl

@[simp] theorem spendTurn_rngWait (s : State) : (spendTurn s).rngWait = s.rngWait := rfl
@[simp] theorem spendTurn_portReady (s : State) : (spendTurn s).portReady = s.portReady := rfl
@[simp] theorem spendTurn_portValid (s : State) : (spendTurn s).portValid = s.portValid := rfl

@[simp] theorem beginStep_rngSrc (s : State) : (s.beginStep).rngSrc = s.rngSrc := rfl
@[simp] theorem beginStep_maxTry (s : State) : (s.beginStep).maxTry = s.maxTry := rfl
@[simp] theorem beginStep_ie (s : State) : (s.beginStep).ie = s.ie := rfl
@[simp] theorem beginStep_noRandomSource (s : State) : (s.beginStep).noRandomSource = s.noRandomSource := rfl
@[simp] theorem beginStep_busy (s : State) : (s.beginStep).busy = s.busy := rfl
@[simp] theorem beginStep_source (s : State) : (s.beginStep).source = s.source := rfl

end Sys2Proof.Machine
end

