-- ==== Sys2Proof/Laws/Turn.lean ====
section
/-! SUPPORT. What a turn of the sequencer does: it stops at Idle and at a wait, it splits into turns, and it keeps what every
internal step keeps. -/

namespace Sys2Proof.Machine

theorem busy_iff (s : State) : s.busy = true ↔ ∃ ph, s.seq = .run ph := by
  unfold State.busy; cases s.seq <;> simp

theorem not_busy_iff (s : State) : s.busy = false ↔ s.seq = .idle := by
  unfold State.busy; cases s.seq <;> simp

theorem busy_of_run {s : State} {ph : Phase} (h : s.seq = .run ph) : s.busy = true :=
  (busy_iff s).2 ⟨ph, h⟩

theorem rngWait_of_run {s : State} {ph : Phase} (h : s.seq = .run ph) :
    s.rngWait = (ph.draws && s.source.isEmpty) := by
  simp [State.rngWait, State.needsWord, h]

theorem needsWord_of_run {s : State} {ph : Phase} (h : s.seq = .run ph) : s.needsWord = ph.draws := by
  simp [State.needsWord, h]

theorem needsWord_of_idle {s : State} (h : s.seq = .idle) : s.needsWord = false := by simp [State.needsWord, h]

theorem rngWait_of_idle {s : State} (h : s.seq = .idle) : s.rngWait = false := by
  simp [State.rngWait, needsWord_of_idle h]

theorem portReady_of_idle {s : State} (h : s.seq = .idle) : s.portReady = false := by
  simp [State.portReady, needsWord_of_idle h]

theorem rngWait_of_not_draws {s : State} {ph : Phase} (h : s.seq = .run ph) (hd : ph.draws = false) :
    s.rngWait = false := by
  simp [rngWait_of_run h, hd]

theorem rngWait_of_source {s : State} {w : Word} {ws : List Word} (h : s.source = w :: ws) : s.rngWait = false := by
  simp [State.rngWait, h]

theorem runTurn_stopped (f : Phase → State → State) (n : Nat) (s : State) (h : (s.busy && !s.rngWait) = false) :
    runTurn f n s = s := by
  cases n <;> simp [runTurn, h]

theorem runTurn_idle (f : Phase → State → State) (n : Nat) {s : State} (h : s.seq = .idle) : runTurn f n s = s :=
  runTurn_stopped f n s (by simp [(not_busy_iff s).2 h])

theorem runTurn_waiting (f : Phase → State → State) (n : Nat) {s : State} (h : s.rngWait = true) :
    runTurn f n s = s :=
  runTurn_stopped f n s (by simp [h])

theorem runTurn_succ (f : Phase → State → State) (n : Nat) {s : State} {ph : Phase} (h : s.seq = .run ph)
    (hw : s.rngWait = false) : runTurn f (n + 1) s = runTurn f n (f ph s) := by
  simp [runTurn, busy_of_run h, hw, seqStep, h]

/-- A turn of `m + n` internal steps is a turn of `m` and then a turn of `n` (R70). -/
theorem runTurn_add (f : Phase → State → State) (m n : Nat) (s : State) :
    runTurn f (m + n) s = runTurn f n (runTurn f m s) := by
  induction m generalizing s with
  | zero => simp [runTurn]
  | succ m ih =>
    rw [Nat.succ_add]
    by_cases h : (s.busy && !s.rngWait) = true
    · simp only [runTurn, h, if_true]; exact ih _
    · have h' : (s.busy && !s.rngWait) = false := by simpa using h
      rw [runTurn_stopped f _ s h', runTurn_stopped f _ s h', runTurn_stopped f _ s h']

/-- What every internal step keeps, a turn keeps. -/
theorem runTurn_keeps (f : Phase → State → State) (P : State → Prop)
    (hf : ∀ ph s, P s → s.seq = .run ph → P (f ph s)) (n : Nat) (s : State) (h : P s) : P (runTurn f n s) := by
  induction n generalizing s with
  | zero => exact h
  | succ n ih =>
    by_cases hb : (s.busy && !s.rngWait) = true
    · obtain ⟨ph, hph⟩ := (busy_iff s).1 (by simp at hb; exact hb.1)
      have hw : s.rngWait = false := by simp at hb; exact hb.2
      rw [runTurn_succ f n hph hw]; exact ih _ (hf ph s h hph)
    · rw [runTurn_stopped f _ s (by simpa using hb)]; exact h

/-- `Reaches f j s t`: `j` internal steps lead from `s` to `t`, whatever turn is left. -/
def Reaches (f : Phase → State → State) (j : Nat) (s t : State) : Prop :=
  ∀ n, runTurn f (n + j) s = runTurn f n t

theorem Reaches.refl (f : Phase → State → State) (s : State) : Reaches f 0 s s := fun _ => rfl

theorem Reaches.trans {f : Phase → State → State} {i j : Nat} {s t u : State} (h : Reaches f i s t)
    (h' : Reaches f j t u) : Reaches f (j + i) s u := by
  intro n; rw [← Nat.add_assoc, h, h']

theorem Reaches.one {f : Phase → State → State} {s : State} {ph : Phase} (h : s.seq = .run ph)
    (hw : s.rngWait = false) : Reaches f 1 s (f ph s) :=
  fun n => runTurn_succ f n h hw

/-- A turn long enough to reach an Idle state ends in it. -/
theorem Reaches.runTurn_eq {f : Phase → State → State} {j m : Nat} {s t : State} (h : Reaches f j s t)
    (ht : t.seq = .idle) (hm : j ≤ m) : runTurn f m s = t := by
  obtain ⟨k, rfl⟩ := Nat.exists_eq_add_of_le hm
  rw [Nat.add_comm, h k, runTurn_idle f k ht]

theorem issue_idle {s : State} (w : Word) (h : s.seq = .idle) : issue w s = accept w s := by
  simp [issue, h]

theorem issue_running {s : State} (w : Word) (h : s.busy = true) : issue w s = s := by
  obtain ⟨ph, hph⟩ := (busy_iff s).1 h
  simp [issue, hph]

/-! What taking a command word for execution leaves (R25): a running command stands, an Idle sequencer accepts. -/

@[simp] theorem issue_params (w : Word) (s : State) : (issue w s).params = s.params := by unfold issue; split <;> rfl
@[simp] theorem issue_x (w : Word) (s : State) : (issue w s).x = s.x := by unfold issue; split <;> rfl
@[simp] theorem issue_ctrl (w : Word) (s : State) : (issue w s).ctrl = s.ctrl := by unfold issue; split <;> rfl
@[simp] theorem issue_fifo (w : Word) (s : State) : (issue w s).fifo = s.fifo := by unfold issue; split <;> rfl
@[simp] theorem issue_env (w : Word) (s : State) : (issue w s).env = s.env := by unfold issue; split <;> rfl
@[simp] theorem issue_source (w : Word) (s : State) : (issue w s).source = s.source := by unfold issue; split <;> rfl
@[simp] theorem issue_rngSrc (w : Word) (s : State) : (issue w s).rngSrc = s.rngSrc := by unfold issue; split <;> rfl

theorem issue_lastcmd (w : Word) (s : State) : (issue w s).lastcmd = if s.busy then s.lastcmd else w := by
  unfold issue State.busy; cases s.seq <;> rfl

theorem issue_attempts (w : Word) (s : State) : (issue w s).attempts = if s.busy then s.attempts else 0 := by
  unfold issue State.busy; cases s.seq <;> rfl

theorem issue_status (w : Word) (s : State) : (issue w s).status = if s.busy then s.status else s.status.accepted := by
  unfold issue State.busy; cases s.seq <;> rfl

/-- A command issued to an Idle sequencer whose internal steps reach the Idle state `t` within the turn. -/
theorem runCommand_of_reaches {f : Phase → State → State} {j : Nat} {s t : State} {w : Word} (h : s.seq = .idle)
    (hr : Reaches f j (accept w (spendTurn s)) t) (ht : t.seq = .idle) (hm : j ≤ s.env.turn) : runCommand w f s = t := by
  rw [runCommand, issue_idle w (s := spendTurn s) h, hr.runTurn_eq ht hm]

/-- `finish` either completes or raises ERANGE (R7). -/
theorem finish_fits {writes : List (RegIdx × Nat)} {s : State} (res noinv : Bool) (h : fits s.params writes = true) :
    finish writes res noinv s = complete writes res noinv s := by
  simp [finish, h]

theorem finish_not_fits {writes : List (RegIdx × Nat)} {s : State} (res noinv : Bool)
    (h : fits s.params writes = false) : finish writes res noinv s = raise .erange s := by
  simp [finish, h]

theorem finish_seq (writes : List (RegIdx × Nat)) (res noinv : Bool) (s : State) :
    (finish writes res noinv s).seq = .idle := by
  unfold finish; split <;> rfl

end Sys2Proof.Machine
end

