-- ==== Sys2Proof/Laws/Bus.lean ====
section
/-! SUPPORT. Once for all inputs, everything that serving one can do to the block (R65), and which register an offset of the
window names (R29, R61, R62). -/

namespace Sys2Proof.Machine

/-- Everything that an input can do to the block `s` (R30-R51, R64-R68, R214, R230). -/
inductive Served (s : State) : State → Prop where
  | same : Served s s
  | answered (w : Word) : Served s (respond w s)
  | accessError : Served s (accessError s)
  | answeredError : Served s (respond 0 (Machine.accessError s))
  | ctrl (v : Word) (idle : s.busy = false) : Served s { s with ctrl := v &&& ctrlMask }
  | status (v : Word) : Served s { s with status := s.status.writeOneToClear v }
  | cmdovr (busy : s.busy = true) : Served s { s with status := { s.status with cmdovr := true } }
  | accepted (v : Word) (idle : s.busy = false) : Served s (accept v s)
  | fed (v : Word) (room : s.fifo.length < s.params.fifoDepth) : Served s { s with fifo := s.fifo ++ [v] }
  | fovf : Served s { s with status := { s.status with fovf := true } }
  | flushed : Served s (flushFifo s)
  | aborted (busy : s.busy = true) : Served s (raise .eabort s)
  | abortedFlushed (busy : s.busy = true) : Served s (flushFifo (raise .eabort s))
  | operand (i : RegIdx) (j : Nat) (v : Word) (mapped : j < s.params.width / 32) (idle : s.busy = false) :
      Served s { s with x := s.x.set i (withWord s.x[i] j v) }
  | presented (w : Word) : Served s { s with env := { s.env with port := s.env.port ++ [w] } }
  | reset : Served s (State.resetOf s.params s.env)

theorem writeCtrl_served (v : Word) (s : State) : Served s (writeCtrl v s) := by
  unfold writeCtrl; split
  · exact .accessError
  · exact .ctrl v (Bool.eq_false_iff.2 ‹_›)

theorem writeCmd_served (v : Word) (s : State) : Served s (writeCmd v s) := by
  unfold writeCmd; split
  · exact .cmdovr ‹_›
  · exact .accepted v (Bool.eq_false_iff.2 ‹_›)

theorem writeRngData_served (v : Word) (s : State) : Served s (writeRngData v s) := by
  unfold writeRngData; split
  · exact .fed v ‹_›
  · exact .fovf

theorem writeAbort_served (v : Word) (s : State) : Served s (writeAbort v s) := by
  unfold writeAbort abortRun
  split
  · split
    · exact .abortedFlushed ‹_›
    · exact .flushed
  · split
    · exact .aborted ‹_›
    · exact .same
  · exact .flushed
  · exact .same

theorem writeOperand_served (i : RegIdx) (j : Nat) (v : Word) (s : State) (h : j < s.params.width / 32) :
    Served s (writeOperand i j v s) := by
  unfold writeOperand; split
  · exact .accessError
  · exact .operand i j v h (Bool.eq_false_iff.2 ‹_›)

/-- An offset that names word `j` of a register names a mapped word (R62). -/
theorem targetAt_operand {p : Params} {off : Nat} {i : RegIdx} {j : Nat} (h : targetAt p off = .operand i j) :
    j < p.width / 32 := by
  unfold targetAt at h; split at h
  · unfold controlTarget at h; split_ifs at h
  · unfold operandTarget at h; split at h
    · cases h; assumption
    · cases h

theorem writeTarget_served (v : Word) (s : State) (off : Nat) : Served s (writeTarget v s (targetAt s.params off)) := by
  cases h : targetAt s.params off with
  | ctrl => exact writeCtrl_served v s
  | status => exact .status v
  | cmd => exact writeCmd_served v s
  | rngData => exact writeRngData_served v s
  | abort => exact writeAbort_served v s
  | operand i j => exact writeOperand_served i j v s (targetAt_operand h)
  | unmapped => exact .accessError
  | id => exact .same
  | cfg => exact .same
  | lastcmd => exact .same
  | attempts => exact .same
  | rngLevel => exact .same

/-- Everything that serving an input can do. -/
theorem serve_served (input : Input) (s : State) : Served s (serve input s) := by
  cases input with
  | quiet => exact .same
  | reset => exact .reset
  | entropy w => unfold serve presentWord; dsimp only; split; exacts [.presented w, .same]
  | access a =>
    cases a with
    | read addr size =>
      unfold serve serveAccess; dsimp only; split
      · unfold busRead; split
        · split
          · exact .answeredError
          · exact .answered _
        · exact .answeredError
      · exact .same
    | write addr size v =>
      unfold serve serveAccess; dsimp only; split
      · unfold busWrite; split
        · exact writeTarget_served v s _
        · exact .accessError
      · exact .same

/-- An input that leaves a command running leaves it where it stands, and LASTCMD with it. -/
theorem Served.of_running {s t : State} (h : Served s t) (hb : s.busy = true) (ht : t.busy = true) :
    t.lastcmd = s.lastcmd ∧ t.seq = s.seq := by
  cases h <;> first | exact ⟨rfl, rfl⟩ | (exfalso; simp_all) | cases ht

/-! ### The window -/

/-- An offset of the window is what its physical address names (R60). -/
theorem windowOffset_base {p : Params} {off : Nat} (h : off < 0x2000) : windowOffset p (p.base + off) = some off := by
  unfold windowOffset; rw [if_pos (by omega)]; simp

/-- The offset of word `j` of `Xi` names it (R62). -/
theorem targetAt_operandOffset {p : Params} (i : RegIdx) {j : Nat} (hp : p.width ≤ 4096) (h : j < p.width / 32) :
    targetAt p (operandOffset i j) = .operand i j := by
  have hi := i.isLt
  have e1 : (operandOffset i j - 0x1000) % 0x200 / 4 = j := by unfold operandOffset; omega
  have e2 : (operandOffset i j - 0x1000) / 0x200 = i.val := by unfold operandOffset; omega
  unfold targetAt operandTarget
  rw [if_neg (by unfold operandOffset; omega), e1, e2, if_pos h]
  congr 1
  exact Fin.ext (by simp)

/-- While a command runs, no input gets a command word accepted (R25, R43). -/
theorem acceptedWord_of_busy {s : State} (h : s.busy = true) (input : Input) : acceptedWord input s = none := by
  unfold acceptedWord
  split <;> try rfl
  split <;> simp [h]

/-- A CMD write of `w` while BUSY = 0 gets `w` accepted (R25). -/
theorem acceptedWord_cmd {s : State} (h : s.busy = false) (w : Word) :
    acceptedWord (.access (memWrite s.params cmdOffset w)) s = some w := by
  unfold acceptedWord memWrite
  dsimp only
  rw [windowOffset_base (by decide)]
  dsimp only
  rw [show targetAt s.params cmdOffset = .cmd from rfl, h]
  rfl

end Sys2Proof.Machine
end

