-- ==== Sys2Proof/Laws/Loops.lean ====
section
/-! SUPPORT. What the loops of `Gcd`, `ModInv` and `ModExp` compute, and in how many internal steps (R120, R121, R127,
R131, R132). -/

namespace Sys2Proof.Machine

/-! ### bitlen -/

@[simp] theorem bitlen_zero : bitlen 0 = 0 := rfl

theorem bitlen_le_iff (x m : Nat) : bitlen x ≤ m ↔ x < 2 ^ m := by
  unfold bitlen
  split
  · next h => subst h; simp
  · next h => rw [Nat.succ_le_iff, Nat.log2_lt h]

theorem lt_two_pow_bitlen (x : Nat) : x < 2 ^ bitlen x := (bitlen_le_iff x _).1 le_rfl

theorem bitlen_pos {x : Nat} (h : 0 < x) : 0 < bitlen x := by
  unfold bitlen; split <;> omega

theorem bitlen_half {x y : Nat} (h : 2 * y < x) : bitlen y + 1 ≤ bitlen x := by
  obtain ⟨m, hm⟩ := Nat.exists_eq_succ_of_ne_zero (bitlen_pos (x := x) (by omega)).ne'
  have hx := lt_two_pow_bitlen x
  rw [hm, Nat.succ_eq_add_one, pow_succ] at hx
  have : bitlen y ≤ m := (bitlen_le_iff y m).2 (by omega)
  omega

theorem bitlen_div_two {x : Nat} (h : 0 < x) : bitlen (x / 2) + 1 = bitlen x := by
  refine le_antisymm ?_ ?_
  · obtain ⟨m, hm⟩ := Nat.exists_eq_succ_of_ne_zero (bitlen_pos h).ne'
    have hx := lt_two_pow_bitlen x
    rw [hm, Nat.succ_eq_add_one, pow_succ] at hx
    have : bitlen (x / 2) ≤ m := (bitlen_le_iff _ m).2 (by omega)
    omega
  · have hx := lt_two_pow_bitlen (x / 2)
    rw [bitlen_le_iff, pow_succ]; omega

/-- Two iterations of Euclid at least halve the remainder. -/
theorem two_mul_mod_lt {x y : Nat} (hy : 0 < y) (h : y < x) : 2 * (x % y) < x := by
  have h1 := Nat.mod_lt x hy
  have h2 := Nat.div_add_mod x y
  have h3 : y ≤ y * (x / y) := Nat.le_mul_of_pos_right _ (Nat.div_pos h.le hy)
  omega

/-! ### Gcd -/

/-- The loop of `Gcd` (R121) ends in at most `2 * bitlen(b) + 1` internal steps with the greatest common divisor. -/
theorem euclid_reaches {f : Phase → State → State} {ret : Nat → State → State}
    (hf : ∀ s, f .euclid s = euclidStep ret s) (s : State) (hs : s.seq = .run .euclid) :
    ∃ j ≤ 2 * bitlen s.work.newr + 1,
      Reaches f j s
        (ret (Nat.gcd s.work.r s.work.newr)
          (s.goto .euclid { s.work with r := Nat.gcd s.work.r s.work.newr, newr := 0 })) := by
  induction hb : s.work.newr using Nat.strongRecOn generalizing s with
  | ind b ih =>
    have hw : ∀ {u : State}, u.seq = .run .euclid → u.rngWait = false := fun h => rngWait_of_not_draws h rfl
    have h1 := Reaches.one (f := f) hs (hw hs)
    rw [hf, euclidStep] at h1
    rcases Nat.eq_zero_or_pos b with h0 | hpos
    · rw [if_pos (by omega)] at h1
      refine ⟨1, by omega, ?_⟩
      have : s.goto .euclid { s.work with r := s.work.r, newr := 0 } = s := by
        have hz : { s.work with r := s.work.r, newr := 0 } = s.work := by rw [← hb.trans h0]
        rw [hz, State.goto, ← hs]
      rw [h0, Nat.gcd_zero_right, this]; exact h1
    · rw [if_neg (by omega)] at h1
      set s1 := s.goto .euclid { s.work with r := s.work.newr, newr := s.work.r % s.work.newr } with hs1
      have h2 := Reaches.one (f := f) (s := s1) rfl (hw rfl)
      rw [hf, euclidStep] at h2
      have hg : Nat.gcd s.work.r b = Nat.gcd b (s.work.r % b) := by
        rw [Nat.gcd_comm b, ← Nat.gcd_rec, Nat.gcd_comm]
      rcases Nat.eq_zero_or_pos (s.work.r % b) with h0 | hpos'
      · rw [if_pos (by simpa [hs1, hb] using h0)] at h2
        refine ⟨1 + 1, ?_, ?_⟩
        · have := bitlen_pos hpos; omega
        · have := h1.trans h2
          rw [hg, h0, Nat.gcd_zero_right]
          simpa [hs1, hb, h0, State.goto] using this
      · rw [if_neg (by simp [hs1, hb]; omega)] at h2
        set s2 := s1.goto .euclid { s1.work with r := s1.work.newr, newr := s1.work.r % s1.work.newr } with hs2
        have hr : s2.work.r = s.work.r % b := by simp [hs2, hs1, hb]
        have hnr : s2.work.newr = b % (s.work.r % b) := by simp [hs2, hs1, hb]
        have hlt : s.work.r % b < b := Nat.mod_lt _ hpos
        have hhalf := two_mul_mod_lt hpos' hlt
        obtain ⟨j, hj, h3⟩ := ih (b % (s.work.r % b)) (by omega) s2 rfl hnr
        refine ⟨j + (1 + 1), ?_, ?_⟩
        · have := bitlen_half hhalf; omega
        · have h4 := (h1.trans h2).trans h3
          have hg2 : Nat.gcd s2.work.r (b % (s.work.r % b)) = Nat.gcd s.work.r b := by
            rw [hr, hg, Nat.gcd_comm b, Nat.gcd_comm (s.work.r % b), ← Nat.gcd_rec, Nat.gcd_comm]
          rw [hg2] at h4
          simpa [hs2, hs1, State.goto] using h4

/-- The call `Gcd(a, b)` (R121), from its begin. -/
theorem euclidBegin_reaches {f : Phase → State → State} {ret : Nat → State → State} (a b : Nat)
    (hf : ∀ s, f .euclid s = euclidStep ret s) (s : State) :
    ∃ j ≤ 2 * bitlen b + 1, Reaches f j (euclidBegin a b s)
      (ret (Nat.gcd a b) (s.goto .euclid { s.work with r := Nat.gcd a b, newr := 0 })) :=
  euclid_reaches hf (euclidBegin a b s) rfl

/-! ### ModInv -/

/-- What holds at the head of the loop of `ModInv(a, n)` (R127): Bezout's congruences, the bound on the coefficients, and
that the signs alternate. -/
structure BezoutInv (a n : Nat) (w : Work) : Prop where
  old : (n : Int) ∣ w.t * a - w.r
  new : (n : Int) ∣ w.newt * a - w.newr
  size : w.r * w.newt.natAbs + w.newr * w.t.natAbs = n
  signs : w.t * w.newt ≤ 0
  grows : w.t.natAbs ≤ w.newt.natAbs
  shrinks : w.newr < w.r
  common : Nat.gcd w.r w.newr = Nat.gcd a n

theorem bezoutInv_begin {a n : Nat} (w : Work) (hn : 0 < n) :
    BezoutInv a n { w with t := 0, newt := 1, r := n, newr := a % n, modulus := n } where
  old := by simp
  new := by
    refine ⟨(a / n : Nat), ?_⟩
    have h : (n * (a / n : Nat) + (a % n : Nat) : Int) = a := by exact_mod_cast Nat.div_add_mod a n
    linarith
  size := by simp
  signs := by simp
  grows := by simp
  shrinks := Nat.mod_lt _ hn
  common := by rw [Nat.gcd_comm, ← Nat.gcd_rec, Nat.gcd_comm]

/-- One iteration of the loop of `ModInv` keeps what holds at its head. -/
theorem bezoutInv_step {a n : Nat} {w : Work} (h : BezoutInv a n w) (hpos : 0 < w.newr) :
    BezoutInv a n { w with t := w.newt, newt := w.t - (w.r / w.newr : Nat) * w.newt, r := w.newr,
                           newr := w.r - w.r / w.newr * w.newr } := by
  have hq : 0 < w.r / w.newr := Nat.div_pos h.shrinks.le hpos
  have hmod : w.r - w.r / w.newr * w.newr = w.r % w.newr := by
    have := Nat.div_add_mod w.r w.newr; rw [Nat.mul_comm] at this; omega
  have hdm : w.newr * (w.r / w.newr) + w.r % w.newr = w.r := Nat.div_add_mod _ _
  have habs : (w.t - (w.r / w.newr : Nat) * w.newt).natAbs
      = w.t.natAbs + w.r / w.newr * w.newt.natAbs := by
    have hq' : (0 : Int) < (w.r / w.newr : Nat) := by exact_mod_cast hq
    generalize ((w.r / w.newr : Nat)) = q at *
    have hs := h.signs
    have hg := h.grows
    zify
    rcases le_total 0 w.newt with hn | hn
    · have ht : w.t ≤ 0 ∨ w.newt = 0 := by
        rcases hn.eq_or_lt with h0 | h0
        · exact .inr h0.symm
        · exact .inl (by nlinarith)
      rcases ht with ht | ht
      · rw [abs_of_nonpos ht, abs_of_nonneg hn, abs_of_nonpos (by nlinarith)]; ring
      · simp [ht]
    · have ht : 0 ≤ w.t ∨ w.newt = 0 := by
        rcases hn.eq_or_lt with h0 | h0
        · exact .inr h0
        · exact .inl (by nlinarith)
      rcases ht with ht | ht
      · rw [abs_of_nonneg ht, abs_of_nonpos hn, abs_of_nonneg (by nlinarith)]; ring
      · simp [ht]
  constructor
  · exact h.new
  · obtain ⟨x, hx⟩ := h.old
    obtain ⟨y, hy⟩ := h.new
    refine ⟨x - (w.r / w.newr : Nat) * y, ?_⟩
    have h1 : ((w.r % w.newr : Nat) : Int) = w.r - w.newr * (w.r / w.newr : Nat) := by
      have : ((w.newr * (w.r / w.newr) + w.r % w.newr : Nat) : Int) = w.r := by exact_mod_cast hdm
      push_cast at this ⊢; linarith
    simp only [hmod, h1]
    linear_combination hx - ((w.r / w.newr : Nat) : Int) * hy
  · simp only [hmod, habs]
    have := h.size
    calc w.newr * (w.t.natAbs + w.r / w.newr * w.newt.natAbs) + w.r % w.newr * w.newt.natAbs
        = (w.newr * (w.r / w.newr) + w.r % w.newr) * w.newt.natAbs + w.newr * w.t.natAbs := by ring
      _ = n := by rw [hdm, this]
  · have hq' : (0 : Int) ≤ (w.r / w.newr : Nat) := by positivity
    have := h.signs
    show w.newt * (w.t - (w.r / w.newr : Nat) * w.newt) ≤ 0
    nlinarith [mul_nonneg hq' (mul_self_nonneg w.newt)]
  · simp only [habs]
    have : w.newt.natAbs ≤ w.r / w.newr * w.newt.natAbs := Nat.le_mul_of_pos_left _ hq
    omega
  · simp only [hmod]; exact Nat.mod_lt _ hpos
  · simp only [hmod]
    rw [Nat.gcd_comm, ← Nat.gcd_rec, Nat.gcd_comm]; exact h.common

/-- At the end of the loop of `ModInv` (R127) the value returned is the inverse, or 0 with the no-inverse bit. -/
theorem bezoutInv_result {a n : Nat} {w : Work} (h : BezoutInv a n w) (hn : 1 < n) (hm : w.modulus = n)
    (h0 : w.newr = 0) : Pseudocode.IsModInv a n (bezoutResult w).1 (bezoutResult w).2 := by
  have hr : w.r = Nat.gcd a n := by have := h.common; rwa [h0, Nat.gcd_zero_right] at this
  have hrpos : 0 < w.r := hr ▸ Nat.gcd_pos_of_pos_right a (by omega)
  constructor
  · intro hg
    have hr1 : w.r = 1 := hr.trans hg
    have hsize : w.newt.natAbs = n := by have := h.size; rw [hr1, h0] at this; omega
    have hle : w.t.natAbs ≤ n := hsize ▸ h.grows
    have hdvd : (n : Int) ∣ w.t * a - 1 := by simpa [hr1] using h.old
    have hnt : ¬ (n : Int) ∣ w.t := by
      intro hd
      have : (n : Int) ∣ 1 := by
        have h2 := (Int.dvd_sub (hd.mul_right a) hdvd); simpa using h2
      have := Int.le_of_dvd one_pos this
      omega
    have hlt : w.t.natAbs < n := by
      refine lt_of_le_of_ne hle fun he => hnt ?_
      rw [← he]; exact Int.natAbs_dvd.2 dvd_rfl
    have ht0 : w.t ≠ 0 := fun he => hnt (he ▸ dvd_zero _)
    have hres : bezoutResult w = ((if w.t < 0 then w.t + n else w.t).toNat, false) := by
      simp [bezoutResult, hr1, hm]
    rw [hres]
    refine ⟨rfl, ?_, ?_⟩
    · split <;> omega
    · set v := (if w.t < 0 then w.t + n else w.t).toNat with hv
      have hvz : (v : Int) = w.t ∨ (v : Int) = w.t + n := by
        rw [hv]; split <;> omega
      have : (n : Int) ∣ (a * v : Nat) - 1 := by
        push_cast
        rcases hvz with e | e
        · rw [e]; have : (a : Int) * w.t - 1 = w.t * a - 1 := by ring
          rwa [this]
        · rw [e]; have : (a : Int) * (w.t + n) - 1 = (w.t * a - 1) + n * a := by ring
          rw [this]; exact dvd_add hdvd (dvd_mul_right _ _)
      have hmod : ((a * v : Nat) : Int) ≡ ((1 : Nat) : Int) [ZMOD n] := (Int.modEq_iff_dvd.2 (by
        rw [← dvd_neg]; push_cast at this ⊢; ring_nf; ring_nf at this; exact this))
      exact (Int.natCast_modEq_iff.1 hmod)
  · intro hg
    have : 1 < w.r := by omega
    simp [bezoutResult, this]

/-- The loop of `ModInv` (R127) ends in at most `2 * bitlen(newr) + 1` internal steps. -/
theorem bezout_reaches {f : Phase → State → State} {ret : Nat → Bool → State → State} {a n : Nat}
    (hf : ∀ s, f .bezout s = bezoutStep ret s) (s : State) (hs : s.seq = .run .bezout) (hn : 1 < n)
    (hm : s.work.modulus = n) (hi : BezoutInv a n s.work) :
    ∃ j ≤ 2 * bitlen s.work.newr + 1, ∃ v noinv r newr t newt, Pseudocode.IsModInv a n v noinv ∧
      Reaches f j s
        (ret v noinv (s.goto .bezout { s.work with r := r, newr := newr, t := t, newt := newt })) := by
  induction hb : s.work.newr using Nat.strongRecOn generalizing s with
  | ind b ih =>
    have hw : ∀ {u : State}, u.seq = .run .bezout → u.rngWait = false := fun h => rngWait_of_not_draws h rfl
    have done : ∀ u : State, u.seq = .run .bezout → u.work.modulus = n → BezoutInv a n u.work → u.work.newr = 0 →
        Reaches f 1 u (ret (bezoutResult u.work).1 (bezoutResult u.work).2 u) ∧
          Pseudocode.IsModInv a n (bezoutResult u.work).1 (bezoutResult u.work).2 := by
      intro u hu hum hui h0
      have h1 := Reaches.one (f := f) hu (hw hu)
      rw [hf, bezoutStep, if_pos h0] at h1
      exact ⟨h1, bezoutInv_result hui hn hum h0⟩
    have same : ∀ u : State, u.seq = .run .bezout →
        u.goto .bezout { u.work with r := u.work.r, newr := u.work.newr, t := u.work.t, newt := u.work.newt } = u := by
      intro u hu; rw [State.goto, ← hu]
    rcases Nat.eq_zero_or_pos b with h0 | hpos
    · obtain ⟨h1, h2⟩ := done s hs hm hi (hb.trans h0)
      refine ⟨1, by omega, _, _, s.work.r, s.work.newr, s.work.t, s.work.newt, h2, ?_⟩
      rw [same s hs]; exact h1
    · have h1 := Reaches.one (f := f) hs (hw hs)
      rw [hf, bezoutStep, if_neg (by omega)] at h1
      set s1 := s.goto .bezout { s.work with
          t := s.work.newt
          newt := s.work.t - (s.work.r / s.work.newr : Nat) * s.work.newt
          r := s.work.newr
          newr := s.work.r - s.work.r / s.work.newr * s.work.newr } with hs1
      have hi1 : BezoutInv a n s1.work := bezoutInv_step hi (by omega)
      have hm1 : s1.work.modulus = n := hm
      have hr1 : s1.work.r = b := by simp [hs1, hb]
      rcases Nat.eq_zero_or_pos s1.work.newr with h0 | hpos'
      · obtain ⟨h2, h3⟩ := done s1 rfl hm1 hi1 h0
        refine ⟨1 + 1, ?_, _, _, s1.work.r, s1.work.newr, s1.work.t, s1.work.newt, h3, ?_⟩
        · have := bitlen_pos hpos; omega
        · have := h1.trans h2
          simpa [hs1, State.goto] using this
      · have h2 := Reaches.one (f := f) (s := s1) rfl (hw rfl)
        rw [hf, bezoutStep, if_neg (by omega)] at h2
        set s2 := s1.goto .bezout { s1.work with
            t := s1.work.newt
            newt := s1.work.t - (s1.work.r / s1.work.newr : Nat) * s1.work.newt
            r := s1.work.newr
            newr := s1.work.r - s1.work.r / s1.work.newr * s1.work.newr } with hs2
        have hi2 : BezoutInv a n s2.work := bezoutInv_step hi1 hpos'
        have hnr : s2.work.newr = b % s1.work.newr := by
          have e := Nat.div_add_mod s1.work.r s1.work.newr
          rw [Nat.mul_comm] at e
          show s1.work.r - s1.work.r / s1.work.newr * s1.work.newr = _
          rw [← hr1]; omega
        have hlt : s1.work.newr < b := hr1 ▸ hi1.shrinks
        have hhalf := two_mul_mod_lt hpos' hlt
        obtain ⟨j, hj, v, ni, r, nr, t, nt, h3, h4⟩ := ih (b % s1.work.newr) (by omega) s2 rfl hm1 hi2 hnr
        refine ⟨j + (1 + 1), ?_, v, ni, r, nr, t, nt, h3, ?_⟩
        · have := bitlen_half hhalf; omega
        · have := (h1.trans h2).trans h4
          simpa [hs2, hs1, State.goto] using this

/-- The call `ModInv(a, n)` (R127) with `n >= 1`, from its begin. -/
theorem bezoutBegin_reaches {f : Phase → State → State} {ret : Nat → Bool → State → State} (a n : Nat)
    (hf : ∀ s, f .bezout s = bezoutStep ret s) (s : State) (hn : 0 < n) :
    ∃ j ≤ 2 * bitlen n + 1, ∃ v noinv r newr t newt, Pseudocode.IsModInv a n v noinv ∧
      Reaches f j (bezoutBegin a n s)
        (ret v noinv
          (s.goto .bezout { s.work with r := r, newr := newr, t := t, newt := newt, modulus := n })) := by
  rcases Nat.lt_or_ge 1 n with h1 | h1
  · obtain ⟨j, hj, v, ni, r, nr, t, nt, h3, h4⟩ :=
      bezout_reaches hf (bezoutBegin a n s) rfl h1 rfl (bezoutInv_begin s.work hn)
    refine ⟨j, hj.trans ?_, v, ni, r, nr, t, nt, h3, ?_⟩
    · have : bitlen (a % n) ≤ bitlen n :=
        (bitlen_le_iff _ _).2 ((Nat.mod_lt a hn).trans (lt_two_pow_bitlen n))
      simp only [bezoutBegin, goto_work]; omega
    · simpa [bezoutBegin, State.goto] using h4
  · have hn1 : n = 1 := by omega
    subst hn1
    have h2 := Reaches.one (f := f) (s := bezoutBegin a 1 s) rfl (rngWait_of_not_draws rfl rfl)
    rw [hf, bezoutStep, if_pos (by simp [bezoutBegin, Nat.mod_one])] at h2
    refine ⟨1, by omega, 0, false, 1, 0, 0, 1, ?_, ?_⟩
    · simp [Pseudocode.IsModInv]
    · simpa [bezoutBegin, bezoutResult, Nat.mod_one, State.goto] using h2

/-! ### ModExp -/

/-- The loop of `ModExp` (R131) runs `bitlen(d)` times and then ends (R132). -/
theorem power_reaches {f : Phase → State → State} {ret : Nat → State → State}
    (hf : ∀ s, f .power s = powerStep ret s) (s : State) (hs : s.seq = .run .power)
    (hres : s.work.res < s.work.modulus) :
    ∃ base, Reaches f (bitlen s.work.exp + 1) s
      (ret (s.work.res * s.work.base ^ s.work.exp % s.work.modulus)
        (s.goto .power { s.work with
          res := s.work.res * s.work.base ^ s.work.exp % s.work.modulus, base := base, exp := 0 })) := by
  induction he : s.work.exp using Nat.strongRecOn generalizing s with
  | ind e ih =>
    have h1 := Reaches.one (f := f) hs (rngWait_of_not_draws hs rfl)
    rw [hf, powerStep] at h1
    rcases Nat.eq_zero_or_pos e with h0 | hpos
    · subst h0
      rw [if_pos he] at h1
      refine ⟨s.work.base, ?_⟩
      have e1 : s.work.res * s.work.base ^ 0 % s.work.modulus = s.work.res := by
        simp [Nat.mod_eq_of_lt hres]
      have hz : { s.work with res := s.work.res, base := s.work.base, exp := 0 } = s.work := by rw [← he]
      rw [e1, hz, State.goto, ← hs]; exact h1
    · rw [if_neg (by omega)] at h1
      set s1 := s.goto .power { s.work with
            res := if s.work.exp % 2 = 1 then s.work.res * s.work.base % s.work.modulus else s.work.res
            base := s.work.base * s.work.base % s.work.modulus
            exp := s.work.exp / 2 } with hs1
      have hmpos : 0 < s.work.modulus := by omega
      have hres1 : s1.work.res < s1.work.modulus := by
        simp only [hs1, goto_work]; split
        · exact Nat.mod_lt _ hmpos
        · exact hres
      obtain ⟨base, h2⟩ := ih (e / 2) (by omega) s1 rfl hres1 (by simp [hs1, he])
      have hv : s1.work.res * s1.work.base ^ (e / 2) % s1.work.modulus
          = s.work.res * s.work.base ^ e % s.work.modulus := by
        simp only [hs1, goto_work, he]
        generalize s.work.modulus = m, s.work.base = b, s.work.res = c
        have hb : (b * b % m) ^ (e / 2) ≡ b ^ (2 * (e / 2)) [MOD m] := by
          rw [pow_mul, pow_two]; exact (Nat.mod_modEq _ _).pow _
        rcases Nat.mod_two_eq_zero_or_one e with h2 | h2
        · rw [if_neg (by omega)]
          have : 2 * (e / 2) = e := by omega
          rw [this] at hb
          exact hb.mul_left c
        · rw [if_pos h2]
          have : e = 2 * (e / 2) + 1 := by omega
          calc c * b % m * (b * b % m) ^ (e / 2) % m
              = c * b * b ^ (2 * (e / 2)) % m := ((Nat.mod_modEq _ _).mul hb)
            _ = c * b ^ e % m := by conv_rhs => rw [this, pow_succ]
                                    ring_nf
      have hlen := bitlen_div_two hpos
      refine ⟨base, ?_⟩
      have h3 := h1.trans h2
      rw [hv, hlen] at h3
      simpa [hs1, State.goto] using h3

/-- The call `ModExp(a, d, n)` (R131) with `n >= 1`: `(a ^ d) mod n`. -/
theorem powerBegin_reaches {f : Phase → State → State} {ret : Nat → State → State} (a d n : Nat)
    (hf : ∀ s, f .power s = powerStep ret s) (s : State) (hn : 0 < n) :
    ∃ base, Reaches f (bitlen d + 1) (powerBegin a d n s)
      (ret (a ^ d % n)
        (s.goto .power { s.work with res := a ^ d % n, base := base, exp := 0, modulus := n })) := by
  obtain ⟨base, h⟩ := power_reaches hf (powerBegin a d n s) rfl (Nat.mod_lt 1 hn)
  refine ⟨base, ?_⟩
  have e : 1 % n * (a % n) ^ d % n = a ^ d % n := by
    rw [Nat.mul_mod, Nat.mod_mod, ← Nat.pow_mod, ← Nat.mul_mod, one_mul]
  simpa [powerBegin, State.goto, e] using h

end Sys2Proof.Machine
end

