-- ==== Sys2Proof/Laws/Run.lean ====
section
/-! SUPPORT. The state of a block while a command issued to an Idle sequencer runs, and how its two completions read as the
updates `succeeded` and `failed` of the state it was issued in. -/

namespace Sys2Proof.Machine

/-! ### The selected random source -/

@[simp] theorem withSource_params (s : State) (ws : List Word) : (s.withSource ws).params = s.params := rfl
@[simp] theorem withSource_x (s : State) (ws : List Word) : (s.withSource ws).x = s.x := rfl
@[simp] theorem withSource_ctrl (s : State) (ws : List Word) : (s.withSource ws).ctrl = s.ctrl := rfl
@[simp] theorem withSource_status (s : State) (ws : List Word) : (s.withSource ws).status = s.status := rfl
@[simp] theorem withSource_lastcmd (s : State) (ws : List Word) : (s.withSource ws).lastcmd = s.lastcmd := rfl
@[simp] theorem withSource_attempts (s : State) (ws : List Word) : (s.withSource ws).attempts = s.attempts := rfl
@[simp] theorem withSource_seq (s : State) (ws : List Word) : (s.withSource ws).seq = s.seq := rfl
@[simp] theorem withSource_work (s : State) (ws : List Word) : (s.withSource ws).work = s.work := rfl
@[simp] theorem withSource_turn (s : State) (ws : List Word) : (s.withSource ws).env.turn = s.env.turn := rfl
@[simp] theorem withSource_inbox (s : State) (ws : List Word) : (s.withSource ws).env.inbox = s.env.inbox := rfl
@[simp] theorem withSource_resp (s : State) (ws : List Word) : (s.withSource ws).env.resp = s.env.resp := rfl
@[simp] theorem withSource_rngSrc (s : State) (ws : List Word) : (s.withSource ws).rngSrc = s.rngSrc := rfl
@[simp] theorem withSource_maxTry (s : State) (ws : List Word) : (s.withSource ws).maxTry = s.maxTry := rfl
@[simp] theorem withSource_noRandomSource (s : State) (ws : List Word) :
    (s.withSource ws).noRandomSource = s.noRandomSource := rfl
@[simp] theorem withSource_source (s : State) (ws : List Word) : (s.withSource ws).source = ws := by
  unfold State.source; rw [withSource_rngSrc]; unfold State.withSource; cases s.rngSrc <;> rfl
@[simp] theorem withSource_withSource (s : State) (ws ws' : List Word) :
    (s.withSource ws).withSource ws' = s.withSource ws' := by
  unfold State.withSource State.rngSrc; cases h : s.ctrl.getLsbD 0 <;> simp
@[simp] theorem withSource_self (s : State) : s.withSource s.source = s := by
  unfold State.withSource State.source; cases h : s.rngSrc <;> simp

/-- What `RandWord()` answers (R151). -/
theorem takeWord_cons {s : State} {w : Word} {ws : List Word} (h : s.source = w :: ws) :
    takeWord s = some (w, s.withSource ws) := by
  unfold takeWord State.withSource
  unfold State.source at h
  cases hr : s.rngSrc <;> simp_all

theorem takeWord_nil {s : State} (h : s.source = []) : takeWord s = none := by
  unfold takeWord
  unfold State.source at h
  cases hr : s.rngSrc <;> simp_all

/-- While the port's ready is asserted, the sequencer waits exactly as long as no word is presented as valid (R151, R214). -/
theorem rngWait_of_portReady {s : State} (h : s.portReady = true) : s.rngWait = !s.portValid := by
  simp only [State.portReady, Bool.and_eq_true, Bool.not_eq_true'] at h
  simp [State.rngWait, State.portValid, State.source, h]

/-- Where the port's ready is asserted and a word is valid, the draw is the transfer of that word (R151, R214). -/
theorem takeWord_of_portReady {s : State} {w : Word} {ws : List Word} (h : s.portReady = true)
    (hw : s.env.port = w :: ws) : takeWord s = some (w, { s with env := { s.env with port := ws } }) := by
  simp only [State.portReady, Bool.and_eq_true, Bool.not_eq_true'] at h
  simp [takeWord, h, hw]

/-! ### A command that runs -/

/-- The state while the command word `w`, issued in `s`, runs: `attempts` candidates counted, the words `rest` ready, the
sequencer at `ph` with the working state `wk`. -/
def State.during (s : State) (w attempts : Word) (rest : List Word) (ph : Phase) (wk : Work) : State :=
  ({ s with status := s.status.accepted, lastcmd := w, attempts := attempts, seq := .run ph, work := wk }).withSource
    rest

theorem accept_eq_during (w : Word) (s : State) :
    accept w s = s.during w 0 s.source .start (snapshot s.x w) := by
  have h : s.source = ({ s with status := s.status.accepted, lastcmd := w, attempts := 0, seq := .run .start,
                                work := snapshot s.x w } : State).source := rfl
  rw [State.during, h, withSource_self]; rfl

section during
variable (s : State) (w att : Word) (rest : List Word) (ph : Phase) (wk : Work)

@[simp] theorem during_params : (s.during w att rest ph wk).params = s.params := rfl
@[simp] theorem during_x : (s.during w att rest ph wk).x = s.x := rfl
@[simp] theorem during_ctrl : (s.during w att rest ph wk).ctrl = s.ctrl := rfl
@[simp] theorem during_status : (s.during w att rest ph wk).status = s.status.accepted := rfl
@[simp] theorem during_lastcmd : (s.during w att rest ph wk).lastcmd = w := rfl
@[simp] theorem during_attempts : (s.during w att rest ph wk).attempts = att := rfl
@[simp] theorem during_seq : (s.during w att rest ph wk).seq = .run ph := rfl
@[simp] theorem during_work : (s.during w att rest ph wk).work = wk := rfl
@[simp] theorem during_source : (s.during w att rest ph wk).source = rest := by simp [State.during]
@[simp] theorem during_turn : (s.during w att rest ph wk).env.turn = s.env.turn := rfl
@[simp] theorem during_maxTry : (s.during w att rest ph wk).maxTry = s.maxTry := rfl
@[simp] theorem during_noRandomSource : (s.during w att rest ph wk).noRandomSource = s.noRandomSource := rfl
@[simp] theorem during_busy : (s.during w att rest ph wk).busy = true := rfl

@[simp] theorem during_goto (ph' : Phase) (wk' : Work) :
    (s.during w att rest ph wk).goto ph' wk' = s.during w att rest ph' wk' := rfl

theorem during_with_work (wk' : Work) :
    ({ s.during w att rest ph wk with work := wk' } : State) = s.during w att rest ph wk' := rfl

theorem during_with_attempts_work (att' : Word) (wk' : Work) :
    ({ s.during w att rest ph wk with attempts := att', work := wk' } : State) = s.during w att' rest ph wk' := rfl

@[simp] theorem during_withSource (rest' : List Word) :
    (s.during w att rest ph wk).withSource rest' = s.during w att rest' ph wk := by
  simp [State.during]

/-- How a command that runs ends in success (R25, R202), as an update of the state it was issued in. -/
@[simp] theorem complete_during (writes : List (RegIdx × Nat)) (res noinv : Bool) :
    complete writes res noinv ((spendTurn s).during w att rest ph wk)
      = (s.succeeded w att writes res noinv).withSource rest := rfl

/-- How a command that runs ends in error (R25, R203). -/
@[simp] theorem raise_during (e : ErrCode) :
    raise e ((spendTurn s).during w att rest ph wk) = (s.failed w att e).withSource rest := rfl

end during

theorem succeeded_source (s : State) (w att : Word) (writes : List (RegIdx × Nat)) (res noinv : Bool) :
    (s.succeeded w att writes res noinv).source = s.source := rfl

theorem failed_source (s : State) (w att : Word) (e : ErrCode) : (s.failed w att e).source = s.source := rfl

end Sys2Proof.Machine
end

