-- ==== Sys2Proof/Laws/Outcome.lean ====
section
/-! SUPPORT. Once for all commands, everything that a turn of a command can do: it takes words of the selected source, moves the
sequencer, counts candidates, and may end in one of the two completions. Frames and invariants cite `exec_outcome` and unfold
no meaning. -/

namespace Sys2Proof.Machine

/-! ### What the shared operations keep -/

/-- `A` is kept by the updates that a running sequencer makes without drawing: a move with a new working state. -/
structure Moves (A : State → Prop) : Prop where
  goto : ∀ ph wk s, A s → A (s.goto ph wk)
  work : ∀ wk (s : State), A s → A { s with work := wk }

/-- `A` is also kept by the draw of a word (R151). -/
structure Draws (A : State → Prop) : Prop extends Moves A where
  take : ∀ s w t, takeWord s = some (w, t) → A s → A t

/-- `A` is also kept by the count of a candidate (R162). -/
structure Counts (A : State → Prop) : Prop extends Draws A where
  count : ∀ att wk (s : State), A s → A { s with attempts := att, work := wk }

section keeps
variable {A C : State → Prop} (hC : ∀ t, A t → C t) {s : State}
include hC

theorem euclidStep_keeps (hA : Moves A) {ret : Nat → State → State} (hr : ∀ v t, A t → C (ret v t)) (h : A s) :
    C (euclidStep ret s) := by
  unfold euclidStep; split
  · exact hr _ _ h
  · exact hC _ (hA.goto _ _ _ h)

theorem bezoutStep_keeps (hA : Moves A) {ret : Nat → Bool → State → State} (hr : ∀ v b t, A t → C (ret v b t))
    (h : A s) : C (bezoutStep ret s) := by
  unfold bezoutStep; split
  · exact hr _ _ _ h
  · exact hC _ (hA.goto _ _ _ h)

theorem powerStep_keeps (hA : Moves A) {ret : Nat → State → State} (hr : ∀ v t, A t → C (ret v t)) (h : A s) :
    C (powerStep ret s) := by
  unfold powerStep; split
  · exact hr _ _ h
  · exact hC _ (hA.goto _ _ _ h)

theorem drawStep_keeps (hA : Draws A) {b : Nat} {ph : Phase} {ret : Nat → State → State}
    (hr : ∀ v t, A t → C (ret v t)) (h : A s) : C (drawStep b ph ret s) := by
  unfold drawStep
  split
  · exact hC _ h
  · next w t ht =>
    have := hA.take _ _ _ ht h
    split
    · exact hC _ (hA.goto _ _ _ this)
    · exact hr _ _ this

theorem roundHead_keeps (hA : Moves A) {k : Nat} {ret : Bool → State → State} (hr : ∀ v t, A t → C (ret v t))
    (h : A s) : C (roundHead k ret s) := by
  unfold roundHead; split
  · exact hr _ _ h
  · exact hC _ (hA.goto _ _ _ h)

theorem mrBegin_keeps (hA : Moves A) {n k : Nat} {ret : Bool → State → State} (hr : ∀ v t, A t → C (ret v t))
    (h : A s) : C (mrBegin n k ret s) := by
  unfold mrBegin; split
  · exact hr _ _ h
  · split
    · exact hr _ _ h
    · exact roundHead_keeps hC hA hr (hA.work _ _ h)

theorem witnessDrawn_keeps (hA : Moves A) (u : Nat) (h : A s) : C (witnessDrawn u s) := by
  unfold witnessDrawn; split
  · exact hC _ (hA.goto _ _ _ h)
  · exact hC _ (hA.goto _ _ _ h)

theorem roundPassed_keeps (hA : Moves A) {k : Nat} {ret : Bool → State → State} (hr : ∀ v t, A t → C (ret v t))
    (h : A s) : C (roundPassed k ret s) :=
  roundHead_keeps hC hA hr (hA.work _ _ h)

theorem mrPowerDone_keeps (hA : Moves A) {k : Nat} {ret : Bool → State → State} (hr : ∀ v t, A t → C (ret v t))
    (y : Nat) (h : A s) : C (mrPowerDone k ret y s) := by
  unfold mrPowerDone; split
  · exact roundPassed_keeps hC hA hr (hA.work _ _ h)
  · exact hC _ (hA.goto _ _ _ h)

theorem squareStep_keeps (hA : Moves A) {k : Nat} {ret : Bool → State → State} (hr : ∀ v t, A t → C (ret v t))
    (h : A s) : C (squareStep k ret s) := by
  unfold squareStep; split
  · split
    · exact hr _ _ h
    · exact hC _ (hA.goto _ _ _ h)
  · split
    · exact hr _ _ h
    · exact roundPassed_keeps hC hA hr h

theorem mrStep_keeps (hA : Draws A) {k : Nat} {ret : Bool → State → State} (hr : ∀ v t, A t → C (ret v t))
    (ph : Phase) (h : A s) : C (mrStep k ret ph s) := by
  cases ph
  case witness => exact drawStep_keeps hC hA (fun u _ => witnessDrawn_keeps hC hA.toMoves u) h
  case power => exact powerStep_keeps hC hA.toMoves (fun y _ => mrPowerDone_keeps hC hA.toMoves hr y) h
  case square => exact squareStep_keeps hC hA.toMoves hr h
  all_goals exact hC _ h

theorem sampleBegin_keeps (hA : Moves A) (he : ∀ t, A t → C (raise .etimeout t)) (h : A s) : C (sampleBegin s) := by
  unfold sampleBegin; split
  · exact he _ h
  · exact hC _ (hA.goto _ _ _ h)

theorem sampleTested_keeps (hA : Moves A) (he : ∀ t, A t → C (raise .etimeout t)) {ret : Nat → State → State}
    (hr : ∀ v t, A t → C (ret v t)) (b : Bool) (h : A s) : C (sampleTested ret b s) := by
  unfold sampleTested; split
  · exact hr _ _ h
  · exact sampleBegin_keeps hC hA he h

theorem sampleStep_keeps (hA : Counts A) (he : ∀ t, A t → C (raise .etimeout t)) {b k : Nat} {ret : Nat → State → State}
    (hr : ∀ v t, A t → C (ret v t)) (ph : Phase) (h : A s) : C (sampleStep b k ret ph s) := by
  have ht := fun v (t : State) => sampleTested_keeps (s := t) hC hA.toMoves he hr v
  cases ph
  case candidate =>
    refine drawStep_keeps hC hA.toDraws (fun c t h => ?_) h
    exact mrBegin_keeps hC hA.toMoves ht (hA.count _ _ _ h)
  case witness => exact mrStep_keeps (k := k) hC hA.toDraws ht .witness h
  case power => exact mrStep_keeps hC hA.toDraws ht .power h
  case square => exact mrStep_keeps hC hA.toDraws ht .square h
  all_goals exact hC _ h

theorem deriveStep_keeps (hA : Moves A) {rd : RegIdx} (hr : ∀ ws b t, ws.map (·.1) = [rd, destPlus rd 1, destPlus rd 2] →
    A t → C (finish ws false b t)) (ph : Phase) (h : A s) : C (deriveStep rd ph s) := by
  cases ph
  case euclid => exact euclidStep_keeps hC hA (fun g t h => hC _ (hA.goto _ _ _ (hA.work _ _ h))) h
  case bezout => exact bezoutStep_keeps hC hA (fun d b t h => hr _ _ _ rfl h) h
  all_goals exact hC _ h

end keeps

/-! ### What a turn of a command can do -/

/-- The state `u` of a running command with another count, other words ready, and the sequencer elsewhere. -/
def State.moved (u : State) (att : Word) (rest : List Word) (ph : Phase) (wk : Work) : State :=
  ({ u with attempts := att, seq := .run ph, work := wk }).withSource rest

/-- `t` is `u` with the sequencer elsewhere; of a command that takes no random words the source is the same, of one that
samples no candidates the count is (R48). -/
def Moved (i : Instr) (u t : State) : Prop :=
  ∃ att taken rest ph wk, u.source = taken ++ rest ∧ (randomised i = false → taken = []) ∧
      (samplesCandidates i = false → att = u.attempts) ∧
    t = u.moved att rest ph wk

/-- Everything that a turn of the command `i` can do to the running state `u`. -/
inductive Outcome (i : Instr) (u : State) : State → Prop where
  | runs (t : State) (h : Moved i u t) : Outcome i u t
  | completes (t : State) (writes : List (RegIdx × Nat)) (res noinv : Bool) (h : Moved i u t)
      (regs : writes.map (·.1) = dests i) (fit : fits t.params writes = true) :
      Outcome i u (complete writes res noinv t)
  | raises (t : State) (e : ErrCode) (h : Moved i u t) : Outcome i u (raise e t)

theorem moved_self {i : Instr} {u : State} (h : u.busy = true) : Moved i u u := by
  obtain ⟨ph, hph⟩ := (busy_iff u).1 h
  refine ⟨u.attempts, [], u.source, ph, u.work, rfl, fun _ => rfl, fun _ => rfl, ?_⟩
  have : ({ u with attempts := u.attempts, seq := .run ph, work := u.work } : State) = u := by rw [← hph]
  rw [State.moved, this, withSource_self]

theorem moved_source (u : State) (att rest ph wk) : (u.moved att rest ph wk).source = rest := by simp [State.moved]

theorem moved_moves (i : Instr) (u : State) : Moves (Moved i u) where
  goto := by rintro ph wk s ⟨att, tk, rest, ph', wk', h, h', hc, rfl⟩; exact ⟨att, tk, rest, ph, wk, h, h', hc, rfl⟩
  work := by rintro wk s ⟨att, tk, rest, ph', wk', h, h', hc, rfl⟩; exact ⟨att, tk, rest, ph', wk, h, h', hc, rfl⟩

theorem moved_draws (i : Instr) (hi : randomised i = true) (u : State) : Draws (Moved i u) where
  toMoves := moved_moves i u
  take := by
    rintro s w t ht ⟨att, tk, rest, ph, wk, h, -, hc, rfl⟩
    cases hr : rest with
    | nil => rw [takeWord_nil (by rw [moved_source, hr])] at ht; cases ht
    | cons v vs =>
      rw [takeWord_cons (w := v) (ws := vs) (by rw [moved_source, hr])] at ht
      cases ht
      exact ⟨att, tk ++ [w], vs, ph, wk, by rw [h, hr]; simp, by simp [hi], hc, by simp [State.moved]⟩

theorem moved_counts (i : Instr) (hi : samplesCandidates i = true) (hd : randomised i = true) (u : State) :
    Counts (Moved i u) where
  toDraws := moved_draws i hd u
  count := by
    rintro a wk s ⟨att, tk, rest, ph, wk', h, h', -, rfl⟩
    exact ⟨a, tk, rest, ph, wk, h, h', by simp [hi], rfl⟩

theorem finish_outcome {i : Instr} {u t : State} {writes : List (RegIdx × Nat)} (res noinv : Bool)
    (regs : writes.map (·.1) = dests i) (h : Moved i u t) : Outcome i u (finish writes res noinv t) := by
  unfold finish; split
  · exact .completes t writes res noinv h regs ‹_›
  · exact .raises t _ h

/-- The sequencer's internal step of each command (R26). -/
def stepOf : Instr → Phase → State → State
  | .gcd rd _ _ => gcdStep rd
  | .lcm rd _ _ => lcmStep rd
  | .modinv rd _ _ => modinvStep rd
  | .modexp rd _ _ _ => modexpStep rd
  | .mrtest rd _ k => mrtestStep rd k.toNat
  | .primegen rd nbits k => primegenStep rd nbits.toNat k.toNat
  | .keyderive rd _ _ => keyderiveStep rd
  | .keygen rd nbits k => keygenStep rd nbits.toNat k.toNat

theorem exec_eq (i : Instr) (s : State) : exec i s = .next (runCommand (encode i) (stepOf i) s) := by
  cases i <;> rfl

/-- One internal step of a command that runs. -/
theorem stepOf_outcome (i : Instr) (u t : State) (ph : Phase) (h : Moved i u t) : Outcome i u (stepOf i ph t) := by
  have hC : ∀ t, Moved i u t → Outcome i u t := fun t => .runs t
  have hR : ∀ e t, Moved i u t → Outcome i u (raise e t) := fun e t h => .raises t e h
  have hM := moved_moves i u
  cases i
  case gcd =>
    cases ph
    case start => exact hC _ (hM.goto _ _ _ h)
    case euclid => exact euclidStep_keeps hC hM (fun v t h => finish_outcome false false rfl h) h
    all_goals exact hC _ h
  case lcm =>
    cases ph
    case start => unfold stepOf lcmStep; dsimp only; split; exacts [hR _ _ h, hC _ (hM.goto _ _ _ h)]
    case euclid => exact euclidStep_keeps hC hM (fun v t h => finish_outcome false false rfl h) h
    all_goals exact hC _ h
  case modinv =>
    cases ph
    case start => unfold stepOf modinvStep; dsimp only; split; exacts [hR _ _ h, hC _ (hM.goto _ _ _ h)]
    case bezout => exact bezoutStep_keeps hC hM (fun v b t h => finish_outcome false b rfl h) h
    all_goals exact hC _ h
  case modexp =>
    cases ph
    case start => unfold stepOf modexpStep; dsimp only; split; exacts [hR _ _ h, hC _ (hM.goto _ _ _ h)]
    case power => exact powerStep_keeps hC hM (fun v t h => finish_outcome false false rfl h) h
    all_goals exact hC _ h
  case mrtest rd rs1 k =>
    have hr : ∀ v t, Moved (.mrtest rd rs1 k) u t → Outcome (.mrtest rd rs1 k) u (mrtestDone rd v t) :=
      fun v t h => finish_outcome v false rfl h
    cases ph
    case start =>
      unfold stepOf mrtestStep; dsimp only; split; exacts [hR _ _ h, mrBegin_keeps hC hM hr h]
    case witness => exact mrStep_keeps (k := k.toNat) hC (moved_draws _ rfl u) hr .witness h
    case power => exact mrStep_keeps hC (moved_draws _ rfl u) hr .power h
    case square => exact mrStep_keeps hC (moved_draws _ rfl u) hr .square h
    all_goals exact hC _ h
  case primegen rd nbits k =>
    have hr : ∀ v t, Moved (.primegen rd nbits k) u t → Outcome (.primegen rd nbits k) u (primegenDone rd v t) :=
      fun v t h => finish_outcome false false rfl h
    cases ph
    case start =>
      unfold stepOf primegenStep; dsimp only; split
      · exact hR _ _ h
      · split
        · exact sampleBegin_keeps hC hM (hR _) h
        · exact hR _ _ h
    case candidate => exact sampleStep_keeps (b := nbits.toNat) (k := k.toNat) hC (moved_counts _ rfl rfl u) (hR _) hr .candidate h
    case witness => exact sampleStep_keeps (b := nbits.toNat) (k := k.toNat) hC (moved_counts _ rfl rfl u) (hR _) hr .witness h
    case power => exact sampleStep_keeps (b := nbits.toNat) (k := k.toNat) hC (moved_counts _ rfl rfl u) (hR _) hr .power h
    case square => exact sampleStep_keeps (b := nbits.toNat) (k := k.toNat) hC (moved_counts _ rfl rfl u) (hR _) hr .square h
    all_goals exact hC _ h
  case keyderive rd rs1 rs2 =>
    have hd : ∀ ph, Outcome (.keyderive rd rs1 rs2) u (deriveStep rd ph t) :=
      fun ph => deriveStep_keeps hC hM (fun ws b t hw h => finish_outcome false b hw h) ph h
    cases ph
    case start =>
      unfold stepOf keyderiveStep; dsimp only
      repeat' split
      all_goals first | exact hR _ _ h | exact hC _ (hM.goto _ _ _ (hM.work _ _ h))
    case euclid => exact hd .euclid
    case bezout => exact hd .bezout
    all_goals exact hC _ h
  case keygen rd nbits k =>
    have hd : ∀ ph, Outcome (.keygen rd nbits k) u (deriveStep rd ph t) :=
      fun ph => deriveStep_keeps hC hM (fun ws b t hw h => finish_outcome false b hw h) ph h
    have hr : ∀ v t, Moved (.keygen rd nbits k) u t → Outcome (.keygen rd nbits k) u (keygenSampled v t) := by
      intro v t h
      unfold keygenSampled
      split
      · split
        · exact sampleBegin_keeps hC hM (hR _) h
        · exact hC _ (hM.goto _ _ _ (hM.work _ _ h))
      · exact sampleBegin_keeps hC hM (hR _) (hM.work _ _ h)
    cases ph
    case start =>
      unfold stepOf keygenStep; dsimp only
      repeat' split
      all_goals first | exact hR _ _ h | exact sampleBegin_keeps hC hM (hR _) h
    case candidate => exact sampleStep_keeps (b := nbits.toNat / 2) (k := k.toNat) hC (moved_counts _ rfl rfl u) (hR _) hr .candidate h
    case witness => exact sampleStep_keeps (b := nbits.toNat / 2) (k := k.toNat) hC (moved_counts _ rfl rfl u) (hR _) hr .witness h
    case power => exact sampleStep_keeps (b := nbits.toNat / 2) (k := k.toNat) hC (moved_counts _ rfl rfl u) (hR _) hr .power h
    case square => exact sampleStep_keeps (b := nbits.toNat / 2) (k := k.toNat) hC (moved_counts _ rfl rfl u) (hR _) hr .square h
    case euclid => exact hd .euclid
    case bezout => exact hd .bezout

theorem issue_busy (w : Word) (s : State) : (issue w s).busy = true := by
  unfold issue; split
  · rfl
  · next h => exact busy_of_run h

theorem Outcome.moved_of_run {i : Instr} {u t : State} {ph : Phase} (h : Outcome i u t) (ht : t.seq = .run ph) :
    Moved i u t := by
  cases h with
  | runs _ h => exact h
  | completes => cases ht
  | raises => cases ht

/-- Everything that a turn of a command can do (R24, R26, R202, R203), from the state in which it was accepted or goes on. -/
theorem exec_outcome (i : Instr) (s : State) :
    ∃ t, exec i s = .next t ∧ Outcome i (issue (encode i) (spendTurn s)) t := by
  refine ⟨_, exec_eq i s, ?_⟩
  exact runTurn_keeps (stepOf i) (Outcome i (issue (encode i) (spendTurn s)))
    (fun ph t h ht => stepOf_outcome i _ t ph (h.moved_of_run ht)) _ _ (.runs _ (moved_self (issue_busy _ _)))

/-- An illegal word never runs on: its turn leaves it accepted or raises EILL
(R204). -/
theorem illegal_outcome (w : Word) (s : State) :
    runCommand w illegalStep s = issue w (spendTurn s) ∨
      runCommand w illegalStep s = raise .eill (issue w (spendTurn s)) := by
  obtain ⟨ph, hph⟩ := (busy_iff _).1 (issue_busy w (spendTurn s))
  unfold runCommand
  cases s.env.turn with
  | zero => exact .inl rfl
  | succ n =>
    by_cases hw : (issue w (spendTurn s)).rngWait = true
    · rw [runTurn_waiting _ _ hw]; exact .inl rfl
    · rw [runTurn_succ _ _ hph (by simpa using hw)]
      exact .inr (runTurn_idle _ _ rfl)

/-- Everything that running a command word can do (R204). -/
theorem dispatch_outcome (w : Word) (s : State) :
    ∃ t, dispatch w s = .next t ∧
      ((∃ i, decode w = .ok i ∧ Outcome i (issue (encode i) (spendTurn s)) t) ∨
        ((∃ e, decode w = .error e) ∧
          (t = issue w (spendTurn s) ∨ t = raise .eill (issue w (spendTurn s))))) := by
  unfold dispatch
  cases h : decode w with
  | ok i => obtain ⟨t, h1, h2⟩ := exec_outcome i s; exact ⟨t, h1, .inl ⟨i, rfl, h2⟩⟩
  | error e => exact ⟨_, rfl, .inr ⟨⟨_, rfl⟩, illegal_outcome w s⟩⟩

/-- Without internal steps the sequencer's turn changes nothing (R70). -/
theorem resume_of_turn_zero {s : State} (h : s.env.turn = 0) : resume s = .next s := by
  have e : spendTurn s = s := by unfold spendTurn; rw [← h]
  cases hs : s.seq with
  | idle => unfold resume; rw [hs]; exact congrArg _ e
  | run ph =>
    have hi : ∀ w, issue w (spendTurn s) = s := fun w => by rw [e, issue_running w (busy_of_run hs)]
    unfold resume; rw [hs]
    show dispatch s.lastcmd s = _
    unfold dispatch
    cases decode s.lastcmd with
    | ok i => show exec i s = _; rw [exec_eq, runCommand, h, hi]; rfl
    | error _ => show Host.Outcome.next (runCommand _ _ s) = _; rw [runCommand, h, hi]; rfl

/-- An arrival that accepts no command and carries no internal step does what serving it does. -/
theorem step_of_turn_zero {s : State} {input : Input} (h : acceptedWord input (s.begun 0) = none)
    (ht : (serve input (s.begun 0)).env.turn = 0) :
    step (s.withArrival { input := input, turn := 0 }) = .next (serve input (s.begun 0)) := by
  show serveArrival _ = _
  unfold serveArrival
  show (match acceptedWord input (s.begun 0) with
    | some w => dispatch w (s.begun 0)
    | none => resume (serve input (s.begun 0))) = _
  rw [h]; exact resume_of_turn_zero ht

end Sys2Proof.Machine
end

