-- ==== Sys2Proof/Laws/Accesses.lean ====
section
/-! SUPPORT. One step whose arrival is an aligned access of the window (R65), and what STATUS reads (R35). -/

namespace Sys2Proof.Machine

/-- The state in which an arrival placed first is served. -/
theorem withArrival_beginStep (s : State) (a : Arrival) : (s.withArrival a).beginStep = s.begun a.turn := rfl

/-- One step of a running command: the input is served and the command goes on (R26, R70). -/
theorem step_of_running {s : State} (a : Arrival) (hb : s.busy = true) :
    step (s.withArrival a) = resume (serve a.input (s.begun a.turn)) := by
  show (match acceptedWord a.input (s.begun a.turn) with
    | some w => dispatch w (s.begun a.turn)
    | none => resume (serve a.input (s.begun a.turn))) = _
  rw [acceptedWord_of_busy (s := s.begun a.turn) hb]

/-- Serving an input leaves the turn. -/
theorem Served.turn_eq {s t : State} (h : Served s t) : t.env.turn = s.env.turn := by cases h <;> rfl

/-- A write of a window offset that is not CMD gets no word accepted. -/
theorem acceptedWord_of_not_cmd (s : State) (off n : Nat) (size : AccessSize) (v : Word) (h : off < 0x2000)
    (hc : targetAt s.params off ≠ .cmd) :
    acceptedWord (.access (.write (s.params.base + off) size v)) (s.begun n) = none := by
  unfold acceptedWord
  dsimp only
  rw [show (s.begun n).params = s.params from rfl, windowOffset_base h]
  dsimp only
  rw [if_neg (by simp [hc])]

/-- Serving an aligned 32-bit write (R65). -/
theorem serve_write (s : State) (off n : Nat) (v : Word) (h : off < 0x2000) (h4 : off % 4 = 0) :
    serve (.access (memWrite s.params off v)) (s.begun n) = writeTarget v (s.begun n) (targetAt s.params off) := by
  unfold serve serveAccess memWrite
  dsimp only
  rw [show (s.begun n).params = s.params from rfl, windowOffset_base h]
  show busWrite .b32 off v (s.begun n) = _
  unfold busWrite; rw [if_pos (by simp [wellFormedAccess, h4])]; rfl

/-- One step that serves an aligned 32-bit write elsewhere than CMD. -/
theorem step_write (s : State) (off n : Nat) (v : Word) (h : off < 0x2000) (h4 : off % 4 = 0)
    (hc : targetAt s.params off ≠ .cmd) :
    step (s.withArrival (arrive (memWrite s.params off v) n))
      = resume (writeTarget v (s.begun n) (targetAt s.params off)) := by
  show (match acceptedWord (.access (memWrite s.params off v)) (s.begun n) with
    | some w => dispatch w (s.begun n)
    | none => resume (serve (.access (memWrite s.params off v)) (s.begun n))) = _
  rw [memWrite, acceptedWord_of_not_cmd s off n .b32 v h hc, ← serve_write s off n v h h4]
  rfl

/-- One step that serves an aligned 32-bit write elsewhere than CMD, with no internal step after it. -/
theorem step_write_zero (s : State) (off : Nat) (v : Word) (h : off < 0x2000) (h4 : off % 4 = 0)
    (hc : targetAt s.params off ≠ .cmd) :
    step (s.withArrival (arrive (memWrite s.params off v) 0))
      = .next (writeTarget v (s.begun 0) (targetAt s.params off)) := by
  rw [← serve_write s off 0 v h h4]
  exact step_of_turn_zero (acceptedWord_of_not_cmd s off 0 _ v h hc) (Served.turn_eq (serve_served _ _))

/-- One step that serves an aligned 32-bit read of a mapped offset, with no internal step after it (R66). -/
theorem step_read_zero (s : State) (off : Nat) (h : off < 0x2000) (h4 : off % 4 = 0)
    (hc : targetAt s.params off ≠ .unmapped) :
    step (s.withArrival (arrive (memRead s.params off) 0))
      = .next (respond (readTarget s (targetAt s.params off)) (s.begun 0)) := by
  have e : serve (.access (memRead s.params off)) (s.begun 0)
      = respond (readTarget s (targetAt s.params off)) (s.begun 0) := by
    unfold serve serveAccess memRead
    dsimp only
    rw [show (s.begun 0).params = s.params from rfl, windowOffset_base h]
    show busRead .b32 off (s.begun 0) = _
    unfold busRead; rw [if_pos (by simp [wellFormedAccess, h4]), show (s.begun 0).params = s.params from rfl]
    have hr : ∀ t, readTarget (s.begun 0) t = readTarget s t := by intro t; cases t <;> rfl
    cases ht : targetAt s.params off <;> first | exact absurd ht hc | (dsimp only; rw [hr])
  rw [← e]
  exact step_of_turn_zero rfl (Served.turn_eq (serve_served _ _))

/-- The bits of the word STATUS reads (R35), of a state whose stored bits are `st`. -/
theorem statusWord_bit (st : Status) (s : State) (b : Nat) (hb : b < 32) :
    ({ s with status := st } : State).statusWord.getLsbD b =
      if b = 0 then s.busy else if b = 1 then st.done else if b = 2 then st.err else if b = 3 then st.result
      else if b = 4 then st.noinv else if b = 5 then s.rngWait else if b = 6 then st.accerr
      else if b = 7 then st.cmdovr else if b = 8 then st.fovf else if b < 16 then false
      else if b < 24 then (ecodeField st.ecode).getLsbD (b - 16) else false := by
  have h : ({ s with status := st } : State).statusWord = 0#8 ++ ecodeField st.ecode ++ 0#7 ++ BitVec.ofBool st.fovf ++
    BitVec.ofBool st.cmdovr ++ BitVec.ofBool st.accerr ++ BitVec.ofBool s.rngWait ++ BitVec.ofBool st.noinv ++
    BitVec.ofBool st.result ++ BitVec.ofBool st.err ++ BitVec.ofBool st.done ++ BitVec.ofBool s.busy := rfl
  rw [h]
  simp only [BitVec.getLsbD_append, BitVec.getLsbD_ofBool]
  generalize ecodeField st.ecode = c
  interval_cases b <;> simp

end Sys2Proof.Machine
end

