-- ==== Sys2Proof/Laws/Encoding.lean ====
section
/-! SUPPORT. The numbers behind encodings: what each field of a word is, what the fields of a formatted word are, and what
each row of the opcode map (R96) asks of a word's number. -/

namespace Sys2Proof

/-- A concatenation as a number: the upper field above the lower one. -/
theorem append_toNat {n m : Nat} (x : BitVec n) (y : BitVec m) : (x ++ y).toNat = x.toNat * 2 ^ m + y.toNat := by
  rw [BitVec.toNat_append, ← Nat.shiftLeft_add_eq_or_of_lt y.isLt, Nat.shiftLeft_eq]

/-- The number of a format R word (R92). -/
theorem formatR_toNat (op : BitVec 6) (rd a b c : RegIdx) : (formatR op rd a b c).toNat
    = op.toNat + rd.val * 2 ^ 6 + a.val * 2 ^ 9 + b.val * 2 ^ 12 + c.val * 2 ^ 15 := by
  have h : (formatR op rd a b c).toNat = (0#14 ++ regField c ++ regField b ++ regField a ++ regField rd ++ op).toNat := rfl
  rw [h]; simp only [append_toNat, regField, BitVec.toNat_ofFin, BitVec.toNat_ofNat]; omega

/-- The number of a format G word (R93). -/
theorem formatG_toNat (op : BitVec 6) (rd a : RegIdx) (n : BitVec 13) (k : BitVec 7) : (formatG op rd a n k).toNat
    = op.toNat + rd.val * 2 ^ 6 + a.val * 2 ^ 9 + n.toNat * 2 ^ 12 + k.toNat * 2 ^ 25 := by
  have h : (formatG op rd a n k).toNat = (k ++ n ++ regField a ++ regField rd ++ op).toNat := rfl
  rw [h]; simp only [append_toNat, regField, BitVec.toNat_ofFin]; omega

/-! ### The fields of a word (R91-R93) -/

theorem fieldOp_toNat (w : Word) : (fieldOp w).toNat = w.toNat % 64 := by
  simp [fieldOp]

theorem fieldRd_val (w : Word) : (fieldRd w).val = w.toNat / 64 % 8 := by
  simp [fieldRd, Nat.shiftRight_eq_div_pow]

theorem fieldRs1_val (w : Word) : (fieldRs1 w).val = w.toNat / 512 % 8 := by
  simp [fieldRs1, Nat.shiftRight_eq_div_pow]

theorem fieldRs2_val (w : Word) : (fieldRs2 w).val = w.toNat / 4096 % 8 := by
  simp [fieldRs2, Nat.shiftRight_eq_div_pow]

theorem fieldRs3_val (w : Word) : (fieldRs3 w).val = w.toNat / 32768 % 8 := by
  simp [fieldRs3, Nat.shiftRight_eq_div_pow]

theorem fieldNbits_toNat (w : Word) : (fieldNbits w).toNat = w.toNat / 4096 % 8192 := by
  simp [fieldNbits, Nat.shiftRight_eq_div_pow]

theorem fieldK_toNat (w : Word) : (fieldK w).toNat = w.toNat / 33554432 := by
  simp [fieldK, Nat.shiftRight_eq_div_pow]; omega

/-- The fields of a format R word are those it was built from. -/
theorem field_formatR (op : BitVec 6) (rd a b c : RegIdx) :
    fieldOp (formatR op rd a b c) = op ∧ fieldRd (formatR op rd a b c) = rd ∧ fieldRs1 (formatR op rd a b c) = a ∧
      fieldRs2 (formatR op rd a b c) = b ∧ fieldRs3 (formatR op rd a b c) = c := by
  have h := formatR_toNat op rd a b c
  refine ⟨?_, ?_, ?_, ?_, ?_⟩
  · apply BitVec.eq_of_toNat_eq; rw [fieldOp_toNat, h]; omega
  all_goals
    apply Fin.ext
    simp only [fieldRd_val, fieldRs1_val, fieldRs2_val, fieldRs3_val, h]; omega

/-- The fields of a format G word are those it was built from. -/
theorem field_formatG (op : BitVec 6) (rd a : RegIdx) (n : BitVec 13) (k : BitVec 7) :
    fieldOp (formatG op rd a n k) = op ∧ fieldRd (formatG op rd a n k) = rd ∧ fieldRs1 (formatG op rd a n k) = a ∧
      fieldNbits (formatG op rd a n k) = n ∧ fieldK (formatG op rd a n k) = k := by
  have h := formatG_toNat op rd a n k
  refine ⟨?_, ?_, ?_, ?_, ?_⟩
  · apply BitVec.eq_of_toNat_eq; rw [fieldOp_toNat, h]; omega
  · apply Fin.ext
    rw [fieldRd_val, h]; omega
  · apply Fin.ext
    rw [fieldRs1_val, h]; omega
  · apply BitVec.eq_of_toNat_eq; rw [fieldNbits_toNat, h]; omega
  · apply BitVec.eq_of_toNat_eq; rw [fieldK_toNat, h]; omega

/-! ### Masks -/

theorem spells_iff (r : OpcodeRow) (w : Word) :
    r.spells w = true ↔ w &&& r.mask = r.pattern := by simp [OpcodeRow.spells]

/-- A conjunction cut at bit `k`. -/
theorem and_split (x y k : Nat) : x &&& y = (x % 2 ^ k &&& y % 2 ^ k) + 2 ^ k * (x / 2 ^ k &&& y / 2 ^ k) := by
  rw [← Nat.and_mod_two_pow, ← Nat.and_div_two_pow, Nat.mod_add_div]

theorem and_ones (x k : Nat) : x &&& (2 ^ k - 1) = x % 2 ^ k := Nat.and_two_pow_sub_one_eq_mod x k

/-- The mask of the format R rows with two sources (R96). -/
theorem maskR_toNat (x : Nat) (hx : x < 2 ^ 32) : x &&& 0xFFFF803F = x % 64 + x / 32768 * 32768 := by
  rw [and_split x _ 6, and_split (x / 2 ^ 6) _ 9]
  have a := and_ones (x % 2 ^ 6) 6
  have b := and_ones (x / 2 ^ 6 / 2 ^ 9) 17
  norm_num at a b ⊢
  rw [a, b]; omega

/-- The mask of the row of MODEXP (R96). -/
theorem maskExp_toNat (x : Nat) (hx : x < 2 ^ 32) : x &&& 0xFFFC003F = x % 64 + x / 262144 * 262144 := by
  rw [and_split x _ 6, and_split (x / 2 ^ 6) _ 12]
  have a := and_ones (x % 2 ^ 6) 6
  have b := and_ones (x / 2 ^ 6 / 2 ^ 12) 14
  norm_num at a b ⊢
  rw [a, b]; omega

/-- The mask of the row of MRTEST (R96). -/
theorem maskMr_toNat (x : Nat) : x &&& 0x01FFF03F = x % 64 + x / 4096 % 8192 * 4096 := by
  rw [and_split x _ 6, and_split (x / 2 ^ 6) _ 6]
  have a := and_ones (x % 2 ^ 6) 6
  have b := and_ones (x / 2 ^ 6 / 2 ^ 6) 13
  norm_num at a b ⊢
  rw [a, b]; omega

/-- The mask of the rows of PRIMEGEN and KEYGEN (R96). -/
theorem maskGen_toNat (x : Nat) : x &&& 0x00000E3F = x % 64 + x / 512 % 8 * 512 := by
  rw [and_split x _ 6, and_split (x / 2 ^ 6) _ 3]
  have a := and_ones (x % 2 ^ 6) 6
  have b := and_ones (x / 2 ^ 6 / 2 ^ 3) 3
  norm_num at a b ⊢
  rw [a, b]; omega

theorem spells_toNat (r : OpcodeRow) (w : Word) : r.spells w = true ↔ w.toNat &&& r.mask.toNat = r.pattern.toNat := by
  rw [spells_iff, ← BitVec.toNat_inj, BitVec.toNat_and]

/-! ### What each row asks of a word (R96) -/

theorem rowGcd_spells (w : Word) : rowGcd.spells w = true ↔ w.toNat % 64 = 1 ∧ w.toNat / 32768 = 0 := by
  rw [spells_toNat]; have := maskR_toNat _ w.isLt; simp [rowGcd]; omega

theorem rowLcm_spells (w : Word) : rowLcm.spells w = true ↔ w.toNat % 64 = 2 ∧ w.toNat / 32768 = 0 := by
  rw [spells_toNat]; have := maskR_toNat _ w.isLt; simp [rowLcm]; omega

theorem rowModinv_spells (w : Word) : rowModinv.spells w = true ↔ w.toNat % 64 = 3 ∧ w.toNat / 32768 = 0 := by
  rw [spells_toNat]; have := maskR_toNat _ w.isLt; simp [rowModinv]; omega

theorem rowKeyderive_spells (w : Word) : rowKeyderive.spells w = true ↔ w.toNat % 64 = 7 ∧ w.toNat / 32768 = 0 := by
  rw [spells_toNat]; have := maskR_toNat _ w.isLt; simp [rowKeyderive]; omega

theorem rowModexp_spells (w : Word) : rowModexp.spells w = true ↔ w.toNat % 64 = 4 ∧ w.toNat / 262144 = 0 := by
  rw [spells_toNat]; have := maskExp_toNat _ w.isLt; simp [rowModexp]; omega

theorem rowMrtest_spells (w : Word) : rowMrtest.spells w = true ↔ w.toNat % 64 = 5 ∧ w.toNat / 4096 % 8192 = 0 := by
  rw [spells_toNat]; have := maskMr_toNat w.toNat; simp [rowMrtest]; omega

theorem rowPrimegen_spells (w : Word) : rowPrimegen.spells w = true ↔ w.toNat % 64 = 6 ∧ w.toNat / 512 % 8 = 0 := by
  rw [spells_toNat]; have := maskGen_toNat w.toNat; simp [rowPrimegen]; omega

theorem rowKeygen_spells (w : Word) : rowKeygen.spells w = true ↔ w.toNat % 64 = 8 ∧ w.toNat / 512 % 8 = 0 := by
  rw [spells_toNat]; have := maskGen_toNat w.toNat; simp [rowKeygen]; omega

/-! ### Formatted words -/

theorem formatR_op (op : BitVec 6) (rd a b c : RegIdx) : (formatR op rd a b c).toNat % 64 = op.toNat := by
  rw [formatR_toNat]; omega

theorem formatG_op (op : BitVec 6) (rd a : RegIdx) (n : BitVec 13) (k : BitVec 7) :
    (formatG op rd a n k).toNat % 64 = op.toNat := by
  rw [formatG_toNat]; omega

theorem formatR_hi (op : BitVec 6) (rd a b : RegIdx) : (formatR op rd a b 0).toNat / 32768 = 0 := by
  rw [formatR_toNat]; simp; omega

theorem formatR_hi' (op : BitVec 6) (rd a b c : RegIdx) : (formatR op rd a b c).toNat / 262144 = 0 := by
  rw [formatR_toNat]; omega

theorem formatG_n (op : BitVec 6) (rd a : RegIdx) (k : BitVec 7) :
    (formatG op rd a 0#13 k).toNat / 4096 % 8192 = 0 := by
  rw [formatG_toNat]; simp; omega

theorem formatG_rs (op : BitVec 6) (rd : RegIdx) (n : BitVec 13) (k : BitVec 7) :
    (formatG op rd 0 n k).toNat / 512 % 8 = 0 := by
  rw [formatG_toNat]; simp; omega

end Sys2Proof
end

