-- ==== Sys2Proof/Laws/Issue.lean ====
section
/-! SUPPORT. A command from its acceptance to its end: what the snapshot of its word holds (R24, R25), its first internal
step, and how a run that reaches a completion reads as `succeeded` or `failed`. -/

namespace Sys2Proof.Machine

/-- The snapshot of a format R command (R24). -/
theorem snapshot_formatR (x : Vector Nat 8) (op : BitVec 6) (rd a b c : RegIdx) :
    snapshot x (formatR op rd a b c) = { Work.zero with a := x[a], b := x[b], c := x[c] } := by
  simp only [snapshot, field_formatR]

/-- The first operand of the snapshot of a format G command (R24). -/
theorem snapshot_formatG_a (x : Vector Nat 8) (op : BitVec 6) (rd a : RegIdx) (n : BitVec 13) (k : BitVec 7) :
    (snapshot x (formatG op rd a n k)).a = x[a] := by
  simp only [snapshot, field_formatG]

/-- The first internal step after acceptance is that of the command's start (R26). -/
theorem start_reaches {f : Phase → State → State} {s : State} {w : Word} :
    Reaches f 1 (accept w (spendTurn s))
      (f .start ((spendTurn s).during w 0 s.source .start (snapshot s.x w))) := by
  rw [accept_eq_during]; exact Reaches.one rfl (rngWait_of_not_draws rfl rfl)

/-- A run that reaches successful completion within its turn (R202). -/
theorem runCommand_succeeds {f : Phase → State → State} {j : Nat} {s : State} {w att : Word} {ph : Phase} {wk : Work}
    {writes : List (RegIdx × Nat)} {res noinv : Bool} {rest : List Word} (h : s.seq = .idle)
    (hr : Reaches f j (accept w (spendTurn s)) (complete writes res noinv ((spendTurn s).during w att rest ph wk)))
    (hm : j ≤ s.env.turn) : runCommand w f s = (s.succeeded w att writes res noinv).withSource rest := by
  rw [runCommand_of_reaches h hr rfl hm]; rfl

/-- A run that reaches error completion within its turn (R203). -/
theorem runCommand_fails {f : Phase → State → State} {j : Nat} {s : State} {w att : Word} {ph : Phase} {wk : Work}
    {e : ErrCode} {rest : List Word} (h : s.seq = .idle)
    (hr : Reaches f j (accept w (spendTurn s)) (raise e ((spendTurn s).during w att rest ph wk)))
    (hm : j ≤ s.env.turn) : runCommand w f s = (s.failed w att e).withSource rest := by
  rw [runCommand_of_reaches h hr rfl hm]; rfl

/-- A success that takes no word leaves the source as it was. -/
@[simp] theorem succeeded_withSource_self (s : State) (w att : Word) (writes : List (RegIdx × Nat)) (res noinv : Bool) :
    (s.succeeded w att writes res noinv).withSource s.source = s.succeeded w att writes res noinv := by
  rw [← succeeded_source s w att writes res noinv, withSource_self]

/-- An error that takes no word leaves the source as it was. -/
@[simp] theorem failed_withSource_self (s : State) (w att : Word) (e : ErrCode) :
    (s.failed w att e).withSource s.source = s.failed w att e := by
  rw [← failed_source s w att e, withSource_self]

/-- One result fits if it is below `2^W` (R7). -/
theorem fits_one {p : Params} {rd : RegIdx} {v : Nat} : fits p [(rd, v)] = true ↔ v < 2 ^ p.width := by simp [fits]

/-- Writing pairs leaves every register that none of them names. -/
theorem writeAll_frame (x : Vector Nat 8) (ws : List (RegIdx × Nat)) (r : RegIdx) (h : r ∉ ws.map (·.1)) :
    (writeAll x ws)[r] = x[r] := by
  induction ws generalizing x with
  | nil => rfl
  | cons p ws ih =>
    simp only [List.map_cons, List.mem_cons, not_or] at h
    have hs := ih (x.set p.1 p.2) h.2
    show (writeAll (x.set p.1 p.2) ws)[r] = _
    rw [hs]
    have hne : p.1.val ≠ r.val := fun e => h.1 (Fin.ext e.symm)
    simp [hne]

/-- What the three writes of a key command leave (R97). -/
theorem writeAll_keyWrites {x : Vector Nat 8} {rd : RegIdx} (h : rd.val ≤ 5) (bigN d n : Nat) :
    (writeAll x (keyWrites rd bigN d n))[rd.val] = bigN ∧ (writeAll x (keyWrites rd bigN d n))[rd.val + 1] = d ∧
      (writeAll x (keyWrites rd bigN d n))[rd.val + 2] = n := by
  have h1 : (destPlus rd 1).val = rd.val + 1 := by simp [destPlus]; omega
  have h2 : (destPlus rd 2).val = rd.val + 2 := by simp [destPlus]; omega
  simp [writeAll, keyWrites, h1, h2]

end Sys2Proof.Machine
end

