-- ==== Sys2Proof/Laws/Numbers.lean ====
section
/-! SUPPORT. Number theory behind the algorithms: the split of R155, the square roots of 1 modulo a prime on which
R159 rests, and the uniqueness of the inverse (R127). -/

namespace Sys2Proof.Machine

theorem splitTwos_eq (fuel m : Nat) : m = 2 ^ (splitTwos fuel m).1 * (splitTwos fuel m).2 := by
  induction fuel generalizing m with
  | zero => simp [splitTwos]
  | succ f ih =>
    unfold splitTwos; split
    · have := ih (m / 2)
      simp only
      rw [pow_succ, Nat.mul_assoc, Nat.mul_comm 2, ← Nat.mul_assoc, ← this]
      omega
    · simp

/-- R155: `n - 1 = 2^s * r`. -/
theorem oddSplit_eq (n : Nat) : n - 1 = 2 ^ (oddSplit n).1 * (oddSplit n).2 := splitTwos_eq _ _

/-- Modulo a prime, 1 has no square root but 1 and -1. -/
theorem sqrt_one_of_prime {n y : Nat} (hn : n.Prime) (hy : y < n) (h : y * y % n = 1 % n) : y = 1 ∨ y = n - 1 := by
  have h2 := hn.two_le
  have hm : y * y ≡ 1 [MOD n] := h
  have hd : (n : Int) ∣ (y : Int) * y - 1 := by simpa using Nat.modEq_iff_dvd.1 hm.symm
  have hp : (n : Int) ∣ (y - 1) * (y + 1) := by convert hd using 1; ring
  rcases (Nat.prime_iff_prime_int.1 hn).dvd_or_dvd hp with h | h
  · left
    rcases Nat.eq_zero_or_pos y with h0 | h0
    · subst h0; simp at h; have := Int.le_of_dvd one_pos h; omega
    · have h1 := Int.emod_eq_zero_of_dvd h
      rw [Int.emod_eq_of_lt (by omega) (by omega)] at h1; omega
  · right
    have := Int.le_of_dvd (by omega) h
    omega

/-- What R127 says of the result of `ModInv` determines the value and the no-inverse bit. -/
theorem isModInv_unique {a n v v' : Nat} {f f' : Bool} (h : Pseudocode.IsModInv a n v f)
    (h' : Pseudocode.IsModInv a n v' f') : v = v' ∧ f = f' := by
  by_cases hg : Nat.gcd a n = 1
  · obtain ⟨e, hv, hm⟩ := h.1 hg
    obtain ⟨e', hv', hm'⟩ := h'.1 hg
    have hc : a * v ≡ a * v' [MOD n] := hm.trans hm'.symm
    exact ⟨(Nat.ModEq.cancel_left_of_coprime (by rw [Nat.gcd_comm]; exact hg) hc).eq_of_lt_of_lt hv hv',
      e.trans e'.symm⟩
  · obtain ⟨e, hv⟩ := h.2 hg
    obtain ⟨e', hv'⟩ := h'.2 hg
    exact ⟨hv.trans hv'.symm, e.trans e'.symm⟩

end Sys2Proof.Machine
end

