-- ==== Sys2Proof/Laws/PerInstr.lean ====
section
/-! SUPPORT. Facts about every command as syntax, one lemma per constructor: the word of a command, well formed or not,
matches the command's own row of the opcode map (R96). -/

namespace Sys2Proof.Laws

/-- The row of the opcode map that spells a command (R96). -/
def rowOf : Instr → OpcodeRow
  | .gcd _ _ _ => rowGcd
  | .lcm _ _ _ => rowLcm
  | .modinv _ _ _ => rowModinv
  | .modexp _ _ _ _ => rowModexp
  | .mrtest _ _ _ => rowMrtest
  | .primegen _ _ _ => rowPrimegen
  | .keyderive _ _ _ => rowKeyderive
  | .keygen _ _ _ => rowKeygen

/-- R96: "a word `w` spells the command if and only if `(w & mask) == match`", of the command's own word. -/
def WordMatchesRow.Statement (i : Instr) : Prop := (rowOf i).spells (encode i) = true

theorem WordMatchesRow.gcd (rd rs1 rs2 : RegIdx) : WordMatchesRow.Statement (.gcd rd rs1 rs2) :=
  (rowGcd_spells _).2 ⟨formatR_op _ _ _ _ _, formatR_hi _ _ _ _⟩

theorem WordMatchesRow.lcm (rd rs1 rs2 : RegIdx) : WordMatchesRow.Statement (.lcm rd rs1 rs2) :=
  (rowLcm_spells _).2 ⟨formatR_op _ _ _ _ _, formatR_hi _ _ _ _⟩

theorem WordMatchesRow.modinv (rd rs1 rs2 : RegIdx) : WordMatchesRow.Statement (.modinv rd rs1 rs2) :=
  (rowModinv_spells _).2 ⟨formatR_op _ _ _ _ _, formatR_hi _ _ _ _⟩

theorem WordMatchesRow.modexp (rd rs1 rs2 rs3 : RegIdx) : WordMatchesRow.Statement (.modexp rd rs1 rs2 rs3) :=
  (rowModexp_spells _).2 ⟨formatR_op _ _ _ _ _, formatR_hi' _ _ _ _ _⟩

theorem WordMatchesRow.mrtest (rd rs1 : RegIdx) (k : BitVec 7) : WordMatchesRow.Statement (.mrtest rd rs1 k) :=
  (rowMrtest_spells _).2 ⟨formatG_op _ _ _ _ _, formatG_n _ _ _ _⟩

theorem WordMatchesRow.primegen (rd : RegIdx) (nbits : BitVec 13) (k : BitVec 7) :
    WordMatchesRow.Statement (.primegen rd nbits k) :=
  (rowPrimegen_spells _).2 ⟨formatG_op _ _ _ _ _, formatG_rs _ _ _ _⟩

theorem WordMatchesRow.keyderive (rd rs1 rs2 : RegIdx) : WordMatchesRow.Statement (.keyderive rd rs1 rs2) :=
  (rowKeyderive_spells _).2 ⟨formatR_op _ _ _ _ _, formatR_hi _ _ _ _⟩

theorem WordMatchesRow.keygen (rd : RegIdx) (nbits : BitVec 13) (k : BitVec 7) :
    WordMatchesRow.Statement (.keygen rd nbits k) :=
  (rowKeygen_spells _).2 ⟨formatG_op _ _ _ _ _, formatG_rs _ _ _ _⟩

end Sys2Proof.Laws
end

