-- ==== Sys2Proof/Laws/Random.lean ====
section
/-! SUPPORT. The sequencer computes the randomised functions of the spec: `RandBits`, `DrawWitness`, the rounds of
`MillerRabin` and `PrimeSample` as relations on words (Pseudocode) are what its internal steps reach. -/

namespace Sys2Proof.Machine

open Pseudocode

theorem reaches_eq {f : Phase → State → State} {j : Nat} {s t u : State} (h : Reaches f j s t) (e : t = u) :
    Reaches f j s u := e ▸ h

/-! ### RandBits -/

/-- The words of `RandBits(b)` (R152) that are still to be taken end in `ret` with the value assembled. -/
theorem draw_reaches {f : Phase → State → State} {ret : Nat → State → State} {b : Nat} {ph : Phase} {s : State}
    {w att : Word} {wk : Work}
    (hf : ∀ rest acc got, f ph (s.during w att rest ph { wk with acc := acc, got := got })
      = drawStep b ph ret (s.during w att rest ph { wk with acc := acc, got := got }))
    (v : Word) (ws rest : List Word) (acc got : Nat) (hlen : got + (ws.length + 1) = wordsFor b) :
    ∃ a g, Reaches f (ws.length + 1) (s.during w att (v :: ws ++ rest) ph { wk with acc := acc, got := got })
      (ret ((acc + 2 ^ (32 * got) * assemble (v :: ws)) % 2 ^ b)
        (s.during w att rest ph { wk with acc := a, got := g })) := by
  induction ws generalizing v acc got with
  | nil =>
    have h1 := Reaches.one (f := f) (s := s.during w att (v :: [] ++ rest) ph { wk with acc := acc, got := got })
      (during_seq ..) (rngWait_of_source (w := v) (ws := rest) (by simp))
    rw [hf, drawStep, takeWord_cons (w := v) (ws := rest) (by simp)] at h1
    refine ⟨acc, got, reaches_eq h1 ?_⟩
    simp only [List.length_nil] at hlen
    simp [assemble, ← hlen, Nat.mul_comm]
  | cons u us ih =>
    have h1 := Reaches.one (f := f) (s := s.during w att (v :: u :: us ++ rest) ph { wk with acc := acc, got := got })
      (during_seq ..) (rngWait_of_source (w := v) (ws := u :: us ++ rest) (by simp))
    rw [hf, drawStep, takeWord_cons (w := v) (ws := u :: us ++ rest) (by simp)] at h1
    obtain ⟨a, g, h2⟩ := ih u (acc + v.toNat * 2 ^ (32 * got)) (got + 1) (by simp at hlen ⊢; omega)
    refine ⟨a, g, reaches_eq (h1.trans (reaches_eq (s := _) ?_ rfl)) rfl⟩
    have e : got + 1 < wordsFor b := by simp at hlen; omega
    simp only [during_work, e, if_true, during_withSource, during_goto]
    refine reaches_eq h2 ?_
    congr 2
    simp only [assemble]; ring

/-- A whole `RandBits(b)` (R152). -/
theorem randBits_reaches {f : Phase → State → State} {ret : Nat → State → State} {b : Nat} {ph : Phase} {s : State}
    {w att : Word} {wk : Work} (hb : 0 < b)
    (hf : ∀ rest acc got, f ph (s.during w att rest ph { wk with acc := acc, got := got })
      = drawStep b ph ret (s.during w att rest ph { wk with acc := acc, got := got }))
    {ws rest : List Word} {u : Nat} (h : RandBits b ws u rest) :
    ∃ j a g, Reaches f j (s.during w att ws ph { wk with acc := 0, got := 0 })
      (ret u (s.during w att rest ph { wk with acc := a, got := g })) := by
  cases h with
  | mk ws _ count =>
    cases ws with
    | nil => simp [wordsFor] at count; omega
    | cons v ws =>
      obtain ⟨a, g, h⟩ := draw_reaches hf v ws rest 0 0 (by simpa using count)
      exact ⟨_, a, g, by simpa using h⟩

/-! ### MillerRabin -/

/-- The internal step `f` runs `MillerRabin(n, k)` (R156) with the continuation `ret`. -/
structure RunsMr (f : Phase → State → State) (k : Nat) (ret : Bool → State → State) : Prop where
  witness : ∀ s, f .witness s = mrStep k ret .witness s
  power : ∀ s, f .power s = mrStep k ret .power s
  square : ∀ s, f .square s = mrStep k ret .square s

/-- The working registers that `MillerRabin` leaves alone. -/
def Work.outside (w : Work) : Nat × Nat × Bool := (w.cand, w.p, w.haveP)

section mr
variable {f : Phase → State → State} {k : Nat} {ret : Bool → State → State} {s : State} {w att : Word}

theorem witness_reaches (hf : RunsMr f k ret) {n : Nat} (hn : 5 ≤ n) {ws rest : List Word} {a : Nat}
    (h : DrawWitness n ws a rest) (wk : Work) (hwn : wk.n = n) :
    ∃ j acc got, Reaches f j (s.during w att ws .witness { wk with acc := 0, got := 0 })
      (powerBegin a wk.d n (s.during w att rest .witness { wk with acc := acc, got := got })) := by
  have hb : 0 < bitlen (n - 4) := bitlen_pos (by omega)
  have hdraw : ∀ rest acc got, f .witness (s.during w att rest .witness { wk with acc := acc, got := got })
      = drawStep (bitlen (n - 4)) .witness witnessDrawn
          (s.during w att rest .witness { wk with acc := acc, got := got }) := by
    intro rest acc got; rw [hf.witness, mrStep]; simp [hwn]
  induction h with
  | accept ws rest u draw inRange =>
    obtain ⟨j, acc, got, h⟩ := randBits_reaches hb hdraw draw
    refine ⟨j, acc, got, reaches_eq h ?_⟩
    simp [witnessDrawn, hwn, inRange]
  | reject ws mid rest u a draw out again ih =>
    obtain ⟨j, acc, got, h⟩ := randBits_reaches hb hdraw draw
    obtain ⟨j', acc', got', h'⟩ := ih
    refine ⟨j' + j, acc', got', h.trans (reaches_eq (s := _) ?_ rfl)⟩
    have : ¬ u ≤ wk.n - 4 := by omega
    simpa [witnessDrawn, this, drawBegin] using h'

/-- The squaring loop (R156): it passes the round or answers 0. -/
theorem square_reaches (hf : RunsMr f k ret) (m : Nat) (rest : List Word) (wk : Work) (hsq : wk.sq + m = max wk.s wk.sq) :
    ∃ j wk', wk'.outside = wk.outside ∧ wk'.n = wk.n ∧ wk'.s = wk.s ∧ wk'.d = wk.d ∧ wk'.round = wk.round ∧
      Reaches f j (s.during w att rest .square wk)
        (if squarings wk.n m wk.y then roundPassed k ret (s.during w att rest .square wk')
         else ret false (s.during w att rest .square wk')) := by
  induction m generalizing wk with
  | zero =>
    have h1 := Reaches.one (f := f) (s := s.during w att rest .square wk) rfl (rngWait_of_not_draws rfl rfl)
    rw [hf.square, mrStep, squareStep] at h1
    have : ¬ wk.sq < wk.s := by omega
    refine ⟨1, wk, rfl, rfl, rfl, rfl, rfl, reaches_eq h1 ?_⟩
    by_cases hy : wk.y = wk.n - 1 <;> simp [this, squarings, hy]
  | succ m ih =>
    have h1 := Reaches.one (f := f) (s := s.during w att rest .square wk) rfl (rngWait_of_not_draws rfl rfl)
    rw [hf.square, mrStep, squareStep] at h1
    have hlt : wk.sq < wk.s := by omega
    by_cases hy : wk.y = wk.n - 1
    · refine ⟨1, wk, rfl, rfl, rfl, rfl, rfl, reaches_eq h1 ?_⟩
      simp [squarings, hy]
    · by_cases h1y : wk.y * wk.y % wk.n = 1
      · refine ⟨1, wk, rfl, rfl, rfl, rfl, rfl, reaches_eq h1 ?_⟩
        simp [squarings, hlt, hy, h1y]
      · obtain ⟨j, wk', e1, e2, e3, e4, e5, h2⟩ :=
          ih { wk with y := wk.y * wk.y % wk.n, sq := wk.sq + 1 } (by simp only; omega)
        refine ⟨j + 1, wk', e1, e2, e3, e4, e5, h1.trans (reaches_eq (s := _) ?_ rfl)⟩
        simpa [squarings, hlt, hy, h1y] using h2

/-- One round (R156) from its witness. -/
theorem round_reaches (hf : RunsMr f k ret) {n : Nat} (hn : 5 ≤ n) {ws rest : List Word} {a : Nat}
    (h : DrawWitness n ws a rest) (wk : Work) (hwn : wk.n = n) (hs : wk.s = (oddSplit n).1) (hd : wk.d = (oddSplit n).2) :
    ∃ j wk' ph, wk'.outside = wk.outside ∧ wk'.n = wk.n ∧ wk'.s = wk.s ∧ wk'.d = wk.d ∧ wk'.round = wk.round ∧
      Reaches f j (s.during w att ws .witness { wk with acc := 0, got := 0 })
        (if roundPasses n a then roundPassed k ret (s.during w att rest ph wk')
         else ret false (s.during w att rest ph wk')) := by
  obtain ⟨j1, acc, got, h1⟩ := witness_reaches (s := s) (w := w) (att := att) hf hn h wk hwn
  obtain ⟨base, h2⟩ := powerBegin_reaches (f := f) (ret := mrPowerDone k ret) a wk.d n
    (fun s => by rw [hf.power, mrStep]) (s.during w att rest .witness { wk with acc := acc, got := got }) (by omega)
  have h12 := h1.trans h2
  simp only [during_work, during_goto, mrPowerDone] at h12
  by_cases hy : a ^ wk.d % n = 1 ∨ a ^ wk.d % n = n - 1
  · refine ⟨_, { wk with acc := acc, got := got, y := a ^ wk.d % n, res := a ^ wk.d % n, base := base, exp := 0,
                         modulus := n }, .power, rfl, rfl, rfl, rfl, rfl, reaches_eq h12 ?_⟩
    have hp : roundPasses n a = true := by
      unfold roundPasses; rw [← hd]; rcases hy with hy | hy <;> simp [hy]
    have hy' : a ^ wk.d % n = 1 ∨ a ^ wk.d % n = wk.n - 1 := by rw [hwn]; exact hy
    rw [if_pos hp]; exact if_pos hy'
  · have hy' : ¬ (a ^ wk.d % n = 1 ∨ a ^ wk.d % n = wk.n - 1) := by rw [hwn]; exact hy
    replace h12 := reaches_eq h12 (if_neg hy')
    obtain ⟨j, wk', e1, e2, e3, e4, e5, h3⟩ := square_reaches (s := s) (w := w) (att := att) hf ((oddSplit n).1 - 1) rest
      { wk with acc := acc, got := got, y := a ^ wk.d % n, res := a ^ wk.d % n, base := base, exp := 0, modulus := n,
                sq := 1 } (by simp only [hs]; omega)
    refine ⟨_, wk', .square, e1, e2, e3, e4, e5, reaches_eq (h12.trans h3) ?_⟩
    have hp : roundPasses n a = squarings n ((oddSplit n).1 - 1) (a ^ wk.d % n) := by
      unfold roundPasses; rw [← hd]; push Not at hy; simp [hy.1, hy.2]
    rw [hp, hwn]

/-- The rounds of `MillerRabin(n, k)` (R156) from a round head with `m` rounds left. -/
theorem rounds_reaches (hf : RunsMr f k ret) {n : Nat} (hn : 5 ≤ n) {m : Nat} {ws rest : List Word} {v : Bool}
    (h : Rounds n m ws v rest) (ph : Phase) (wk : Work) (hwn : wk.n = n) (hs : wk.s = (oddSplit n).1)
    (hd : wk.d = (oddSplit n).2) (hm : wk.round + m = k) :
    ∃ j wk' ph', wk'.outside = wk.outside ∧
      Reaches f j (roundHead k ret (s.during w att ws ph wk)) (ret v (s.during w att rest ph' wk')) := by
  induction h generalizing ph wk with
  | none ws =>
    refine ⟨0, wk, ph, rfl, reaches_eq (Reaches.refl f _) ?_⟩
    have : wk.round = k := by omega
    simp [roundHead, this]
  | fail m a ws rest witness fails =>
    obtain ⟨j, wk', ph', e1, -, -, -, -, h⟩ :=
      round_reaches (s := s) (w := w) (att := att) hf hn witness wk hwn hs hd
    refine ⟨j, wk', ph', e1, ?_⟩
    have : wk.round ≠ k := by omega
    simpa [roundHead, this, drawBegin, fails] using h
  | pass m a ws mid rest v witness passes more ih =>
    obtain ⟨j, wk', ph', e1, e2, e3, e4, e5, h⟩ :=
      round_reaches (s := s) (w := w) (att := att) hf hn witness wk hwn hs hd
    obtain ⟨j', wk'', ph'', e, h'⟩ := ih ph' { wk' with round := wk'.round + 1 } (by simp only; rw [e2, hwn])
      (by simp only; rw [e3, hs]) (by simp only; rw [e4, hd]) (by simp only; omega)
    refine ⟨j' + j, wk'', ph'', e.trans e1, ?_⟩
    have : wk.round ≠ k := by omega
    simp only [passes, if_true, roundPassed] at h
    have h2 := h.trans (t := _) (u := _) h'
    simpa [roundHead, this, drawBegin] using h2

/-- `MillerRabin(n, k)` (R156) from its call. -/
theorem mrBegin_reaches (hf : RunsMr f k ret) {n : Nat} {ws rest : List Word} {v : Bool}
    (h : MillerRabin n k ws v rest) (ph : Phase) (wk : Work) :
    ∃ j wk' ph', wk'.outside = wk.outside ∧
      Reaches f j (mrBegin n k ret (s.during w att ws ph wk)) (ret v (s.during w att rest ph' wk')) := by
  cases h with
  | composite small =>
    exact ⟨0, wk, ph, rfl, reaches_eq (Reaches.refl f _) (by simp [mrBegin, small])⟩
  | prime small =>
    have : ¬ (n ≤ 1 ∨ n = 4) := by omega
    exact ⟨0, wk, ph, rfl, reaches_eq (Reaches.refl f _) (by simp [mrBegin, this, small])⟩
  | rounds _ _ large run =>
    have h1 : ¬ (n ≤ 1 ∨ n = 4) := by omega
    have h2 : ¬ (n = 2 ∨ n = 3) := by omega
    obtain ⟨j, wk', ph', e, h⟩ := rounds_reaches (s := s) (w := w) (att := att) hf large run ph
      { wk with n := n, s := (oddSplit n).1, d := (oddSplit n).2, round := 0 } rfl rfl rfl (by simp)
    refine ⟨j, wk', ph', e, ?_⟩
    rw [mrBegin, if_neg h1, if_neg h2]
    exact h

end mr

/-! ### PrimeSample -/

/-- The internal step `f` runs `PrimeSample(b, k)` (R162) with the continuation `ret`. -/
structure RunsSample (f : Phase → State → State) (b k : Nat) (ret : Nat → State → State) : Prop where
  candidate : ∀ s, f .candidate s = sampleStep b k ret .candidate s
  witness : ∀ s, f .witness s = sampleStep b k ret .witness s
  power : ∀ s, f .power s = sampleStep b k ret .power s
  square : ∀ s, f .square s = sampleStep b k ret .square s

theorem RunsSample.mr {f : Phase → State → State} {b k : Nat} {ret : Nat → State → State} (h : RunsSample f b k ret) :
    RunsMr f k (sampleTested ret) where
  witness s := by rw [h.witness]; rfl
  power s := by rw [h.power]; rfl
  square s := by rw [h.square]; rfl

/-- The count of ATTEMPTS is `sat32` of the successor (R48). -/
theorem countAttempt_toNat (n : Word) : (countAttempt n).toNat = satSucc n.toNat := by
  unfold countAttempt satSucc
  split
  · next h => subst h; rfl
  · next h =>
    have h1 : n.toNat ≠ 2 ^ 32 - 1 := fun e => h (BitVec.eq_of_toNat_eq (by simpa using e))
    have h2 := n.isLt
    rw [BitVec.toNat_add]
    simp at h1 h2 ⊢; omega

theorem countAttempt_ofNat {n : Nat} (h : n < 2 ^ 32) :
    countAttempt (BitVec.ofNat 32 n) = BitVec.ofNat 32 (satSucc n) := by
  apply BitVec.eq_of_toNat_eq
  have : satSucc n < 2 ^ 32 := by unfold satSucc; omega
  rw [countAttempt_toNat, BitVec.toNat_ofNat, BitVec.toNat_ofNat, Nat.mod_eq_of_lt h, Nat.mod_eq_of_lt this]

theorem satSucc_lt (n : Nat) : satSucc n < 2 ^ 32 := by unfold satSucc; omega

/-- What the sampling does at its end (R162, R163): the candidate to `ret`, or ETIMEOUT. -/
def sampleEnd (ret : Nat → State → State) : Option Nat → State → State
  | some c, s => ret c s
  | none, s => raise .etimeout s

/-- `PrimeSample(b, k)` (R162) from its loop head. -/
theorem sample_reaches {f : Phase → State → State} {b k : Nat} {ret : Nat → State → State} (hf : RunsSample f b k ret)
    (hb : 0 < b) {s : State} {w : Word} {n n' : Nat} {ws rest : List Word} {o : Option Nat}
    (h : PrimeSample b k s.maxTry n ws o n' rest) (hn : n < 2 ^ 32) (ph : Phase) (wk : Work) :
    ∃ j wk' ph', wk'.p = wk.p ∧ wk'.haveP = wk.haveP ∧
      Reaches f j (sampleBegin (s.during w (BitVec.ofNat 32 n) ws ph wk))
        (sampleEnd ret o (s.during w (BitVec.ofNat 32 n') rest ph' wk')) := by
  have hatt : ∀ {m : Nat}, m < 2 ^ 32 → (BitVec.ofNat 32 m).toNat = m := fun h => by
    rw [BitVec.toNat_ofNat, Nat.mod_eq_of_lt h]
  have hbegin : ∀ {m : Nat} (ws : List Word) (ph : Phase) (wk : Work), m < 2 ^ 32 → ¬ bounded s.maxTry m →
      sampleBegin (s.during w (BitVec.ofNat 32 m) ws ph wk)
        = s.during w (BitVec.ofNat 32 m) ws .candidate { wk with acc := 0, got := 0 } := by
    intro m ws ph wk hm hfree
    have : ¬ (s.maxTry ≠ 0 ∧ (BitVec.ofNat 32 m).toNat = s.maxTry) := by rw [hatt hm]; exact hfree
    rw [sampleBegin, during_maxTry, during_attempts, if_neg this]; rfl
  have hone : ∀ {m c : Nat} {ws mid rest : List Word} {v : Bool} (ph : Phase) (wk : Work), m < 2 ^ 32 →
      ¬ bounded s.maxTry m → RandBits b ws c mid → MillerRabin c k mid v rest →
      ∃ j wk' ph', wk'.p = wk.p ∧ wk'.haveP = wk.haveP ∧ wk'.cand = c ∧
        Reaches f j (sampleBegin (s.during w (BitVec.ofNat 32 m) ws ph wk))
          (sampleTested ret v (s.during w (BitVec.ofNat 32 (satSucc m)) rest ph' wk')) := by
    intro m c ws mid rest v ph wk hm hfree draw test
    rw [hbegin ws ph wk hm hfree]
    obtain ⟨j, a, g, h1⟩ := randBits_reaches (f := f) (ret := candidateDrawn k ret) (s := s) (w := w)
      (att := BitVec.ofNat 32 m) (wk := wk) (ph := .candidate) hb
      (fun rest acc got => by rw [hf.candidate]; rfl) draw
    obtain ⟨j', wk', ph', e, h2⟩ := mrBegin_reaches (s := s) (w := w) (att := BitVec.ofNat 32 (satSucc m)) hf.mr test
      .candidate { wk with acc := a, got := g, cand := c }
    simp only [Work.outside, Prod.mk.injEq] at e
    refine ⟨j' + j, wk', ph', e.2.1, e.2.2, e.1, h1.trans ?_⟩
    rw [candidateDrawn, during_attempts, during_work, countAttempt_ofNat hm, during_with_attempts_work]
    exact h2
  generalize hM : s.maxTry = M at h
  induction h generalizing ph wk with
  | timeout n ws bound =>
    refine ⟨0, wk, ph, rfl, rfl, reaches_eq (Reaches.refl f _) ?_⟩
    have : s.maxTry ≠ 0 ∧ (BitVec.ofNat 32 n).toNat = s.maxTry := by rw [hatt hn, hM]; exact bound
    rw [sampleBegin, during_maxTry, during_attempts, if_pos this]; rfl
  | pass n c ws mid rest free draw test =>
    obtain ⟨j, wk', ph', e1, e2, e3, h⟩ := hone ph wk hn (hM ▸ free) draw test
    refine ⟨j, wk', ph', e1, e2, reaches_eq h ?_⟩
    simp [sampleTested, sampleEnd, e3]
  | fail n n' c ws mid rest rest' o free draw test again ih =>
    obtain ⟨j, wk', ph', e1, e2, e3, h⟩ := hone ph wk hn (hM ▸ free) draw test
    obtain ⟨j', wk'', ph'', e1', e2', h'⟩ := ih (satSucc_lt n) ph' wk'
    refine ⟨j' + j, wk'', ph'', e1'.trans e1, e2'.trans e2, h.trans ?_⟩
    simpa [sampleTested] using h'

/-- The count at the end of a sampling is a 32-bit count. -/
theorem primeSample_count {b k M n n' : Nat} {ws rest : List Word} {o : Option Nat}
    (h : PrimeSample b k M n ws o n' rest) (hn : n < 2 ^ 32) : n' < 2 ^ 32 := by
  induction h with
  | timeout => exact hn
  | pass => exact satSucc_lt _
  | fail _ _ _ _ _ _ _ _ _ _ _ _ ih => exact ih (satSucc_lt _)

end Sys2Proof.Machine
end

