-- ==== Sys2Proof/Laws/Words.lean ====
section
/-! SUPPORT. The words of a register (R63) and what replacing one of them does (R67). -/

namespace Sys2Proof.Machine

theorem withWord_div (v j : Nat) (w : Word) :
    withWord v j w / 2 ^ (32 * j) = w.toNat + v / 2 ^ (32 * (j + 1)) * 2 ^ 32 := by
  have hB : 0 < 2 ^ (32 * j) := by positivity
  have e : 2 ^ (32 * (j + 1)) = 2 ^ (32 * j) * 2 ^ 32 := by rw [← pow_add]; ring_nf
  have h : withWord v j w
      = v % 2 ^ (32 * j) + 2 ^ (32 * j) * (w.toNat + v / (2 ^ (32 * j) * 2 ^ 32) * 2 ^ 32) := by
    unfold withWord; rw [e]; ring
  rw [h, e, Nat.add_mul_div_left _ _ hB, Nat.div_eq_of_lt (Nat.mod_lt _ hB), zero_add]

/-- The bits below the word are unchanged (R67). -/
theorem withWord_mod (v j : Nat) (w : Word) : withWord v j w % 2 ^ (32 * j) = v % 2 ^ (32 * j) := by
  have e : 2 ^ (32 * (j + 1)) = 2 ^ (32 * j) * 2 ^ 32 := by rw [← pow_add]; ring_nf
  have h : withWord v j w
      = v % 2 ^ (32 * j) + 2 ^ (32 * j) * (w.toNat + v / (2 ^ (32 * j) * 2 ^ 32) * 2 ^ 32) := by
    unfold withWord; rw [e]; ring
  rw [h, Nat.add_mul_mod_self_left, Nat.mod_mod]

/-- The bits above the word are unchanged (R67). -/
theorem withWord_div_above (v j : Nat) (w : Word) :
    withWord v j w / 2 ^ (32 * (j + 1)) = v / 2 ^ (32 * (j + 1)) := by
  have e : 2 ^ (32 * (j + 1)) = 2 ^ (32 * j) * 2 ^ 32 := by rw [← pow_add]; ring_nf
  rw [e, ← Nat.div_div_eq_div_mul, withWord_div, e]
  have := w.isLt
  rw [Nat.add_mul_div_right _ _ (by positivity), Nat.div_eq_of_lt this, zero_add]

theorem wordOf_mod (v j j' : Nat) (h : j' < j) : wordOf (v % 2 ^ (32 * j)) j' = wordOf v j' := by
  unfold wordOf
  apply BitVec.eq_of_toNat_eq
  rw [BitVec.toNat_ofNat, BitVec.toNat_ofNat]
  have e : 2 ^ (32 * j) = 2 ^ (32 * j') * (2 ^ 32 * 2 ^ (32 * (j - j' - 1))) := by
    rw [← pow_add, ← pow_add]; congr 1; omega
  rw [e, Nat.mod_mul_right_div_self]
  exact Nat.mod_mod_of_dvd _ (Dvd.intro _ rfl)

theorem wordOf_div (v j j' : Nat) (h : j ≤ j') : wordOf v j' = wordOf (v / 2 ^ (32 * j)) (j' - j) := by
  unfold wordOf
  rw [Nat.div_div_eq_div_mul, ← pow_add]; congr 3; omega

/-- The words of a register after one of them has been replaced (R67). -/
theorem wordOf_withWord (v j j' : Nat) (w : Word) :
    wordOf (withWord v j w) j' = if j' = j then w else wordOf v j' := by
  rcases lt_trichotomy j' j with h | h | h
  · rw [if_neg (by omega), ← wordOf_mod _ j _ h, withWord_mod, wordOf_mod _ _ _ h]
  · subst h
    rw [if_pos rfl, wordOf_div _ j' j' le_rfl, withWord_div]
    unfold wordOf; apply BitVec.eq_of_toNat_eq; have := w.isLt; simp; omega
  · rw [if_neg (by omega), wordOf_div _ (j + 1) j' h, withWord_div_above, ← wordOf_div _ (j + 1) j' h]

/-- Replacing a mapped word keeps a `W`-bit value `W` bits wide (R21). -/
theorem withWord_lt {v j : Nat} {w : Word} {W : Nat} (hW : W % 32 = 0) (hj : j < W / 32) (hv : v < 2 ^ W) :
    withWord v j w < 2 ^ W := by
  have h1 : v / 2 ^ (32 * (j + 1)) < 2 ^ (W - 32 * (j + 1)) := by
    rw [Nat.div_lt_iff_lt_mul (by positivity), ← pow_add, Nat.sub_add_cancel (by omega)]; exact hv
  rw [← withWord_div_above v j w, Nat.div_lt_iff_lt_mul (by positivity), ← pow_add, Nat.sub_add_cancel (by omega)] at h1
  exact h1

end Sys2Proof.Machine
end

