-- ==== Sys2Proof/Tests/Slice0.lean ====
section
/-! SUPPORT. Tests: expected values from 95_test_vectors.md (the vector is named in each docstring), and for every statement
with hypotheses a witness that meets them together. -/

namespace Sys2Proof.Tests

open Sys2Proof.Machine Sys2Proof.Pseudocode

/-! ### Helpers -/

/-- A block after reset with operands in X0..X3, the word `ctrl` in CTRL, FIFO words and a turn. -/
def block (x0 x1 x2 x3 : Nat) (ctrl : Word) (fifo : List Word) (turn : Nat) : State :=
  { State.reset with
    x := #v[x0, x1, x2, x3, 0, 0, 0, 0]
    ctrl := ctrl
    fifo := fifo
    env := { Env.quiet with turn := turn } }

/-- The next state, or the reset state where there is none. -/
def nextOf : Host.Outcome State Fault Refusal → State
  | .next t => t
  | .fault _ => State.reset
  | .refused _ => State.reset

/-- The state after a command run on a block. -/
def ran (i : Instr) (s : State) : State := nextOf (exec i s)

/-- V-MR-19: an MRTEST of 97 that waits for its first word. -/
def waiting : State := ran (.mrtest 1 0 1) (block 97 0 0 0 1 [] 4)

/-- The same command with RNGSRC = 0, waiting for a word of the entropy port. -/
def waitingAtPort : State := ran (.mrtest 1 0 1) (block 97 0 0 0 0 [] 4)

/-! ### Well-formedness, decoding, encoding -/

/-- R97: `RD = 6` is ill formed for the commands that write three registers (V-KD-19, V-KG-6). -/
theorem test_wellFormed_refuses_rd_six :
    (Instr.keyderive 6 0 1).wellFormed = false ∧ (Instr.keygen 6 8 1).wellFormed = false ∧
      (Instr.keyderive 5 0 1).wellFormed = true ∧ (Instr.keygen 5 8 1).wellFormed = true := by decide

/-- V-DEC-1. -/
theorem test_decode_legal :
    decode 0x00002201 = .ok (.gcd 0 1 2) ∧ decode 0x000058C2 = .ok (.lcm 3 4 5) ∧
      decode 0x00003443 = .ok (.modinv 1 2 3) ∧ decode 0x0003FFC4 = .ok (.modexp 7 7 7 7) ∧
      decode 0x02000085 = .ok (.mrtest 2 0 1) ∧ decode 0xFFFFF1C6 = .ok (.primegen 7 8191 127) ∧
      decode 0x00001087 = .ok (.keyderive 2 0 1) ∧ decode 0x02008008 = .ok (.keygen 0 8 1) := by decide

/-- V-DEC-2: each illegal word is rejected by name. -/
theorem test_decode_illegal :
    decode 0x00000000 = .error (.reservedOp 0x00) ∧ decode 0x00000009 = .error (.reservedOp 0x09) ∧
      decode 0x0000003F = .error (.reservedOp 0x3F) ∧ decode 0x00001000 = .error (.reservedOp 0x00) ∧
      decode 0x00008001 = .error (.mustBeZero 0x01) ∧ decode 0x80000001 = .error (.mustBeZero 0x01) ∧
      decode 0x00040004 = .error (.mustBeZero 0x04) ∧ decode 0x02001005 = .error (.mustBeZero 0x05) ∧
      decode 0x02008206 = .error (.mustBeZero 0x06) ∧ decode 0x00001187 = .error (.rdTooLarge 6) ∧
      decode 0x020081C8 = .error (.rdTooLarge 7) := by decide

/-- V-DEC-1 and V-DEC-3, written by the encoder. -/
theorem test_encode :
    encode (.gcd 0 1 2) = 0x00002201 ∧ encode (.lcm 3 4 5) = 0x000058C2 ∧ encode (.modinv 1 2 3) = 0x00003443 ∧
      encode (.modexp 3 0 1 2) = 0x000110C4 ∧ encode (.mrtest 1 0 20) = 0x28000045 ∧
      encode (.primegen 0 8 2) = 0x04008006 ∧ encode (.keyderive 5 0 1) = 0x00001147 ∧
      encode (.keygen 2 43 127) = 0xFE02B088 ∧ encode (.encrypt 6 5 2) = 0x00012B84 ∧
      encode (.decrypt 7 6 3 4) = 0x00023DC4 := by decide

/-- R96: the rows of the opcode map do not overlap. -/
theorem test_rows_do_not_overlap :
    opcodeMap.Pairwise fun r r' => r.pattern &&& r'.mask ≠ r'.pattern &&& r.mask := by decide

/-- R102: the spellings of V-DEC-1. -/
theorem test_assembly :
    (Instr.modexp 3 0 1 2).toAsm = "modexp x3, x0, x1, x2" ∧ (Instr.mrtest 1 0 20).toAsm = "mrtest x1, x0, k=20" ∧
      (Instr.keygen 2 43 127).toAsm = "keygen x2, nbits=43, k=127" := by decide

/-! ### Commands: at most two vectors each -/

/-- V-GCD-10: the destination is also a source. -/
theorem test_gcd_overlap :
    let t := ran (.gcd 0 0 1) (block 48 18 0 0 0 [] 132)
    t.x[0] = 6 ∧ t.x[1] = 18 ∧ t.statusWord = 0x00000002 := by decide +kernel

/-- V-GCD-7. -/
theorem test_gcd_wide :
    (ran (.gcd 2 0 1) (block 0xFFFFFFFFFFFFFFFF 0x100000001 0 0 0 [] 132)).x[2] = 4294967297 := by decide +kernel

/-- V-LCM-9: the largest value that fits. -/
theorem test_lcm_largest :
    (ran (.lcm 2 0 1) (block 0xFFFFFFFF 0x100000001 0 0 0 [] 132)).x[2] = 0xFFFFFFFFFFFFFFFF := by decide +kernel

/-- V-LCM-8: ERANGE, nothing written. -/
theorem test_lcm_erange :
    let t := ran (.lcm 2 0 1) (block 0x8000000000000000 3 7 0 0 [] 132)
    t.statusWord = 0x00030004 ∧ t.x[2] = 7 := by decide +kernel

/-- V-INV-4. -/
theorem test_modinv : (ran (.modinv 2 0 1) (block 17 3120 0 0 0 [] 132)).x[2] = 2753 := by decide +kernel

/-- V-INV-5: STATUS is 0x00000012 when there is no inverse. -/
theorem test_modinv_noinv :
    let t := ran (.modinv 2 0 1) (block 0 7 9 0 0 [] 132)
    t.statusWord = 0x00000012 ∧ t.x[2] = 0 := by decide +kernel

/-- V-EXP-1. -/
theorem test_modexp : (ran (.modexp 3 0 1 2) (block 4 13 497 0 0 [] 6)).x[3] = 445 := by decide +kernel

/-- V-EXP-3: `0^0` modulo 1. -/
theorem test_modexp_modulus_one :
    let t := ran (.modexp 3 0 1 2) (block 0 0 1 5 0 [] 2)
    t.x[3] = 0 ∧ t.statusWord = 0x00000002 := by decide +kernel

/-- V-MR-6, `k = 2`: 561 with the witnesses 50 and 2. -/
theorem test_mrtest_composite :
    let t := ran (.mrtest 2 0 2) (block 561 0 7 0 1 [48, 0] 64)
    t.x[2] = 0 ∧ t.statusWord = 0x00000002 ∧ t.fifo = [] := by decide +kernel

/-- V-MR-17: 7 passes, and the second word stays in the FIFO. -/
theorem test_mrtest_prime :
    let t := ran (.mrtest 2 0 1) (block 7 0 0 0 1 [3, 1] 64)
    t.x[2] = 1 ∧ t.statusWord = 0x0000000A ∧ t.fifo = [1] := by decide +kernel

/-- V-PG-1. -/
theorem test_primegen :
    let t := ran (.primegen 0 8 2) (block 0 0 0 0 1 [0xFFFFFFC8, 0, 0xFFFFFF61, 5, 40] 64)
    t.x[0] = 97 ∧ t.attempts = 2 ∧ t.fifo = [] ∧ t.statusWord = 0x00000002 := by decide +kernel

/-- V-PG-6: MAXTRY = 3. -/
theorem test_primegen_timeout :
    let t := ran (.primegen 0 8 1) (block 5 0 0 0 0x00030001 [0, 1, 4] 64)
    t.x[0] = 5 ∧ t.attempts = 3 ∧ t.statusWord = 0x00060004 := by decide +kernel

/-- V-KD-18: the destinations overlap the sources. -/
theorem test_keyderive :
    let t := ran (.keyderive 0 0 1) (block 11 13 0 0 0 [] 264)
    t.x[0] = 1573 ∧ t.x[1] = 37 ∧ t.x[2] = 143 ∧ t.statusWord = 0x00000002 := by decide +kernel

/-- V-KD-17: EKEYREL comes before ERANGE. -/
theorem test_keyderive_order :
    (ran (.keyderive 2 0 1) (block 4294967311 5 0 0 0 [] 264)).statusWord = 0x00050004 := by decide +kernel

/-- V-KG-1. -/
theorem test_keygen :
    let t := ran (.keygen 0 8 1) (block 0 0 0 0 1 [0x0F, 14, 0, 0x0B, 3, 0x0B, 1, 0x0D, 2] 128)
    t.x[0] = 1573 ∧ t.x[1] = 37 ∧ t.x[2] = 143 ∧ t.attempts = 4 ∧ t.statusWord = 0x00000002 := by decide +kernel

/-- V-KG-4: `p = 2` is never completed within MAXTRY. -/
theorem test_keygen_timeout :
    let t := ran (.keygen 0 6 1) (block 9 0 0 0 0x00030001 [2, 2, 3, 5, 1] 128)
    t.x[0] = 9 ∧ t.attempts = 3 ∧ t.fifo = [5, 1] ∧ t.statusWord = 0x00060004 := by decide +kernel

/-! ### The window and the step -/

/-- V-MR-19: the command waits with STATUS = 0x00000021, and ABORT leaves 0x00070004. -/
theorem test_wait_and_abort :
    waiting.statusWord = 0x00000021 ∧
      (nextOf (step (waiting.withArrival (arrive (memWrite waiting.params 0x024 1) 0)))).statusWord = 0x00070004 := by
  decide +kernel

/-- R214: with RNGSRC = 0 the waiting command asserts the port's ready and takes the word presented next; in FIFO mode (V-MR-19)
and after reset ready is not asserted. -/
theorem test_entropy_port_ready :
    let u := nextOf (step (waitingAtPort.withArrival { input := .entropy 5, turn := 1 }))
    State.reset.portReady = false ∧ waiting.portReady = false ∧ waitingAtPort.portReady = true ∧
      waitingAtPort.statusWord = 0x00000021 ∧ u.env.port = [] ∧ u.portReady = false ∧ u.statusWord = 0x00000001 := by
  decide +kernel

/-- V-BUS-1, second access: word 1 is the more significant. -/
theorem test_operand_words :
    (nextOf (step ((block 0x89ABCDEF 0 0 0 0 [] 0).withArrival
      (arrive (memWrite Config.params 0x1004 0x01234567) 0)))).x[0] = 0x0123456789ABCDEF := by decide +kernel

/-- V-BUS-2: word 2 of X0 is unmapped at `W = 64`. -/
theorem test_unmapped_read :
    let t := nextOf (step (State.reset.withArrival (arrive (memRead Config.params 0x1008) 0)))
    t.env.resp = some 0 ∧ t.statusWord = 0x00000040 := by decide +kernel

/-- V-BUS-6. -/
theorem test_identification :
    (nextOf (step (State.reset.withArrival (arrive (memRead Config.params 0x000) 0)))).env.resp = some 0x53530100 ∧
      (nextOf (step (State.reset.withArrival (arrive (memRead Config.params 0x004) 0)))).env.resp = some 0x01080040 := by
  decide +kernel

/-- V-BUS-10: every W1C bit cleared, ECODE kept. -/
theorem test_write_one_to_clear :
    let st : Status := { Status.zero with err := true, accerr := true, cmdovr := true, fovf := true, ecode := some .erange }
    ({ State.reset with status := st } : State).statusWord = 0x000301C4 ∧
      ({ State.reset with status := st.writeOneToClear 0xFFFFFFFF } : State).statusWord = 0x00030000 := by
  decide +kernel

/-- V-IRQ-1 and V-IRQ-3. -/
theorem test_irq :
    (ran (.gcd 0 1 2) (block 0 0 0 0 2 [] 132)).irq = true ∧
      ({ block 0 0 0 0 2 [] 0 with status := { Status.zero with accerr := true } } : State).irq = false := by
  decide +kernel

/-- V-DEC-2 and V-RST-2: a table word placed as the next command runs in the next step. -/
theorem test_withFetchWord :
    (nextOf (step (State.reset.withFetchWord 32 0x00002201))).statusWord = 0x00000002 ∧
      (nextOf (step (State.reset.withFetchWord 32 0x00002202))).statusWord = 0x00020004 ∧
      (nextOf (step (State.reset.withFetchWord 32 0x00000009))).statusWord = 0x00010004 := by decide +kernel

/-! ### Witnesses: the hypotheses of each statement met together, each clause at a boundary of its range -/

/-- A GCD of 48 and 18 after one internal step of its turn. -/
def dividing : State := ran (.gcd 2 0 1) (block 48 18 0 0 3 [] 1)

/-- The largest operands of a block with `W = 64`. -/
def largest (turn : Nat) : State := block (2 ^ 64 - 1) (2 ^ 64 - 1) (2 ^ 64 - 1) 0 0 [] turn

/-- V-MR-18: a block without the entropy port, in port mode. -/
def portless : State := { block 2 0 0 0 0 [] 1 with params := { Config.params with extRng := false } }

/-- V-PG-10 before its word: MAXTRY = 1, no candidate drawn yet. -/
def drawing : State := ran (.primegen 0 2 1) (block 0 0 0 0 0x00010001 [] 4)

/-- A PRIMEGEN with MAXTRY = 1 that has drawn its candidate 9 and waits for a witness. -/
def testing : State := ran (.primegen 0 8 1) (block 0 0 0 0 0x00010001 [9] 4)

/-- The illegal word 0x00001187 (V-DEC-2), accepted by an arrival without an internal step. -/
def accepted : State := nextOf (step (State.reset.offers 0x00001187 0))

theorem witness_DecodeOfEncode :
    (Instr.keyderive 5 7 7).wellFormed = true ∧ (Instr.keygen 5 8191 127).wellFormed = true ∧
      (Instr.mrtest 7 7 127).wellFormed = true := by decide

theorem witness_EncodeOfDecode : decode 0x00001147 = .ok (.keyderive 5 0 1) := by decide

theorem witness_StepRunsTheDecodedCommand : State.reset.busy = false ∧ decode 0x00002201 = .ok (.gcd 0 1 2) := by decide

theorem witness_StepGoesOnWithTheRunningCommand :
    dividing.busy = true ∧ (serve .quiet (dividing.begun 1)).busy = true ∧
      decode dividing.lastcmd = .ok (.gcd 2 0 1) := by decide +kernel

theorem witness_TurnsCompose :
    ∃ t, exec (.gcd 2 0 1) ((block 48 18 0 0 0 [] 0).withTurn 1) = .next t ∧ t.busy = true :=
  ⟨_, rfl, by decide +kernel⟩

theorem witness_CmdWriteIsAcceptedOrDiscarded : State.reset.busy = false ∧ dividing.busy = true := by decide +kernel

/-- Both clauses: KEYDERIVE with `RD = 5` is legal, `RD = 6` is not, nor is a reserved OP. -/
theorem witness_OnlyLegalWordsRunOthersEndWithEill :
    State.reset.busy = false ∧ LegalWord 0x00001147 ∧ ¬ LegalWord 0x00001187 ∧ ¬ LegalWord 0x00000009 := by
  unfold LegalWord; decide

/-- The illegal word of KEYDERIVE with `RD = 6`, accepted without an internal step, then nothing arrives: with no internal
step it stands, with one it ends. -/
theorem witness_RunningIllegalWordEndsWithEill :
    accepted.busy = true ∧ ¬ LegalWord accepted.lastcmd ∧ accepted.illegalAtStart ∧
      (serve .quiet (accepted.begun 0)).busy = true ∧ (serve .quiet (accepted.begun 1)).busy = true := by
  unfold State.illegalAtStart LegalWord; decide +kernel

theorem witness_DestinationAboveFiveIsEill :
    (largest 1).seq = .idle ∧ 5 < (6 : RegIdx).val ∧ 5 < (7 : RegIdx).val ∧ 1 ≤ (largest 1).env.turn := by decide

theorem witness_GcdResult :
    (largest 132).seq = .idle ∧ (largest 132).operandsFit ∧
      2 * (largest 132).params.width + 4 ≤ (largest 132).env.turn := by
  unfold State.operandsFit; decide +kernel

/-- The three branches: a zero operand, a result that does not fit, a result that just fits. -/
theorem witness_LcmResult :
    (block 0 5 0 0 0 [] 132).operandsFit ∧ (block (2 ^ 63) 3 0 0 0 [] 132).operandsFit ∧ (largest 132).operandsFit ∧
      2 ^ 64 ≤ Nat.lcm (2 ^ 63) 3 ∧ Nat.lcm (2 ^ 64 - 1) (2 ^ 64 - 1) < 2 ^ 64 ∧
      2 * 64 + 4 ≤ (largest 132).env.turn := by
  unfold State.operandsFit; decide +kernel

/-- Both clauses: the modulus 0, and the modulus 1, where the inverse is 0. -/
theorem witness_ModinvResult :
    let s := block 5 0 1 0 0 [] 132
    s.seq = .idle ∧ s.operandsFit ∧ 2 * s.params.width + 4 ≤ s.env.turn ∧ s.x[(1 : RegIdx)] = 0 ∧
      s.x[(2 : RegIdx)] ≠ 0 ∧ IsModInv s.x[(0 : RegIdx)] s.x[(2 : RegIdx)] 0 false := by
  unfold State.operandsFit IsModInv; decide +kernel

/-- V-INV-1; the value that is the only one is 37. -/
theorem witness_ModinvOfCoprimesWritesTheOnlyInverse :
    let s := block 1573 60 0 0 0 [] 132
    s.seq = .idle ∧ s.operandsFit ∧ 2 * s.params.width + 4 ≤ s.env.turn ∧ s.x[(1 : RegIdx)] ≠ 0 ∧
      Nat.Coprime s.x[(0 : RegIdx)] s.x[(1 : RegIdx)] ∧ 37 < s.x[(1 : RegIdx)] ∧
      s.x[(0 : RegIdx)] * 37 % s.x[(1 : RegIdx)] = 1 % s.x[(1 : RegIdx)] := by
  unfold State.operandsFit Nat.Coprime; decide +kernel

/-- Both branches: the modulus 0 (X3) and the largest modulus. -/
theorem witness_ModexpResult :
    (largest 66).seq = .idle ∧ (largest 66).operandsFit ∧
      bitlen (largest 66).x[(1 : RegIdx)] + 2 ≤ (largest 66).env.turn ∧ (largest 66).x[(3 : RegIdx)] = 0 ∧
      (largest 66).x[(2 : RegIdx)] ≠ 0 := by
  unfold State.operandsFit; decide +kernel

theorem witness_NoRandomSourceIsEnorng :
    portless.seq = .idle ∧ portless.ctrl.getLsbD 0 = false ∧ portless.params.extRng = false ∧
      1 ≤ portless.env.turn ∧ (5 : RegIdx).val ≤ 5 := by decide

/-- The least numbers of each clause, and 13 - 1 = 4 * 3, 6 - 1 = 5 (R155), 255 and 256 (R8), 32 and 33 bits (R152). -/
theorem witness_NumbersOfTheRelationsAreTheSpecs :
    (5 ≤ 5 ∧ oddSplit 5 = (2, 1) ∧ oddSplit 13 = (2, 3) ∧ oddSplit 6 = (0, 5)) ∧
      (0 < 1 ∧ bitlen 1 = 1 ∧ bitlen 255 = 8 ∧ bitlen 256 = 9) ∧
      1 ≤ 1 ∧ wordsFor 1 = 1 ∧ wordsFor 32 = 1 ∧ wordsFor 33 = 2 := by decide +kernel

/-- 4 with rounds to run, and 9 with `k = 0` (V-MR-1, V-MR-7). -/
theorem witness_MrtestWithoutWords :
    let s := block 4 9 0 0 1 [] 1
    s.seq = .idle ∧ s.noRandomSource = false ∧ 0 < s.params.width ∧ 1 ≤ s.env.turn ∧
      (s.x[(0 : RegIdx)] ≤ 4 ∨ (5 : BitVec 7) = 0) ∧ (s.x[(1 : RegIdx)] ≤ 4 ∨ (0 : BitVec 7) = 0) := by decide +kernel

/-- One word gives one value of at most 32 bits. -/
theorem randBits_one (b : Nat) (w : Word) (v : Nat) (rest : List Word) (hb : wordsFor b = 1)
    (hv : w.toNat % 2 ^ b = v) : RandBits b (w :: rest) v rest := by
  have h := RandBits.mk [w] rest (b := b) hb.symm
  simpa [assemble, hv] using h

/-- V-MR-6: 561 with the words 48, 0; the first round passes, the second fails. -/
theorem millerRabin_561 : MillerRabin 561 2 [48, 0] false [] :=
  .rounds _ _ _ (by decide) (.pass 1 50 _ [0] _ _
    (.accept _ _ 48 (randBits_one _ _ _ _ (by decide +kernel) (by decide +kernel)) (by decide)) (by decide +kernel)
    (.fail 0 2 _ _ (.accept _ _ 0 (randBits_one _ _ _ _ (by decide +kernel) (by decide +kernel)) (by decide))
      (by decide +kernel)))

/-- V-MR-5: 15 with the words 14, 0; the first value is rejected. -/
theorem millerRabin_15 : MillerRabin 15 1 [14, 0] false [] :=
  .rounds _ _ _ (by decide) (.fail 0 2 _ _
    (.reject _ [0] _ 14 _ (randBits_one _ _ _ _ (by decide +kernel) (by decide +kernel)) (by decide)
      (.accept _ _ 0 (randBits_one _ _ _ _ (by decide +kernel) (by decide +kernel)) (by decide))) (by decide +kernel))

theorem witness_MrtestComputesMillerRabin :
    let s := block 561 15 0 0 1 [48, 0] 0
    let s' := block 561 15 0 0 1 [14, 0] 0
    s.seq = .idle ∧ s.noRandomSource = false ∧ 0 < s.params.width ∧
      MillerRabin s.x[(0 : RegIdx)] (2 : BitVec 7).toNat s.source false [] ∧
      MillerRabin s'.x[(1 : RegIdx)] (1 : BitVec 7).toNat s'.source false [] :=
  ⟨rfl, rfl, by decide, millerRabin_561, millerRabin_15⟩

/-- V-MR-15. -/
theorem witness_MrtestNeverRejectsAPrime :
    let s := block 97 0 0 0 1 [5, 40] 64
    s.seq = .idle ∧ Nat.Prime s.x[(0 : RegIdx)] ∧ ∃ t, exec (.mrtest 1 0 2) s = .next t ∧ t.status.done = true :=
  ⟨rfl, (by norm_num : Nat.Prime 97), _, rfl, by decide +kernel⟩

/-- V-PG-2: both ends of the range. -/
theorem witness_PrimegenRange :
    let s := block 0 0 0 0 1 [] 1
    s.seq = .idle ∧ s.noRandomSource = false ∧ (1 : BitVec 13).toNat < 2 ∧ s.params.width < (65 : BitVec 13).toNat ∧
      1 ≤ s.env.turn := by decide

/-- V-PG-3: the candidates 0 and 2, no witness. -/
theorem primeSample_two (M : Nat) (hM : M ≠ 1) : PrimeSample 2 1 M 0 [0, 2] (some 2) 2 [] :=
  .fail 0 2 0 _ [2] _ _ _ (fun h => h.1 h.2.symm)
    (randBits_one _ _ _ _ (by decide +kernel) (by decide +kernel)) (.composite _ (by decide))
    (.pass 1 2 _ [] _ (fun h => hM h.2.symm) (randBits_one _ _ _ _ (by decide +kernel) (by decide +kernel))
      (.prime _ (by decide)))

/-- V-PG-7: the candidates 0 and 1, then MAXTRY = 2 is reached. -/
theorem primeSample_timeout : PrimeSample 8 1 2 0 [0, 1] none 2 [] :=
  .fail 0 2 0 _ [1] _ _ _ (fun h => absurd h.2 (by decide))
    (randBits_one _ _ _ _ (by decide +kernel) (by decide +kernel)) (.composite _ (by decide))
    (.fail 1 2 1 _ [] _ _ _ (fun h => absurd h.2 (by decide))
      (randBits_one _ _ _ _ (by decide +kernel) (by decide +kernel)) (.composite _ (by decide))
      (.timeout 2 _ ⟨by decide, rfl⟩))

theorem witness_PrimegenComputesPrimeSample :
    let s := block 0 0 0 0 1 [0, 2] 0
    let s' := block 0 0 0 0 0x00020001 [0, 1] 0
    (s.seq = .idle ∧ s.noRandomSource = false ∧ 2 ≤ (2 : BitVec 13).toNat ∧ (2 : BitVec 13).toNat ≤ s.params.width ∧
      PrimeSample (2 : BitVec 13).toNat (1 : BitVec 7).toNat s.maxTry 0 s.source (some 2) 2 []) ∧
    (s'.seq = .idle ∧ s'.noRandomSource = false ∧ 2 ≤ (8 : BitVec 13).toNat ∧
      (8 : BitVec 13).toNat ≤ s'.params.width ∧
      PrimeSample (8 : BitVec 13).toNat (1 : BitVec 7).toNat s'.maxTry 0 s'.source none 2 []) :=
  ⟨⟨rfl, rfl, by decide, by decide, primeSample_two _ (by decide)⟩, rfl, rfl, by decide, by decide,
    primeSample_timeout⟩

/-- `nbits = W`, two words. -/
theorem witness_PrimegenWithoutRounds :
    let s := block 0 0 0 0 1 [5, 0, 7] 3
    s.seq = .idle ∧ s.noRandomSource = false ∧ 2 ≤ (64 : BitVec 13).toNat ∧ (64 : BitVec 13).toNat ≤ s.params.width ∧
      s.source = [5, 0] ++ [7] ∧ [(5 : Word), 0].length = wordsFor (64 : BitVec 13).toNat ∧
      assemble [5, 0] % 2 ^ (64 : BitVec 13).toNat ∉ [0, 1, 4] ∧ [(5 : Word), 0].length + 1 ≤ s.env.turn := by
  decide +kernel

/-- V-PG-5. -/
theorem witness_PrimegenResultHasAtMostNbits :
    let s := block 0 0 0 0 1 [9] 8
    s.seq = .idle ∧ ∃ t, exec (.primegen 0 8 0) s = .next t ∧ t.status.done = true :=
  ⟨rfl, _, rfl, by decide +kernel⟩

/-- The four branches: EDOM (V-KD-13), EKEYREL (V-KD-10), ERANGE (V-KD-16), a result (V-KD-1). -/
theorem witness_KeyderiveResult :
    ((5 : RegIdx).val ≤ 5 ∧ (largest 264).seq = .idle ∧ 4 * (largest 264).params.width + 8 ≤ (largest 264).env.turn) ∧
      (block 1 5 0 0 0 [] 264).operandsFit ∧ (block 7 7 0 0 0 [] 264).operandsFit ∧
      (block 4294967311 7 0 0 0 [] 264).operandsFit ∧ (block 11 13 0 0 0 [] 264).operandsFit ∧
      ¬ (4294967311 = 7 ∨ (4294967311 - 1) % 7 = 0 ∨ (7 - 1) % 4294967311 = 0) ∧
      2 ^ 64 ≤ 4294967311 * 4294967311 * 7 := by
  unfold State.operandsFit; decide +kernel

/-- V-KD-1. -/
theorem witness_KeysOfPrimesHaveInverse :
    let s := block 11 13 0 0 0 [] 264
    (5 : RegIdx).val ≤ 5 ∧ s.seq = .idle ∧ s.operandsFit ∧ 4 * s.params.width + 8 ≤ s.env.turn ∧
      Nat.Prime s.x[(0 : RegIdx)] ∧ Nat.Prime s.x[(1 : RegIdx)] ∧
      ∃ t, exec (.keyderive 5 0 1) s = .next t ∧ t.status.done = true :=
  ⟨by decide, rfl, by unfold State.operandsFit; decide +kernel, by decide, (by norm_num : Nat.Prime 11),
    (by norm_num : Nat.Prime 13), _, rfl, by decide +kernel⟩

/-- V-KD-1 and the message 142, the largest below `n`. -/
theorem witness_KeysDecryptWhatTheyEncrypt :
    let s := block 11 13 0 0 0 [] 264
    (5 : RegIdx).val ≤ 5 ∧ s.seq = .idle ∧ s.operandsFit ∧ 4 * s.params.width + 8 ≤ s.env.turn ∧
      Nat.Prime s.x[(0 : RegIdx)] ∧ Nat.Prime s.x[(1 : RegIdx)] ∧
      ∃ t, exec (.keyderive 5 0 1) s = .next t ∧ t.status.done = true ∧ t.status.noinv = false ∧ 142 < t.x[7] :=
  ⟨by decide, rfl, by unfold State.operandsFit; decide +kernel, by decide, (by norm_num : Nat.Prime 11),
    (by norm_num : Nat.Prime 13), _, rfl, by decide +kernel⟩

/-- V-KG-3: both ends of the range. -/
theorem witness_KeygenRange :
    let s := block 0 0 0 0 1 [] 1
    (5 : RegIdx).val ≤ 5 ∧ s.seq = .idle ∧ s.noRandomSource = false ∧ (5 : BitVec 13).toNat / 2 < 3 ∧
      s.params.width < 3 * ((44 : BitVec 13).toNat / 2) ∧ 1 ≤ s.env.turn := by decide

/-- A candidate that passes at once because `k = 0`. -/
theorem primeSample_once (b M n : Nat) (w : Word) (c : Nat) (rest : List Word) (hf : M ≠ 0 → n ≠ M)
    (hb : wordsFor b = 1) (hc : w.toNat % 2 ^ b = c) (h5 : 5 ≤ c) :
    PrimeSample b 0 M n (w :: rest) (some c) (satSucc n) rest :=
  .pass n c _ rest _ (fun h => hf h.1 h.2) (randBits_one _ _ _ _ hb hc) (.rounds _ _ _ h5 (.none _))

/-- The candidates 11, 11 and 13 with `k = 0`: the second is resampled because it is `p` (R187). -/
theorem keyPrimes_resampled : KeyPrimes 4 0 0 [11, 11, 13] (some (11, 13)) 3 [] :=
  .both 1 3 11 13 _ [11, 13] _
    (primeSample_once 4 0 0 11 11 _ (by decide) (by decide +kernel) (by decide +kernel) (by decide))
    (.resample 1 2 3 11 _ [13] _ _
      (primeSample_once 4 0 1 11 11 _ (by decide) (by decide +kernel) (by decide +kernel) (by decide))
      (by decide +kernel)
      (.accept 2 3 13 _ _
        (primeSample_once 4 0 2 13 13 _ (by decide) (by decide +kernel) (by decide +kernel) (by decide))
        (by decide +kernel)))

/-- MAXTRY = 1: the bound is reached before `q`. -/
theorem keyPrimes_timeout : KeyPrimes 4 0 1 [11, 13] none 1 [13] :=
  .noQ 1 1 11 _ [13] _
    (primeSample_once 4 1 0 11 11 _ (by decide) (by decide +kernel) (by decide +kernel) (by decide))
    (.timeout 1 1 _ _ (.timeout 1 _ ⟨by decide, rfl⟩))

/-- The KEYGEN clause of `KeysOfPrimesHaveInverse` and of `KeysDecryptWhatTheyEncrypt`: the primes 11 and 13 are sampled. -/
theorem witness_KeygenOfPrimes :
    let s := block 0 0 0 0 1 [11, 11, 13] 0
    (5 : RegIdx).val ≤ 5 ∧ s.seq = .idle ∧ s.noRandomSource = false ∧ 3 ≤ (8 : BitVec 13).toNat / 2 ∧
      3 * ((8 : BitVec 13).toNat / 2) ≤ s.params.width ∧
      KeyPrimes ((8 : BitVec 13).toNat / 2) (0 : BitVec 7).toNat s.maxTry s.source (some (11, 13)) 3 [] ∧
      Nat.Prime 11 ∧ Nat.Prime 13 ∧ 142 < 11 * 13 :=
  ⟨by decide, rfl, rfl, by decide, by decide, keyPrimes_resampled, by norm_num, by norm_num, by decide⟩

theorem witness_KeygenComputesKeyGen :
    let s := block 0 0 0 0 1 [11, 11, 13] 0
    let s' := block 0 0 0 0 0x00010001 [11, 13] 0
    ((5 : RegIdx).val ≤ 5 ∧ s.seq = .idle ∧ s.noRandomSource = false ∧ 3 ≤ (8 : BitVec 13).toNat / 2 ∧
      3 * ((8 : BitVec 13).toNat / 2) ≤ s.params.width ∧
      KeyPrimes ((8 : BitVec 13).toNat / 2) (0 : BitVec 7).toNat s.maxTry s.source (some (11, 13)) 3 []) ∧
    (s'.seq = .idle ∧ s'.noRandomSource = false ∧
      KeyPrimes ((8 : BitVec 13).toNat / 2) (0 : BitVec 7).toNat s'.maxTry s'.source none 1 [13]) :=
  ⟨⟨by decide, rfl, rfl, by decide, by decide, keyPrimes_resampled⟩, rfl, rfl, keyPrimes_timeout⟩

/-- The least and the greatest legal `nbits` at `W = 64` (V-KG-3). -/
theorem witness_KeygenWithoutRounds :
    let s := block 0 0 0 0 1 [5, 7, 9] 264
    ((5 : RegIdx).val ≤ 5 ∧ s.seq = .idle ∧ s.noRandomSource = false ∧ s.maxTry ≠ 1 ∧
      3 ≤ (6 : BitVec 13).toNat / 2 ∧ (43 : BitVec 13).toNat / 2 ≤ 32 ∧
      3 * ((43 : BitVec 13).toNat / 2) ≤ s.params.width ∧ s.source = 5 :: 7 :: [9] ∧
      4 * s.params.width + 8 ≤ s.env.turn) ∧
    (5 = (5 : Word).toNat % 2 ^ ((6 : BitVec 13).toNat / 2) ∧ 7 = (7 : Word).toNat % 2 ^ ((6 : BitVec 13).toNat / 2) ∧
      5 = (5 : Word).toNat % 2 ^ ((43 : BitVec 13).toNat / 2) ∧
      7 = (7 : Word).toNat % 2 ^ ((43 : BitVec 13).toNat / 2) ∧
      5 ∉ [0, 1, 4] ∧ 7 ∉ [0, 1, 4] ∧ ¬ (5 = 7 ∨ (5 - 1) % 7 = 0 ∨ (7 - 1) % 5 = 0)) := by decide +kernel

/-- A command that starts, and one that runs. -/
theorem witness_OperandsChangeOnlyAtSuccess :
    ((largest 132).busy = true → (largest 132).status.done = false) ∧
      (∃ t, exec (.gcd 2 0 1) (largest 132) = .next t ∧ t.status.done = true) ∧
      dividing.status.done = false ∧ ∃ t, exec (.gcd 2 0 1) dividing = .next t :=
  ⟨by decide, ⟨_, rfl, by decide +kernel⟩, by decide +kernel, _, rfl⟩

/-- Both selections of the source, a starting and a running command, each kind of command. -/
theorem witness_CommandFrame :
    (∃ t, exec (.gcd 2 0 1) (largest 132) = .next t) ∧ (largest 132).ctrl.getLsbD 0 = false ∧
      (largest 132).busy = false ∧ (∃ t, exec (.mrtest 1 0 1) waiting = .next t) ∧
      waiting.ctrl.getLsbD 0 = true ∧ waiting.busy = true ∧ randomised (.gcd 2 0 1) = false ∧
      samplesCandidates (.mrtest 1 0 1) = false :=
  ⟨⟨_, rfl⟩, by decide, by decide, ⟨_, rfl⟩, by decide +kernel, by decide +kernel, rfl, rfl⟩

theorem witness_WaitingCommandStands : waiting.rngWait = true := by decide +kernel

/-- Ready without a valid word, ready with two words (a witness draw and a candidate draw), and not ready: in FIFO mode,
Idle, and in a command that draws nothing. -/
theorem witness_EntropyPortHandshake :
    let candidate := ran (.primegen 0 8 1) (block 0 0 0 0 0 [] 4)
    let words := fun s : State => { s with env := { s.env with port := [5, 7] } }
    (waitingAtPort.portReady = true ∧ waitingAtPort.portValid = false) ∧
      ((words waitingAtPort).portReady = true ∧ (words waitingAtPort).seq = .run .witness ∧
        randomised (.mrtest 1 0 1) = true ∧ (words waitingAtPort).env.port = 5 :: [7]) ∧
      ((words candidate).portReady = true ∧ (words candidate).seq = .run .candidate ∧
        samplesCandidates (.primegen 0 8 1) = true ∧ (words candidate).env.port = 5 :: [7]) ∧
      ((words waiting).params.extRng = true ∧ (words waiting).portReady = false) ∧
      ((words State.reset).params.extRng = true ∧ (words State.reset).portReady = false) ∧
      ((words dividing).params.extRng = true ∧ (words dividing).portReady = false) := by decide +kernel

/-- V-MR-19: the ABORT of a command that waits. -/
theorem witness_LeavingRunClearsWork :
    let s := waiting.withArrival (arrive (memWrite waiting.params 0x024 1) 0)
    ∃ t, step s = .next t ∧ s.busy = true ∧ t.seq = .idle := ⟨_, rfl, by decide +kernel, by decide +kernel⟩

/-- A GCD that runs, beside one with another remainder, while the host reads STATUS. -/
theorem witness_AccessesDoNotSeeTheWorkOfARunningCommand :
    dividing.busy = true ∧ dividing.sameButWork { dividing with work := { dividing.work with r := 7 } } ∧
      dividing ≠ { dividing with work := { dividing.work with r := 7 } } ∧
      ∃ t, step (dividing.withArrival (arrive (hostSt dividing.params) 0)) = .next t :=
  ⟨by decide +kernel, rfl, by decide +kernel, _, rfl⟩

/-- An Idle block, a command that runs, and one that waits. -/
theorem witness_EveryStepKeepsTheInvariant :
    (State.reset.Inv ∧ ∃ t, step State.reset = .next t) ∧ (dividing.Inv ∧ ∃ t, step dividing = .next t) ∧
      waiting.Inv := by
  refine ⟨⟨?_, _, rfl⟩, ⟨?_, _, rfl⟩, ?_⟩ <;> constructor <;>
    first
      | (unfold State.operandsFit; decide +kernel)
      | decide +kernel

/-- MAXTRY = 1: before the one candidate, and while it is tested. -/
theorem witness_EveryStepKeepsTheAttemptBound :
    drawing.attemptsBounded ∧ testing.attemptsBounded ∧ (drawing.busy = true ∧ drawing.maxTry = 1) ∧
      (testing.busy = true ∧ testing.attempts = 1) ∧ ∃ t, step testing = .next t := by
  unfold State.attemptsBounded
  exact ⟨by decide +kernel, by decide +kernel, by decide +kernel, by decide +kernel, _, rfl⟩

/-- A running illegal word. -/
theorem witness_EveryStepKeepsIllegalWordsAtStart :
    accepted.illegalAtStart ∧ accepted.busy = true ∧ ¬ LegalWord accepted.lastcmd ∧ ∃ t, step accepted = .next t := by
  unfold State.illegalAtStart LegalWord
  exact ⟨by decide +kernel, by decide +kernel, by decide +kernel, _, rfl⟩

theorem witness_MappedReads :
    (largest 0).params.width ≤ 4096 ∧ 0 < (largest 0).params.width / 32 ∧ 1 < (largest 0).params.width / 32 := by decide

theorem witness_CfgReadShowsTheParameters : Config.params.legal = true := by decide

theorem witness_WordsMakeTheValue :
    Config.params.width % 32 = 0 ∧ 2 ^ 64 - 1 < 2 ^ Config.params.width := by decide

/-- Both clauses, at the last word of X7. -/
theorem witness_OperandWrite :
    (largest 0).params.width ≤ 4096 ∧ 1 < (largest 0).params.width / 32 ∧ (largest 0).busy = false ∧
      dividing.busy = true ∧ (largest 0).params.width % 32 = 0 ∧
      (largest 0).x[(7 : RegIdx)] < 2 ^ (largest 0).params.width ∧ dividing.params.width = 64 := by decide +kernel

/-- Each reason at the edges of its range: width, alignment, the holes after the control registers and after X7. -/
theorem witness_UnservedAccesses :
    (0x1000 < 0x2000 ∧ AccessSize.b8 ≠ .b32) ∧ (0x1FFE < 0x2000 ∧ 0x1FFE % 4 ≠ 0) ∧
      (0x028 ≤ 0x028 ∧ 0x028 < 0x1000) ∧ (0x028 ≤ 0xFFC ∧ 0xFFC < 0x1000) ∧
      (0x1000 ≤ 0x1008 ∧ Config.params.width / 32 ≤ 0x1008 % 0x200 / 4) ∧
      (0x1FFC < 0x2000 ∧ Config.params.width / 32 ≤ 0x1FFC % 0x200 / 4) := by decide

theorem witness_ReadOnlyWritesAreIgnored : 0x020 ∈ [0x000, 0x004, 0x014, 0x018, 0x020] := by decide

theorem witness_CtrlWrite : State.reset.busy = false ∧ dividing.busy = true := by decide +kernel

/-- An Idle block, and a command that is aborted. -/
theorem witness_AbortWrite :
    (State.reset.busy = false ∨ (2 : Word).getLsbD 0 = true) ∧ (waiting.busy = false ∨ (3 : Word).getLsbD 0 = true) := by
  decide +kernel

theorem witness_FlushWhileRunning : waiting.busy = true ∧ (2 : Word).getLsbD 0 = false := by decide +kernel

theorem witness_IdempotentWrites :
    Target.ctrl = .ctrl ∧ ∃ i j, Target.operand 7 1 = .operand i j := ⟨rfl, 7, 1, rfl⟩

/-- V-IRQ-1 with IE = 1, and the same command with IE = 0. -/
theorem witness_InterruptFollowsCompletion :
    ((block 48 18 0 0 2 [] 132).Inv ∧ ∃ t, exec (.gcd 2 0 1) (block 48 18 0 0 2 [] 132) = .next t) ∧
      (block 48 18 0 0 0 [] 132).Inv ∧ (block 48 18 0 0 0 [] 132).ctrl.getLsbD 1 = false ∧
      ∃ t, exec (.gcd 2 0 1) (block 48 18 0 0 0 [] 132) = .next t := by
  refine ⟨⟨?_, _, rfl⟩, ?_, rfl, _, rfl⟩ <;> constructor <;>
    first
      | (unfold State.operandsFit; decide +kernel)
      | decide +kernel

end Sys2Proof.Tests
end

/-! PROOF. The registers of 10_state.md: their reset values (R53), a write of CTRL (R34) and a write of STATUS (R45). -/

namespace Sys2Proof.Machine

/-! ### The written words, bit by bit -/

/-- The mask of CTRL spares RNGSRC, IE and MAXTRY (R33). -/
theorem ctrlMask_bit : ∀ b < 32, ctrlMask.getLsbD b = (decide (b ≤ 1) || decide (16 ≤ b)) := by decide

/-- A written word keeps its bits at the fields of CTRL and is 0 at the reserved positions (R30, R33). -/
theorem and_ctrlMask_bit (v : Word) {b : Nat} (hb : b < 32) :
    (v &&& ctrlMask).getLsbD b = (v.getLsbD b && (decide (b ≤ 1) || decide (16 ≤ b))) := by
  rw [BitVec.getLsbD_and, ctrlMask_bit b hb]

/-- The positions in STATUS of the W1C bits: DONE, ERR, ACCERR, CMDOVR and FOVF (R35, R45). -/
abbrev IsW1cBit (b : Nat) : Prop := b = 1 ∨ b = 2 ∨ b = 6 ∨ b = 7 ∨ b = 8

theorem w1cMask_bit : ∀ b < 32, (0x000001C6 : Word).getLsbD b = decide (IsW1cBit b) := by decide

/-- What clearing leaves of the word STATUS reads at one bit (R45). -/
theorem clearedWord_bit (w v : Word) {b : Nat} (hb : b < 32) :
    (w &&& ~~~(v &&& 0x000001C6)).getLsbD b = (w.getLsbD b && !(v.getLsbD b && decide (IsW1cBit b))) := by
  rw [BitVec.getLsbD_and, BitVec.getLsbD_not, BitVec.getLsbD_and, w1cMask_bit b hb, decide_eq_true hb, Bool.true_and]

/-- What a STATUS write stores is seen in the word STATUS reads: the W1C bits written 1 are gone, and no other (R45). -/
theorem statusWord_writeStatus (v : Word) (s : State) :
    (writeStatus v s).statusWord = s.statusWord &&& ~~~(v &&& 0x000001C6) := by
  refine BitVec.eq_of_getLsbD_eq fun b hb => ?_
  have hold := statusWord_bit s.status s b hb
  have hnew := statusWord_bit (s.status.writeOneToClear v) s b hb
  rw [clearedWord_bit _ _ hb, hold, writeStatus, hnew]
  unfold Status.writeOneToClear
  by_cases hw : IsW1cBit b
  · obtain rfl | rfl | rfl | rfl | rfl := hw <;> simp
  · rw [decide_eq_false hw, Bool.and_false, Bool.not_false, Bool.and_true]
    obtain ⟨h1, h2, h6, h7, h8⟩ : b ≠ 1 ∧ b ≠ 2 ∧ b ≠ 6 ∧ b ≠ 7 ∧ b ≠ 8 := by omega
    simp only [h1, h2, h6, h7, h8, if_false]

/-! ### CTRL under a command -/

theorem Moved.ctrl_eq {i : Instr} {u t : State} (h : Moved i u t) : t.ctrl = u.ctrl := by
  obtain ⟨att, taken, rest, ph, wk, -, -, -, rfl⟩ := h
  exact withSource_ctrl _ rest

theorem Outcome.ctrl_eq {i : Instr} {u t : State} (h : Outcome i u t) : t.ctrl = u.ctrl := by
  cases h with
  | runs _ h => exact h.ctrl_eq
  | completes t writes res noinv h => rw [complete_ctrl, h.ctrl_eq]
  | raises t e h => rw [raise_ctrl, h.ctrl_eq]

/-- No command changes CTRL (R34). -/
theorem exec_ctrl {i : Instr} {s t : State} (h : exec i s = .next t) : t.ctrl = s.ctrl := by
  obtain ⟨t', he, ho⟩ := exec_outcome i s
  cases he.symm.trans h
  rw [ho.ctrl_eq, issue_ctrl, spendTurn_ctrl]

/-! ### What the two writes do -/

theorem writeCtrl_of_idle (v : Word) {s : State} (h : s.busy = false) :
    writeCtrl v s = { s with ctrl := v &&& ctrlMask } := by
  simp [writeCtrl, h]

theorem writeCtrl_of_busy (v : Word) {s : State} (h : s.busy = true) : writeCtrl v s = accessError s := by
  simp [writeCtrl, h]

/-- A step that serves a CTRL write (R29, R65). -/
theorem step_ctrl_write (s : State) (v : Word) :
    step (s.withArrival (arrive (memWrite s.params 0x008 v) 0)) = .next (writeCtrl v (s.begun 0)) :=
  step_write_zero s 0x008 v (by decide) (by decide) Target.noConfusion

/-- A step that serves a STATUS write (R29, R65). -/
theorem step_status_write (s : State) (v : Word) :
    step (s.withArrival (arrive (memWrite s.params 0x00C v) 0)) = .next (writeStatus v (s.begun 0)) :=
  step_write_zero s 0x00C v (by decide) (by decide) Target.noConfusion

/-! ### The statements -/

/-- Settles O48: the write stores `writeOneToClear`, whose effect on the word is `statusWord_writeStatus`. -/
theorem statusWrite : Obligations.StatusWrite := fun s v =>
  ⟨s.status.writeOneToClear v, step_status_write s v, statusWord_writeStatus v s⟩

/-- Settles O37: each register of `State.reset` by the lemma of its field of `State.resetOf`. -/
theorem resetValues : Obligations.ResetValues := by
  unfold Obligations.ResetValues State.reset
  refine ⟨fun i => ?_, resetOf_ctrl _ _, ?_, resetOf_lastcmd _ _, resetOf_attempts _ _, resetOf_fifo _ _,
    resetOf_seq _ _, resetOf_work _ _, ?_⟩
  · rw [resetOf_x]; exact Vector.getElem_replicate i.isLt
  · decide
  · rw [State.irq, State.ie, resetOf_ctrl]; rfl

/-- Settles O47: the two branches of `writeCtrl`, and `exec_ctrl` for the commands. -/
theorem ctrlWrite : Obligations.CtrlWrite := by
  intro s v
  refine ⟨fun hidle => ⟨v &&& ctrlMask, ?_, fun b hb => and_ctrlMask_bit v hb⟩, fun hbusy => ?_, fun i t => exec_ctrl⟩
  · rw [step_ctrl_write, writeCtrl_of_idle v (s := s.begun 0) hidle]
  · rw [step_ctrl_write, writeCtrl_of_busy v (s := s.begun 0) hbusy]; rfl

end Sys2Proof.Machine

/-! PROOF. The register window of 20_memory.md: writes of operand words (R67), and the accesses that are not served
(R64, R68). -/

namespace Sys2Proof.Machine

/-! ### Writes of operand words -/

/-- Every mapped word of every register lies in the window (R62). -/
theorem operandOffset_lt {W : Nat} (i : RegIdx) {j : Nat} (hW : W ≤ 4096) (hj : j < W / 32) :
    operandOffset i j < 0x2000 := by
  have hi := i.isLt
  unfold operandOffset; omega

theorem operandOffset_aligned (i : RegIdx) (j : Nat) : operandOffset i j % 4 = 0 := by unfold operandOffset; omega

theorem writeOperand_of_idle (i : RegIdx) (j : Nat) (v : Word) {s : State} (h : s.busy = false) :
    writeOperand i j v s = { s with x := s.x.set i (withWord s.x[i] j v) } := by
  simp [writeOperand, h]

theorem writeOperand_of_busy (i : RegIdx) (j : Nat) (v : Word) {s : State} (h : s.busy = true) :
    writeOperand i j v s = accessError s := by
  simp [writeOperand, h]

/-- A step that serves a write of a mapped operand word (R62, R65). -/
theorem step_operand_write {s : State} (i : RegIdx) {j : Nat} (v : Word) (hp : s.params.width ≤ 4096)
    (hj : j < s.params.width / 32) :
    step (s.withArrival (arrive (memWrite s.params (operandOffset i j) v) 0)) =
      .next (writeOperand i j v (s.begun 0)) := by
  have htarget := targetAt_operandOffset i hp hj
  rw [step_write_zero s _ v (operandOffset_lt i hp hj) (operandOffset_aligned i j) (by simp [htarget]), htarget]
  rfl

/-! ### Accesses that are not served -/

/-- An access that is not 32 bits wide at a multiple of 4, or whose offset names nothing (R64, R68). -/
def Unserved (p : Params) (size : AccessSize) (off : Nat) : Prop :=
  wellFormedAccess size off = false ∨ targetAt p off = .unmapped

theorem wellFormedAccess_eq_false {size : AccessSize} {off : Nat} :
    wellFormedAccess size off = false ↔ size ≠ .b32 ∨ off % 4 ≠ 0 := by
  simp [wellFormedAccess, Decidable.imp_iff_not_or]

/-- ABORT is the last register of the control page (R61, R68). -/
theorem targetAt_control_hole (p : Params) {off : Nat} (hlo : 0x028 ≤ off) (hhi : off < 0x1000) :
    targetAt p off = .unmapped := by
  rw [targetAt, if_pos hhi, controlTarget]
  repeat rw [if_neg (by omega)]

/-- A register's window ends with the last word of its `W` bits (R62, R68). -/
theorem targetAt_operand_hole {p : Params} {off : Nat} (hlo : 0x1000 ≤ off) (hj : p.width / 32 ≤ off % 0x200 / 4) :
    targetAt p off = .unmapped := by
  rw [targetAt, if_neg (by omega), operandTarget, if_neg (by omega)]

/-- The spec's list of the accesses that are not served (R64, R68). -/
theorem unserved_of_reason {p : Params} {size : AccessSize} {off : Nat}
    (h : size ≠ .b32 ∨ off % 4 ≠ 0 ∨ (0x028 ≤ off ∧ off < 0x1000) ∨
      (0x1000 ≤ off ∧ p.width / 32 ≤ off % 0x200 / 4)) : Unserved p size off := by
  obtain hsize | halign | ⟨hlo, hhi⟩ | ⟨hlo, hj⟩ := h
  · exact .inl (wellFormedAccess_eq_false.2 (.inl hsize))
  · exact .inl (wellFormedAccess_eq_false.2 (.inr halign))
  · exact .inr (targetAt_control_hole p hlo hhi)
  · exact .inr (targetAt_operand_hole hlo hj)

theorem busWrite_of_unserved {s : State} {size : AccessSize} {off : Nat} (v : Word) (h : Unserved s.params size off) :
    busWrite size off v s = accessError s := by
  obtain hwf | hmap := h
  · simp [busWrite, hwf]
  · simp [busWrite, hmap, writeTarget]

theorem busRead_of_unserved {s : State} {size : AccessSize} {off : Nat} (h : Unserved s.params size off) :
    busRead size off s = respond 0 (accessError s) := by
  obtain hwf | hmap := h
  · simp [busRead, hwf]
  · simp [busRead, hmap]

/-- An unserved write reaches no CMD, so it gets no command accepted. -/
theorem acceptedWord_of_unserved {s : State} {size : AccessSize} {off : Nat} (v : Word) (hoff : off < 0x2000)
    (h : Unserved s.params size off) :
    acceptedWord (.access (.write (s.params.base + off) size v)) s = none := by
  obtain hwf | hmap := h
  · simp [acceptedWord, windowOffset_base hoff, hwf]
  · simp [acceptedWord, windowOffset_base hoff, hmap]

theorem serve_unserved_write {s : State} {size : AccessSize} {off : Nat} (v : Word) (hoff : off < 0x2000)
    (h : Unserved s.params size off) :
    serve (.access (.write (s.params.base + off) size v)) s = accessError s := by
  simp [serve, serveAccess, windowOffset_base hoff, busWrite_of_unserved v h]

theorem serve_unserved_read {s : State} {size : AccessSize} {off : Nat} (hoff : off < 0x2000)
    (h : Unserved s.params size off) :
    serve (.access (.read (s.params.base + off) size)) s = respond 0 (accessError s) := by
  simp [serve, serveAccess, windowOffset_base hoff, busRead_of_unserved h]

/-- A step that serves an access which accepts no command, with no internal step after it (R65, R70). -/
theorem step_access_zero {s : State} {a : Access} (h : acceptedWord (.access a) (s.begun 0) = none) :
    step (s.withArrival (arrive a 0)) = .next (serve (.access a) (s.begun 0)) :=
  step_of_turn_zero h (serve_served _ _).turn_eq

/-! ### The statements -/

/-- Settles O44: the two branches of `writeOperand`, with `wordOf_withWord` and `withWord_lt` for the new value. -/
theorem operandWrite : Obligations.OperandWrite := by
  intro s i j v hp hj
  have hstep := step_operand_write i v hp hj
  refine ⟨fun hidle => ⟨withWord s.x[i] j v, ?_, fun j' => wordOf_withWord _ j j' v, fun hW => withWord_lt hW hj⟩,
    fun hbusy => ?_⟩
  · exact hstep.trans (congrArg _ (writeOperand_of_idle i j v (s := s.begun 0) hidle))
  · exact hstep.trans (congrArg _ (writeOperand_of_busy i j v (s := s.begun 0) hbusy))

/-- Settles O45: each reason makes the access `Unserved`, and serving such an access only sets ACCERR. -/
theorem unservedAccesses : Obligations.UnservedAccesses := by
  intro s size off v hoff hreason
  have h : Unserved (s.begun 0).params size off := unserved_of_reason hreason
  constructor
  · exact (step_access_zero (acceptedWord_of_unserved v hoff h)).trans (congrArg _ (serve_unserved_write v hoff h))
  · exact (step_access_zero rfl).trans (congrArg _ (serve_unserved_read hoff h))

end Sys2Proof.Machine

/-! PROOF. Which words the decoder takes (R96, R99, R101), and what a CMD write at BUSY = 0 does with a word that it
takes and with one that it rejects (R204). -/

namespace Sys2Proof.Machine

/-! ### The rows of the opcode map -/

/-- Every row compares the whole of OP (R96, R98): the OP of a word it spells is that of its pattern. -/
theorem fieldOp_of_spells {row : OpcodeRow} {w : Word} (hrow : row ∈ opcodeMap) (h : row.spells w = true) :
    fieldOp w = fieldOp row.pattern := by
  have hmask : ∀ r ∈ opcodeMap, fieldOp r.mask = BitVec.allOnes 6 := by decide
  calc fieldOp w = fieldOp w &&& fieldOp row.mask := by rw [hmask row hrow, BitVec.and_allOnes]
    _ = fieldOp (w &&& row.mask) := BitVec.extractLsb'_and.symm
    _ = fieldOp row.pattern := by rw [(spells_iff row w).1 h]

/-- No word matches two rows, since no two rows share an OP (R96). -/
theorem row_eq_of_spells {r r' : OpcodeRow} {w : Word} (hr : r ∈ opcodeMap) (hr' : r' ∈ opcodeMap)
    (h : r.spells w = true) (h' : r'.spells w = true) : r = r' := by
  have hop : ∀ r ∈ opcodeMap, ∀ r' ∈ opcodeMap, fieldOp r.pattern = fieldOp r'.pattern → r = r' := by decide
  exact hop r hr r' hr' ((fieldOp_of_spells hr h).symm.trans (fieldOp_of_spells hr' h'))

/-! ### Legal words -/

/-- A word that matches a row is legal if the bound on RD holds where the row is that of a key command (R99). -/
theorem legalWord_of_spells {row : OpcodeRow} {w : Word} (hrow : row ∈ opcodeMap) (h : row.spells w = true)
    (hrd : row = rowKeyderive ∨ row = rowKeygen → (fieldRd w).val ≤ 5) : LegalWord w :=
  ⟨⟨row, hrow, h⟩, fun hkey =>
    hrd (hkey.imp (row_eq_of_spells hrow (by decide) h) (row_eq_of_spells hrow (by decide) h))⟩

/-- The decoder takes legal words only: each branch that gives a command has matched its row (R99, R101). -/
theorem legalWord_of_decode_ok {w : Word} {i : Instr} (h : decode w = .ok i) : LegalWord w := by
  unfold decode at h
  split_ifs at h with hgcd hlcm hmodinv hmodexp hmrtest hprimegen hkeyderive hrd hkeygen hrd
  · exact legalWord_of_spells (by decide) hgcd (absurd · (by decide))
  · exact legalWord_of_spells (by decide) hlcm (absurd · (by decide))
  · exact legalWord_of_spells (by decide) hmodinv (absurd · (by decide))
  · exact legalWord_of_spells (by decide) hmodexp (absurd · (by decide))
  · exact legalWord_of_spells (by decide) hmrtest (absurd · (by decide))
  · exact legalWord_of_spells (by decide) hprimegen (absurd · (by decide))
  · exact legalWord_of_spells (by decide) hkeyderive fun _ => hrd
  · exact legalWord_of_spells (by decide) hkeygen fun _ => hrd

/-- The decoder rejects illegal words only: a key command's RD is out of range, or no row matches (R98, R99, R101). -/
theorem not_legalWord_of_decode_error {w : Word} {e : Illegal} (h : decode w = .error e) : ¬ LegalWord w := by
  rintro ⟨⟨row, hrow, hspells⟩, hkey⟩
  unfold decode at h
  split_ifs at h with hgcd hlcm hmodinv hmodexp hmrtest hprimegen hkeyderive hrd hkeygen hrd
  · exact hrd (hkey (.inl hkeyderive))
  · exact hrd (hkey (.inr hkeygen))
  · simp only [opcodeMap, List.mem_cons, List.not_mem_nil, or_false] at hrow
    obtain rfl | rfl | rfl | rfl | rfl | rfl | rfl | rfl := hrow <;> contradiction

/-! ### The CMD write of a word at BUSY = 0 -/

/-- The step that takes a command word runs it with the arrival's turn (R25, R70). -/
theorem step_offers {s : State} (w : Word) (n : Nat) (hidle : s.busy = false) :
    step (s.offers w n) = dispatch w (s.begun n) := by
  have haccepted : acceptedWord (s.offers w n).nextArrival.input (s.offers w n).beginStep = some w :=
    acceptedWord_cmd (s := s.begun n) hidle w
  unfold step serveArrival
  rw [haccepted]
  rfl

theorem dispatch_of_decode_ok {w : Word} {i : Instr} (h : decode w = .ok i) (s : State) : dispatch w s = exec i s := by
  unfold dispatch; rw [h]

theorem dispatch_of_decode_error {w : Word} {e : Illegal} (h : decode w = .error e) (s : State) :
    dispatch w s = .next (runCommand w illegalStep s) := by
  unfold dispatch; rw [h]

/-- A rejected word ends with EILL in the first internal step after its acceptance, and takes no random word (R204). -/
theorem runCommand_illegalStep {s : State} (w : Word) (hidle : s.seq = .idle) (hturn : 1 ≤ s.env.turn) :
    runCommand w illegalStep s = s.failed w 0 .eill := by
  rw [runCommand_fails (rest := s.source) hidle start_reaches hturn, failed_withSource_self]

/-! ### The statement -/

/-- Settles O10: by what the decoder answers, the word is legal and the step is that of its command, or it is not and
`runCommand_illegalStep` gives the EILL completion. -/
theorem onlyLegalWordsRunOthersEndWithEill : Obligations.OnlyLegalWordsRunOthersEndWithEill := by
  intro s w n hidle hturn
  rw [step_offers w n hidle]
  cases hdecode : decode w with
  | ok i =>
    exact ⟨fun _ => ⟨i, rfl, dispatch_of_decode_ok hdecode _⟩, fun h => absurd (legalWord_of_decode_ok hdecode) h⟩
  | error e =>
    refine ⟨fun h => absurd h (not_legalWord_of_decode_error hdecode), fun _ => ?_⟩
    rw [dispatch_of_decode_error hdecode, runCommand_illegalStep (s := s.begun n) w ((not_busy_iff s).1 hidle) hturn]

end Sys2Proof.Machine

/-! PROOF. The ABORT write of 60_exceptions.md: bit 0 ends a running command with EABORT (R207), bit 1 empties the FIFO
(R51), and neither leaves the sequencer anything to do in the rest of its turn. -/

namespace Sys2Proof.Machine

/-! ### The two actions of an ABORT write -/

/-- What FLUSH, bit 1 of the written word, leaves of the FIFO (R51). -/
def flushed (v : Word) (q : List Word) : List Word := if v.getLsbD 1 then [] else q

theorem abortRun_of_idle {s : State} (h : s.busy = false) : abortRun s = s := by simp [abortRun, h]

theorem abortRun_of_busy {s : State} (h : s.busy = true) : abortRun s = raise .eabort s := by simp [abortRun, h]

/-- With bit 0 set the write aborts, and bit 1 decides the FIFO (R51). -/
theorem writeAbort_of_abort {v : Word} (h : v.getLsbD 0 = true) (s : State) :
    writeAbort v s = { abortRun s with fifo := flushed v (abortRun s).fifo } := by
  cases hflush : v.getLsbD 1 <;> simp only [writeAbort, flushed, h, hflush] <;> rfl

/-- With bit 0 clear the write can only flush (R51). -/
theorem writeAbort_of_no_abort {v : Word} (h : v.getLsbD 0 = false) (s : State) :
    writeAbort v s = { s with fifo := flushed v s.fifo } := by
  cases hflush : v.getLsbD 1 <;> simp only [writeAbort, flushed, h, hflush] <;> rfl

/-- While BUSY = 0 bit 0 has no effect (R51, R207). -/
theorem writeAbort_of_idle (v : Word) {s : State} (h : s.busy = false) :
    writeAbort v s = { s with fifo := flushed v s.fifo } := by
  cases habort : v.getLsbD 0 with
  | true => rw [writeAbort_of_abort habort, abortRun_of_idle h]
  | false => exact writeAbort_of_no_abort habort s

/-- While BUSY = 1 bit 0 ends the command with EABORT, and bit 1 still decides the FIFO (R51, R207). -/
theorem writeAbort_of_busy {v : Word} {s : State} (h : s.busy = true) (habort : v.getLsbD 0 = true) :
    writeAbort v s = { raise .eabort s with fifo := flushed v s.fifo } := by
  rw [writeAbort_of_abort habort, abortRun_of_busy h, raise_fifo]

/-! ### The step that serves an ABORT write -/

theorem resume_of_idle {s : State} (h : s.seq = .idle) : resume s = .next (spendTurn s) := by
  unfold resume; rw [h]

/-- A step that serves an ABORT write (R29, R65). -/
theorem step_abort_write (s : State) (v : Word) (n : Nat) :
    step (s.withArrival (arrive (memWrite s.params 0x024 v) n)) = resume (writeAbort v (s.begun n)) :=
  step_write s 0x024 n v (by decide) (by decide) Target.noConfusion

/-! ### The statement -/

/-- Settles O50: busy or not, the write leaves the sequencer Idle, so that `resume` only spends the turn. -/
theorem abortWrite : Obligations.AbortWrite := by
  intro s v n h
  rw [step_abort_write]
  cases hbusy : s.busy with
  | false =>
    rw [writeAbort_of_idle v (s := s.begun n) hbusy]
    exact resume_of_idle ((not_busy_iff s).1 hbusy)
  | true =>
    have habort : v.getLsbD 0 = true := h.resolve_left (by simp [hbusy])
    rw [writeAbort_of_busy (s := s.begun n) hbusy habort]
    exact resume_of_idle rfl

end Sys2Proof.Machine

/-! PROOF. The two round trips of the encoding (R92, R93, R96, R101) and the legal words (R99). -/

namespace Sys2Proof.Machine

open Laws

/-! ### The decoder, one equation for each row of the opcode map (R101)

A word's OP tells its row from the rows that the decoder tries before it. -/

theorem decode_gcd {w : Word} (h : rowGcd.spells w = true) :
    decode w = .ok (.gcd (fieldRd w) (fieldRs1 w) (fieldRs2 w)) := by
  rw [decode, if_pos h]

theorem decode_lcm {w : Word} (h : rowLcm.spells w = true) :
    decode w = .ok (.lcm (fieldRd w) (fieldRs1 w) (fieldRs2 w)) := by
  obtain ⟨hop, -⟩ := (rowLcm_spells w).1 h
  rw [decode, if_neg (by simp [rowGcd_spells, hop]), if_pos h]

theorem decode_modinv {w : Word} (h : rowModinv.spells w = true) :
    decode w = .ok (.modinv (fieldRd w) (fieldRs1 w) (fieldRs2 w)) := by
  obtain ⟨hop, -⟩ := (rowModinv_spells w).1 h
  rw [decode, if_neg (by simp [rowGcd_spells, hop]), if_neg (by simp [rowLcm_spells, hop]), if_pos h]

theorem decode_modexp {w : Word} (h : rowModexp.spells w = true) :
    decode w = .ok (.modexp (fieldRd w) (fieldRs1 w) (fieldRs2 w) (fieldRs3 w)) := by
  obtain ⟨hop, -⟩ := (rowModexp_spells w).1 h
  rw [decode, if_neg (by simp [rowGcd_spells, hop]), if_neg (by simp [rowLcm_spells, hop]),
    if_neg (by simp [rowModinv_spells, hop]), if_pos h]

theorem decode_mrtest {w : Word} (h : rowMrtest.spells w = true) :
    decode w = .ok (.mrtest (fieldRd w) (fieldRs1 w) (fieldK w)) := by
  obtain ⟨hop, -⟩ := (rowMrtest_spells w).1 h
  rw [decode, if_neg (by simp [rowGcd_spells, hop]), if_neg (by simp [rowLcm_spells, hop]),
    if_neg (by simp [rowModinv_spells, hop]), if_neg (by simp [rowModexp_spells, hop]), if_pos h]

theorem decode_primegen {w : Word} (h : rowPrimegen.spells w = true) :
    decode w = .ok (.primegen (fieldRd w) (fieldNbits w) (fieldK w)) := by
  obtain ⟨hop, -⟩ := (rowPrimegen_spells w).1 h
  rw [decode, if_neg (by simp [rowGcd_spells, hop]), if_neg (by simp [rowLcm_spells, hop]),
    if_neg (by simp [rowModinv_spells, hop]), if_neg (by simp [rowModexp_spells, hop]),
    if_neg (by simp [rowMrtest_spells, hop]), if_pos h]

theorem decode_keyderive {w : Word} (h : rowKeyderive.spells w = true) (hrd : (fieldRd w).val ≤ 5) :
    decode w = .ok (.keyderive (fieldRd w) (fieldRs1 w) (fieldRs2 w)) := by
  obtain ⟨hop, -⟩ := (rowKeyderive_spells w).1 h
  rw [decode, if_neg (by simp [rowGcd_spells, hop]), if_neg (by simp [rowLcm_spells, hop]),
    if_neg (by simp [rowModinv_spells, hop]), if_neg (by simp [rowModexp_spells, hop]),
    if_neg (by simp [rowMrtest_spells, hop]), if_neg (by simp [rowPrimegen_spells, hop]), if_pos h, if_pos hrd]

theorem decode_keygen {w : Word} (h : rowKeygen.spells w = true) (hrd : (fieldRd w).val ≤ 5) :
    decode w = .ok (.keygen (fieldRd w) (fieldNbits w) (fieldK w)) := by
  obtain ⟨hop, -⟩ := (rowKeygen_spells w).1 h
  rw [decode, if_neg (by simp [rowGcd_spells, hop]), if_neg (by simp [rowLcm_spells, hop]),
    if_neg (by simp [rowModinv_spells, hop]), if_neg (by simp [rowModexp_spells, hop]),
    if_neg (by simp [rowMrtest_spells, hop]), if_neg (by simp [rowPrimegen_spells, hop]),
    if_neg (by simp [rowKeyderive_spells, hop]), if_pos h, if_pos hrd]

/-! ### A word is what its fields format -/

/-- Format R spells a word whose RES field is 0 (R92). -/
theorem formatR_fields {op : BitVec 6} {w : Word} (hop : w.toNat % 64 = op.toNat) (hres : w.toNat / 262144 = 0) :
    formatR op (fieldRd w) (fieldRs1 w) (fieldRs2 w) (fieldRs3 w) = w := by
  apply BitVec.eq_of_toNat_eq
  rw [formatR_toNat, fieldRd_val, fieldRs1_val, fieldRs2_val, fieldRs3_val, ← hop]
  omega

/-- Format R with RS3 = 0 spells a word whose bits from 15 up are 0 (R92, R96). -/
theorem formatR_fields_zero {op : BitVec 6} {w : Word} (hop : w.toNat % 64 = op.toNat) (hhi : w.toNat / 32768 = 0) :
    formatR op (fieldRd w) (fieldRs1 w) (fieldRs2 w) 0 = w := by
  have hrs3 : fieldRs3 w = 0 := Fin.ext (by rw [fieldRs3_val, hhi]; rfl)
  rw [← hrs3]
  exact formatR_fields hop (by omega)

/-- Format G spells every word (R93). -/
theorem formatG_fields {op : BitVec 6} {w : Word} (hop : w.toNat % 64 = op.toNat) :
    formatG op (fieldRd w) (fieldRs1 w) (fieldNbits w) (fieldK w) = w := by
  apply BitVec.eq_of_toNat_eq
  rw [formatG_toNat, fieldRd_val, fieldRs1_val, fieldNbits_toNat, fieldK_toNat, ← hop]
  omega

theorem formatG_fields_nbits_zero {op : BitVec 6} {w : Word} (hop : w.toNat % 64 = op.toNat)
    (hn : w.toNat / 4096 % 8192 = 0) : formatG op (fieldRd w) (fieldRs1 w) 0 (fieldK w) = w := by
  have hnbits : fieldNbits w = 0 := BitVec.eq_of_toNat_eq (by rw [fieldNbits_toNat, hn]; rfl)
  rw [← hnbits]
  exact formatG_fields hop

theorem formatG_fields_rs1_zero {op : BitVec 6} {w : Word} (hop : w.toNat % 64 = op.toNat)
    (hrs : w.toNat / 512 % 8 = 0) : formatG op (fieldRd w) 0 (fieldNbits w) (fieldK w) = w := by
  have hrs1 : fieldRs1 w = 0 := Fin.ext (by rw [fieldRs1_val, hrs]; rfl)
  rw [← hrs1]
  exact formatG_fields hop

/-! ### The statements -/

/-- Settles O1: the command's word matches the command's row, and its fields are those it was formatted from. -/
theorem decodeOfEncode : Obligations.DecodeOfEncode := by
  intro i hwf
  cases i with
  | gcd rd a b => rw [decode_gcd (WordMatchesRow.gcd rd a b)]; simp only [encode, field_formatR]
  | lcm rd a b => rw [decode_lcm (WordMatchesRow.lcm rd a b)]; simp only [encode, field_formatR]
  | modinv rd a n => rw [decode_modinv (WordMatchesRow.modinv rd a n)]; simp only [encode, field_formatR]
  | modexp rd a e n => rw [decode_modexp (WordMatchesRow.modexp rd a e n)]; simp only [encode, field_formatR]
  | mrtest rd n k => rw [decode_mrtest (WordMatchesRow.mrtest rd n k)]; simp only [encode, field_formatG]
  | primegen rd nbits k => rw [decode_primegen (WordMatchesRow.primegen rd nbits k)]; simp only [encode, field_formatG]
  | keyderive rd p q =>
    have hrd : (fieldRd (encode (.keyderive rd p q))).val ≤ 5 := by
      simpa only [encode, field_formatR, Instr.wellFormed, decide_eq_true_eq] using hwf
    rw [decode_keyderive (WordMatchesRow.keyderive rd p q) hrd]; simp only [encode, field_formatR]
  | keygen rd nbits k =>
    have hrd : (fieldRd (encode (.keygen rd nbits k))).val ≤ 5 := by
      simpa only [encode, field_formatG, Instr.wellFormed, decide_eq_true_eq] using hwf
    rw [decode_keygen (WordMatchesRow.keygen rd nbits k) hrd]; simp only [encode, field_formatG]

/-- Settles O2: the row that a legal word matches names the command, and fixes every bit of the word that is in no field of
the command. -/
theorem encodeOfDecode : Obligations.EncodeOfDecode := by
  intro w i h
  obtain ⟨⟨row, hrow, hspells⟩, hkey⟩ := legalWord_of_decode_ok h
  simp only [opcodeMap, List.mem_cons, List.not_mem_nil, or_false] at hrow
  obtain rfl | rfl | rfl | rfl | rfl | rfl | rfl | rfl := hrow
  · obtain ⟨hop, hhi⟩ := (rowGcd_spells w).1 hspells
    cases (decode_gcd hspells).symm.trans h
    exact ⟨rfl, formatR_fields_zero hop hhi⟩
  · obtain ⟨hop, hhi⟩ := (rowLcm_spells w).1 hspells
    cases (decode_lcm hspells).symm.trans h
    exact ⟨rfl, formatR_fields_zero hop hhi⟩
  · obtain ⟨hop, hhi⟩ := (rowModinv_spells w).1 hspells
    cases (decode_modinv hspells).symm.trans h
    exact ⟨rfl, formatR_fields_zero hop hhi⟩
  · obtain ⟨hop, hres⟩ := (rowModexp_spells w).1 hspells
    cases (decode_modexp hspells).symm.trans h
    exact ⟨rfl, formatR_fields hop hres⟩
  · obtain ⟨hop, hn⟩ := (rowMrtest_spells w).1 hspells
    cases (decode_mrtest hspells).symm.trans h
    exact ⟨rfl, formatG_fields_nbits_zero hop hn⟩
  · obtain ⟨hop, hrs⟩ := (rowPrimegen_spells w).1 hspells
    cases (decode_primegen hspells).symm.trans h
    exact ⟨rfl, formatG_fields_rs1_zero hop hrs⟩
  · obtain ⟨hop, hhi⟩ := (rowKeyderive_spells w).1 hspells
    have hrd := hkey (.inl hspells)
    cases (decode_keyderive hspells hrd).symm.trans h
    exact ⟨decide_eq_true hrd, formatR_fields_zero hop hhi⟩
  · obtain ⟨hop, hrs⟩ := (rowKeygen_spells w).1 hspells
    have hrd := hkey (.inr hspells)
    cases (decode_keygen hspells hrd).symm.trans h
    exact ⟨decide_eq_true hrd, formatG_fields_rs1_zero hop hrs⟩

/-- Settles O3: the decoder answers a command or an error, and what it rejects is no legal word. -/
theorem legalWordsAreTheRowsOfTheMap : Obligations.LegalWordsAreTheRowsOfTheMap := by
  intro w
  refine ⟨fun ⟨i, h⟩ => legalWord_of_decode_ok h, fun hlegal => ?_⟩
  cases h : decode w with
  | ok i => exact ⟨i, rfl⟩
  | error e => exact absurd hlegal (not_legalWord_of_decode_error h)

/-- Settles O4: each word is the encoding of the command beside it. -/
theorem exampleWordsDecode : Obligations.ExampleWordsDecode :=
  ⟨decodeOfEncode (.gcd 0 1 2) rfl, decodeOfEncode (.lcm 3 4 5) rfl, decodeOfEncode (.modinv 1 2 3) rfl,
    decodeOfEncode (.modexp 3 0 1 2) rfl, decodeOfEncode (.mrtest 1 0 20) rfl, decodeOfEncode (.primegen 0 8 2) rfl,
    decodeOfEncode (.keyderive 5 0 1) rfl, decodeOfEncode (.keygen 2 43 127) rfl⟩

end Sys2Proof.Machine

/-! PROOF. What a turn of a command leaves unchanged (R22, R24, R26, R151, R202, R203): the frame of every command, read off
`Outcome`, and the turns of a command as one run (R70). -/

namespace Sys2Proof.Machine

/-! ### What a running command keeps -/

/-- What neither a turn of a command nor its completion changes: the parameters, CTRL, LASTCMD, the sticky flags, and of the
surroundings all but the words at the port. -/
structure SameFrame (u t : State) : Prop where
  params : t.params = u.params
  ctrl : t.ctrl = u.ctrl
  lastcmd : t.lastcmd = u.lastcmd
  accerr : t.status.accerr = u.status.accerr
  cmdovr : t.status.cmdovr = u.status.cmdovr
  fovf : t.status.fovf = u.status.fovf
  inbox : t.env.inbox = u.env.inbox
  resp : t.env.resp = u.env.resp
  turn : t.env.turn = u.env.turn

/-- How the two random sources of `t` follow those of `u` (R151): the selected one has lost its first words, and none if
the command takes no random words; the other one is the same. -/
structure TakesWords (i : Instr) (u t : State) : Prop where
  front : ∃ taken, u.source = taken ++ t.source
  port : u.rngSrc = true → t.env.port = u.env.port
  fifo : u.rngSrc = false → t.fifo = u.fifo
  untouched : randomised i = false → t.fifo = u.fifo ∧ t.env.port = u.env.port

theorem Moved.sameFrame {i : Instr} {u t : State} (h : Moved i u t) : SameFrame u t := by
  obtain ⟨att, taken, rest, ph, wk, -, -, -, rfl⟩ := h
  constructor <;> rfl

theorem Moved.x_eq {i : Instr} {u t : State} (h : Moved i u t) : t.x = u.x := by
  obtain ⟨att, taken, rest, ph, wk, -, -, -, rfl⟩ := h; rfl

theorem Moved.status_eq {i : Instr} {u t : State} (h : Moved i u t) : t.status = u.status := by
  obtain ⟨att, taken, rest, ph, wk, -, -, -, rfl⟩ := h; rfl

theorem Moved.busy {i : Instr} {u t : State} (h : Moved i u t) : t.busy = true := by
  obtain ⟨att, taken, rest, ph, wk, -, -, -, rfl⟩ := h; rfl

/-- The source of a running command after its draws, with the words it has ready given. -/
theorem moved_takesWords {i : Instr} {u : State} {att : Word} {taken rest : List Word} {ph : Phase} {wk : Work}
    (hsrc : u.source = taken ++ rest) (hnone : randomised i = false → taken = []) :
    TakesWords i u (u.moved att rest ph wk) := by
  have hport : u.rngSrc = true → (u.moved att rest ph wk).env.port = u.env.port := fun hr => if_pos hr
  have hfifo : u.rngSrc = false → (u.moved att rest ph wk).fifo = u.fifo := fun hr => if_neg (Bool.eq_false_iff.1 hr)
  refine ⟨⟨taken, by rw [moved_source, hsrc]⟩, hport, hfifo, fun hi => ?_⟩
  have hsame : (u.moved att rest ph wk).source = u.source := by rw [moved_source, hsrc, hnone hi, List.nil_append]
  have hrng : (u.moved att rest ph wk).rngSrc = u.rngSrc := rfl
  unfold State.source at hsame
  rw [hrng] at hsame
  cases hr : u.rngSrc with
  | true => exact ⟨by simpa [hr] using hsame, hport hr⟩
  | false => exact ⟨hfifo hr, by simpa [hr] using hsame⟩

theorem Moved.takesWords {i : Instr} {u t : State} (h : Moved i u t) : TakesWords i u t := by
  obtain ⟨att, taken, rest, ph, wk, hsrc, hnone, -, rfl⟩ := h
  exact moved_takesWords hsrc hnone

theorem Moved.attempts_eq {i : Instr} {u t : State} (h : Moved i u t) (hi : samplesCandidates i = false) :
    t.attempts = u.attempts := by
  obtain ⟨att, taken, rest, ph, wk, -, -, hatt, rfl⟩ := h
  exact hatt hi

theorem Outcome.sameFrame {i : Instr} {u t : State} (h : Outcome i u t) : SameFrame u t := by
  cases h with
  | runs _ h => exact h.sameFrame
  | completes t writes res noinv h => exact { h.sameFrame with }
  | raises t e h => exact { h.sameFrame with }

theorem Outcome.takesWords {i : Instr} {u t : State} (h : Outcome i u t) : TakesWords i u t := by
  cases h with
  | runs _ h => exact h.takesWords
  | completes t writes res noinv h => exact { h.takesWords with }
  | raises t e h => exact { h.takesWords with }

theorem Outcome.attempts_eq {i : Instr} {u t : State} (h : Outcome i u t) (hi : samplesCandidates i = false) :
    t.attempts = u.attempts := by
  cases h with
  | runs _ h => exact h.attempts_eq hi
  | completes t writes res noinv h => exact h.attempts_eq hi
  | raises t e h => exact h.attempts_eq hi

/-- A turn writes operand registers only by a successful completion (R22, R24, R203). -/
theorem Outcome.x_eq_or_done {i : Instr} {u t : State} (h : Outcome i u t) :
    t.x = u.x ∨ (t.status.done = true ∧ t.seq = .idle) := by
  cases h with
  | runs _ h => exact .inl h.x_eq
  | completes t writes res noinv h => exact .inr ⟨rfl, rfl⟩
  | raises t e h => exact .inl h.x_eq

/-- A turn leaves every register that is no destination of the command (R22, R97). -/
theorem Outcome.getElem_x {i : Instr} {u t : State} (h : Outcome i u t) {r : RegIdx} (hr : r ∉ dests i) :
    t.x[r] = u.x[r] := by
  cases h with
  | runs _ h => rw [h.x_eq]
  | completes t writes res noinv h regs => rw [complete_x, writeAll_frame _ _ _ (regs ▸ hr), h.x_eq]
  | raises t e h => rw [raise_x, h.x_eq]

/-- A turn after which the sequencer is Idle has ended the command, which clears `work` (R28). -/
theorem Outcome.work_of_idle {i : Instr} {u t : State} (h : Outcome i u t) (ht : t.seq = .idle) : t.work = Work.zero := by
  cases h with
  | runs _ h => exact absurd h.busy (by simp [(not_busy_iff t).2 ht])
  | completes => rfl
  | raises => rfl

/-! ### Turns as one run -/

/-- What `exec` answers is the turn's internal steps from the state in which the command was issued (R26, R70). -/
theorem exec_withTurn (i : Instr) (s : State) (n : Nat) :
    exec i (s.withTurn n) = .next (runTurn (stepOf i) n (issue (encode i) (spendTurn s))) :=
  exec_eq i (s.withTurn n)

theorem outcome_of_exec {i : Instr} {s t : State} (h : exec i s = .next t) :
    Outcome i (issue (encode i) (spendTurn s)) t := by
  obtain ⟨t', he, ho⟩ := exec_outcome i s
  cases he.symm.trans h
  exact ho

/-- A running command with no turn is as it stands (R26). -/
theorem issue_spendTurn_of_running {t : State} (w : Word) (hbusy : t.busy = true) (hturn : t.env.turn = 0) :
    issue w (spendTurn t) = t := by
  have hspent : spendTurn t = t := by unfold spendTurn; rw [← hturn]
  rw [hspent, issue_running w hbusy]

/-! ### The statements -/

/-- Settles O7: the second turn starts from the state that the first one left, so that `runTurn_add` joins the two. -/
theorem turnsCompose : Obligations.TurnsCompose := by
  intro i s t m n h hbusy
  have hturn : t.env.turn = 0 := (outcome_of_exec h).sameFrame.turn.trans (by rw [issue_env]; rfl)
  rw [exec_withTurn] at h
  injection h with h
  rw [exec_withTurn, exec_withTurn, issue_spendTurn_of_running _ hbusy hturn, runTurn_add, h]

/-- Settles O31: registers change by a completion only, and it writes the destinations. -/
theorem operandsChangeOnlyAtSuccess : Obligations.OperandsChangeOnlyAtSuccess := by
  intro i s t _ h
  have ho := outcome_of_exec h
  refine ⟨?_, fun r hr => ?_⟩
  · simpa using ho.x_eq_or_done
  · simpa using ho.getElem_x hr

/-- Settles O32: the frame of `Outcome`, over what issuing the command leaves. -/
theorem commandFrame : Obligations.CommandFrame := by
  intro i s t h
  have ho := outcome_of_exec h
  have hf := ho.sameFrame
  have hw := ho.takesWords
  have hstatus := issue_status (encode i) (spendTurn s)
  refine ⟨by simpa using hf.params, by simpa using hf.ctrl, ?_, ?_, ?_, by simpa using hf.inbox, by simpa using hf.resp,
    ?_, ?_, ?_, ?_, fun hi => ?_, fun hi => ?_⟩
  · rw [hf.accerr, hstatus]; split <;> rfl
  · rw [hf.cmdovr, hstatus]; split <;> rfl
  · rw [hf.fovf, hstatus]; split <;> rfl
  · rw [hf.lastcmd, issue_lastcmd]; rfl
  · simpa using hw.front
  · intro hr; simpa using hw.port (by rw [issue_rngSrc]; exact hr)
  · intro hr; simpa using hw.fifo (by rw [issue_rngSrc]; exact hr)
  · simpa using hw.untouched hi
  · rw [ho.attempts_eq hi, issue_attempts]; rfl

/-- Settles O33: a command that waits runs, so it is not issued again, and its turn takes no internal step. -/
theorem waitingCommandStands : Obligations.WaitingCommandStands := by
  intro i s hwait
  have hbusy : (spendTurn s).busy = true := by
    by_contra hidle
    have := rngWait_of_idle ((not_busy_iff s).1 (by simpa using hidle))
    simp [this] at hwait
  rw [exec_eq, runCommand, issue_running _ hbusy, runTurn_waiting _ _ (by simpa using hwait)]
  rfl

end Sys2Proof.Machine

/-! PROOF. What one step can do, said once: it serves the arrival, and then a command that runs takes its turn (R65, R70,
R204). From it: every step answers, an illegal word stands at its start, leaving Run clears `work`, and no arrival sees the
work of a running command (R27, R28). -/

namespace Sys2Proof.Machine

/-! ### One step -/

/-- Everything that a turn can do to the running state `u`, by what its LASTCMD is (R204): a command runs, an illegal word
stands or ends with EILL. -/
inductive Ran (u : State) : State → Prop where
  | command (t : State) (i : Instr) (n : Nat) (legal : decode u.lastcmd = .ok i) (turn : t = runTurn (stepOf i) n u)
      (h : Outcome i u t) : Ran u t
  | stands (e : Illegal) (illegal : decode u.lastcmd = .error e) : Ran u u
  | eill (e : Illegal) (illegal : decode u.lastcmd = .error e) : Ran u (raise .eill u)

/-- Running a word is a turn of the state in which it has been issued, if the word is that of the command that runs. -/
theorem dispatch_ran {w : Word} {s : State} (hw : s.busy = true → s.lastcmd = w) :
    ∃ t, dispatch w s = .next t ∧ Ran (issue w (spendTurn s)) t := by
  have hlast : (issue w (spendTurn s)).lastcmd = w := by
    rw [issue_lastcmd]; split
    · exact hw ‹_›
    · rfl
  obtain ⟨t, ht, ⟨i, hi, ho⟩ | ⟨⟨e, he⟩, rfl | rfl⟩⟩ := dispatch_outcome w s
  · obtain ⟨-, henc⟩ := encodeOfDecode w i hi
    have hexec := (dispatch_of_decode_ok hi s).symm.trans ht
    rw [exec_eq, henc] at hexec
    injection hexec with hturn
    exact ⟨t, ht, .command t i s.env.turn (by rw [hlast]; exact hi) hturn.symm (henc ▸ ho)⟩
  · exact ⟨_, ht, .stands e (by rw [hlast]; exact he)⟩
  · exact ⟨_, ht, .eill e (by rw [hlast]; exact he)⟩

/-- An input that gets a word accepted is served by accepting it (R25). -/
theorem serve_of_acceptedWord {input : Input} {s : State} {w : Word} (h : acceptedWord input s = some w) :
    s.busy = false ∧ serve input s = accept w s := by
  cases input with
  | access a =>
    cases a with
    | read => cases h
    | write addr size v =>
      unfold acceptedWord at h; dsimp only at h
      cases hoff : windowOffset s.params addr with
      | none => rw [hoff] at h; cases h
      | some off =>
        rw [hoff] at h; dsimp only at h
        split at h
        · next hc =>
          cases h
          simp only [Bool.and_eq_true, beq_iff_eq, Bool.not_eq_true'] at hc
          obtain ⟨⟨hwf, htarget⟩, hidle⟩ := hc
          exact ⟨hidle, by simp [serve, serveAccess, hoff, busWrite, hwf, htarget, writeTarget, writeCmd, hidle]⟩
        · cases h
  | entropy => cases h
  | reset => cases h
  | quiet => cases h

/-- One step: `u` is what serving the arrival leaves, and a command that runs in `u` takes its turn. -/
theorem step_cases (s : State) :
    ∃ u t, step s = .next t ∧ Served s.beginStep u ∧
      ((u.seq = .idle ∧ t = spendTurn u) ∨ (u.busy = true ∧ Ran (spendTurn u) t)) := by
  unfold step serveArrival
  cases hacc : acceptedWord s.nextArrival.input s.beginStep with
  | some w =>
    obtain ⟨hidle, hserve⟩ := serve_of_acceptedWord hacc
    obtain ⟨t, ht, hran⟩ := dispatch_ran (w := w) (s := s.beginStep) (by simp [hidle])
    rw [issue_idle w ((not_busy_iff _).1 (by simpa using hidle))] at hran
    exact ⟨accept w s.beginStep, t, ht, .accepted w hidle, .inr ⟨rfl, hran⟩⟩
  | none =>
    have hserved := serve_served s.nextArrival.input s.beginStep
    dsimp only
    generalize serve s.nextArrival.input s.beginStep = u at hserved
    cases hseq : u.seq with
    | idle => exact ⟨u, spendTurn u, resume_of_idle hseq, hserved, .inl ⟨hseq, rfl⟩⟩
    | run ph =>
      have hbusy := busy_of_run hseq
      obtain ⟨t, ht, hran⟩ := dispatch_ran (w := u.lastcmd) (s := u) (fun _ => rfl)
      rw [issue_running _ (by simpa using hbusy)] at hran
      refine ⟨u, t, ?_, hserved, .inr ⟨hbusy, hran⟩⟩
      unfold resume; rw [hseq]; exact ht

/-- What every step does: the case of `step_cases` for the state that it answers. -/
theorem cases_of_step {s t : State} (h : step s = .next t) :
    ∃ u, Served s.beginStep u ∧ ((u.seq = .idle ∧ t = spendTurn u) ∨ (u.busy = true ∧ Ran (spendTurn u) t)) := by
  obtain ⟨u, t', ht', hserved, hcases⟩ := step_cases s
  cases ht'.symm.trans h
  exact ⟨u, hserved, hcases⟩

/-- Without internal steps a dispatched word is only issued (R25, R70). -/
theorem dispatch_of_turn_zero (w : Word) {s : State} (h : s.env.turn = 0) :
    dispatch w s = .next (issue w (spendTurn s)) := by
  cases hdecode : decode w with
  | ok i =>
    obtain ⟨-, henc⟩ := encodeOfDecode w i hdecode
    rw [dispatch_of_decode_ok hdecode, exec_eq, runCommand, h, henc]; rfl
  | error e => rw [dispatch_of_decode_error hdecode, runCommand, h]; rfl

/-- An input that leaves a command running where none ran has accepted it (R25). -/
theorem Served.accepted_of_idle {s u : State} (h : Served s u) (hidle : s.busy = false) (hu : u.busy = true) :
    ∃ w, u = accept w s := by
  cases h with
  | accepted v => exact ⟨v, rfl⟩
  | aborted hb => simp [hidle] at hb
  | abortedFlushed hb => simp [hidle] at hb
  | reset => cases hu
  | _ => exact absurd hu (Bool.eq_false_iff.1 hidle)

/-- The turn of a word that the decoder rejects, from its start (R204): an empty one leaves it, another one ends it. -/
theorem runCommand_illegalStep_at_start {u : State} (w : Word) (hstart : u.seq = .run .start) :
    runCommand w illegalStep u = if u.env.turn = 0 then u else raise .eill (spendTurn u) := by
  rw [runCommand, issue_running w (busy_of_run (s := spendTurn u) hstart)]
  cases hturn : u.env.turn with
  | zero => exact show spendTurn u = u by unfold spendTurn; rw [← hturn]
  | succ n =>
    rw [runTurn_succ illegalStep n (s := spendTurn u) hstart (rngWait_of_not_draws (s := spendTurn u) hstart rfl)]
    exact runTurn_idle _ _ rfl

/-- A command that still runs after an arrival goes on from the state that the arrival leaves. -/
theorem step_of_still_running {s : State} {a : Arrival} (hb : s.busy = true)
    (hu : (serve a.input (s.begun a.turn)).busy = true) :
    step (s.withArrival a) = dispatch s.lastcmd (serve a.input (s.begun a.turn)) ∧
      (serve a.input (s.begun a.turn)).seq = s.seq := by
  obtain ⟨hlast, hseq⟩ := (serve_served a.input (s.begun a.turn)).of_running hb hu
  refine ⟨?_, hseq⟩
  obtain ⟨ph, hph⟩ := (busy_iff _).1 hu
  rw [step_of_running a hb]
  unfold resume; rw [hph]
  exact congrArg (dispatch · _) hlast

/-! ### Leaving Run -/

/-- An input that ends a running command clears `work` (R28, R207, R230). -/
theorem Served.work_of_idle {s u : State} (h : Served s u) (hb : s.busy = true) (hu : u.seq = .idle) :
    u.work = Work.zero := by
  have hrun : s.seq ≠ .idle := fun h => by simp [(not_busy_iff s).2 h] at hb
  cases h with
  | aborted => rfl
  | abortedFlushed => rfl
  | reset => rfl
  | accepted v idle => cases hu
  | _ => exact absurd hu hrun

theorem Ran.work_of_idle {u t : State} (h : Ran u t) (hu : u.busy = true) (ht : t.seq = .idle) : t.work = Work.zero := by
  cases h with
  | command _ i _ _ _ h => exact h.work_of_idle ht
  | stands => simp [(not_busy_iff u).2 ht] at hu
  | eill => rfl

/-! ### What an arrival sees of a running command -/

/-- The state with its work hidden. -/
def State.hideWork (s : State) : State := { s with work := Work.zero }

theorem sameButWork_iff {s s' : State} : s.sameButWork s' ↔ s.hideWork = s'.hideWork := Iff.rfl

/-- Settles O35: no arm of `readTarget` and no flag behind IRQ names `work`. -/
theorem noRegisterShowsWork : Obligations.NoRegisterShowsWork := fun _ _ r => ⟨by cases r <;> rfl, rfl⟩

/-- No write to a register sees `work` (R27): it leaves the same but for work, whether or not the work was hidden. -/
theorem writeTarget_hideWork (v : Word) (s : State) (target : Target) :
    (writeTarget v s.hideWork target).sameButWork (writeTarget v s target) := by
  have hbusy : s.hideWork.busy = s.busy := rfl
  cases target with
  | ctrl => show (writeCtrl v _).sameButWork (writeCtrl v _); unfold writeCtrl; rw [hbusy]; split <;> rfl
  | cmd => show (writeCmd v _).sameButWork (writeCmd v _); unfold writeCmd; rw [hbusy]; split <;> rfl
  | rngData =>
    show (writeRngData v _).sameButWork (writeRngData v _)
    unfold writeRngData; rw [show s.hideWork.fifo = s.fifo from rfl, show s.hideWork.params = s.params from rfl]
    split <;> rfl
  | abort =>
    show (writeAbort v _).sameButWork (writeAbort v _)
    unfold writeAbort abortRun; rw [hbusy]
    split
    · split <;> rfl
    · split <;> rfl
    · rfl
    · rfl
  | operand i j =>
    show (writeOperand i j v _).sameButWork (writeOperand i j v _); unfold writeOperand; rw [hbusy]; split <;> rfl
  | _ => rfl

/-- No access sees `work` (R27). -/
theorem serveAccess_hideWork (a : Access) (s : State) :
    (serveAccess a s.hideWork).sameButWork (serveAccess a s) := by
  have hparams : s.hideWork.params = s.params := rfl
  have hread : ∀ r, readTarget s.hideWork r = readTarget s r := fun r => (noRegisterShowsWork s Work.zero r).1
  cases a with
  | read addr size =>
    unfold serveAccess; dsimp only; rw [hparams]; split
    · unfold busRead; rw [hparams]; split
      · split
        · rfl
        · rw [hread]; rfl
      · rfl
    · rfl
  | write addr size v =>
    unfold serveAccess; dsimp only; rw [hparams]; split
    · unfold busWrite; rw [hparams]; split
      · exact writeTarget_hideWork v s _
      · rfl
    · rfl

/-- No input sees `work` (R27). -/
theorem serve_hideWork (input : Input) (s : State) : (serve input s.hideWork).sameButWork (serve input s) := by
  cases input with
  | access a => exact serveAccess_hideWork a s
  | entropy w =>
    show (presentWord w s.hideWork).sameButWork (presentWord w s)
    unfold presentWord; rw [show s.hideWork.params = s.params from rfl]; split <;> rfl
  | reset => rfl
  | quiet => rfl

/-- States that agree on everything but `work` are served alike (R27). -/
theorem serve_sameButWork {s s' : State} (h : s.sameButWork s') (input : Input) :
    (serve input s).sameButWork (serve input s') := by
  exact (serve_hideWork input s).symm.trans (sameButWork_iff.1 h ▸ serve_hideWork input s')

/-- An arrival without an internal step does to a running command what serving it does. -/
theorem step_of_running_zero {s : State} (input : Input) (hb : s.busy = true) :
    step (s.withArrival { input := input, turn := 0 }) = .next (serve input (s.begun 0)) :=
  step_of_turn_zero (acceptedWord_of_busy (s := s.begun 0) hb input) (serve_served _ _).turn_eq

/-! ### The statements -/

/-- Settles O5: the CMD write gets the word accepted, and the word is dispatched to its command. -/
theorem stepRunsTheDecodedCommand : Obligations.StepRunsTheDecodedCommand := by
  intro s w i n hidle hdecode
  rw [step_offers w n hidle, dispatch_of_decode_ok hdecode]

/-- Settles O6: the arrival leaves LASTCMD, whose word is dispatched to its command. -/
theorem stepGoesOnWithTheRunningCommand : Obligations.StepGoesOnWithTheRunningCommand := by
  intro s a i hb hu hdecode
  rw [(step_of_still_running hb hu).1, dispatch_of_decode_ok hdecode]

/-- Settles O8: both cases of a step answer a next state. -/
theorem everyStepAnswersNext : Obligations.EveryStepAnswersNext := by
  intro s
  obtain ⟨-, t, ht, -, -⟩ := step_cases s
  exact ⟨t, ht⟩

/-- Settles O9: with BUSY = 0 the word is issued and the empty turn takes no internal step; with BUSY = 1 the write only sets
CMDOVR. -/
theorem cmdWriteIsAcceptedOrDiscarded : Obligations.CmdWriteIsAcceptedOrDiscarded := by
  intro s w
  refine ⟨fun hidle => ?_, fun hb => ?_⟩
  · have hissue := issue_idle w (s := spendTurn (s.begun 0)) ((not_busy_iff s).1 hidle)
    rw [step_offers w 0 hidle, dispatch_of_turn_zero w rfl, hissue]
    rfl
  · have hserve : serve (.access (memWrite s.params cmdOffset w)) (s.begun 0)
        = { s.begun 0 with status := { s.status with cmdovr := true } } := by
      rw [serve_write s cmdOffset 0 w (by decide) (by decide)]
      show writeCmd w (s.begun 0) = _
      unfold writeCmd; rw [if_pos (show (s.begun 0).busy = true from hb)]; rfl
    rw [← hserve]; exact step_of_running_zero _ hb

/-- Settles O34: what ends the command, the arrival or the turn after it, clears `work`. -/
theorem leavingRunClearsWork : Obligations.LeavingRunClearsWork := by
  intro s t h hb hidle
  obtain ⟨u, hserved, ⟨hu, rfl⟩ | ⟨hu, hran⟩⟩ := cases_of_step h
  · exact hserved.work_of_idle hb hu
  · exact hran.work_of_idle hu hidle

/-- Settles O36: both states are served alike, and the response and IRQ are no part of `work`. -/
theorem accessesDoNotSeeTheWorkOfARunningCommand : Obligations.AccessesDoNotSeeTheWorkOfARunningCommand := by
  intro s s' t input hb hsame h
  have hbegun : (s.begun 0).sameButWork (s'.begun 0) :=
    sameButWork_iff.2 (congrArg (State.begun · 0) (sameButWork_iff.1 hsame))
  have hserved := serve_sameButWork hbegun input
  have hhidden := (sameButWork_iff.1 hserved).symm
  have hb' : s'.busy = true := (congrArg State.busy (sameButWork_iff.1 hsame)).symm.trans hb
  cases (step_of_running_zero input hb).symm.trans h
  have hresp := congrArg (fun u : State => u.env.resp) hhidden
  have hirq := congrArg State.irq hhidden
  exact ⟨_, step_of_running_zero input hb', hserved, hresp, hirq⟩

/-- Settles O38: reset leaves the sequencer Idle, so that the turn is only spent, and IRQ as it is at reset. -/
theorem resetInputRestoresResetValues : Obligations.ResetInputRestoresResetValues := by
  intro s n
  obtain ⟨-, -, -, -, -, -, -, -, hirq⟩ := resetValues
  exact ⟨resume_of_idle (s := State.resetOf s.params (s.begun n).env) rfl, hirq⟩

/-- Settles O57: the word is rejected where it goes on, and at its start the first internal step raises EILL. -/
theorem runningIllegalWordEndsWithEill : Obligations.RunningIllegalWordEndsWithEill := by
  intro s a hb hillegal hstart u hu
  obtain ⟨hstep, hseq⟩ := step_of_still_running hb hu
  have hturn : u.env.turn = a.turn := (serve_served a.input (s.begun a.turn)).turn_eq
  cases hdecode : decode s.lastcmd with
  | ok i => exact absurd (legalWord_of_decode_ok hdecode) hillegal
  | error e =>
    rw [hstep, dispatch_of_decode_error hdecode, runCommand_illegalStep_at_start _ (hseq.trans (hstart hb hillegal)),
      show (serve a.input (s.begun a.turn)).env.turn = a.turn from hturn]
    rfl

/-- Settles O58: an illegal word is accepted at its start, and no turn moves it on but to its end. -/
theorem everyStepKeepsIllegalWordsAtStart : Obligations.EveryStepKeepsIllegalWordsAtStart := by
  intro s t hs h hbusy hillegal
  obtain ⟨u, hserved, ⟨hu, rfl⟩ | ⟨hu, hran⟩⟩ := cases_of_step h
  · simp [(not_busy_iff u).2 hu] at hbusy
  · cases hran with
    | command _ i _ legal _ ho => exact absurd (ho.sameFrame.lastcmd ▸ legalWord_of_decode_ok legal) hillegal
    | eill => cases hbusy
    | stands =>
      cases hb : s.busy with
      | true =>
        obtain ⟨hlast, hseq⟩ := hserved.of_running hb hu
        exact hseq.trans (hs hb fun hl => hillegal (hlast ▸ hl))
      | false =>
        obtain ⟨w, rfl⟩ := hserved.accepted_of_idle hb hu
        rfl

end Sys2Proof.Machine

/-! PROOF. The invariant of the block (R7, R21, R25, R28, R30, R38, R49, R202, R203): it holds at reset, each input and each
turn of a command keeps it, so every step does; and what it says of the interrupt (R210, R211). -/

namespace Sys2Proof.Machine

/-! ### Reset -/

theorem resetOf_inv {p : Params} (e : Env) (hp : p.legal = true) : (State.resetOf p e).Inv where
  params_legal := hp
  operands_fit i := by
    have hzero : (State.resetOf p e).x[i] = 0 := Vector.getElem_replicate i.isLt
    rw [hzero]; positivity
  ctrl_reserved := by rw [resetOf_ctrl]; decide
  fifo_bounded := Nat.zero_le _
  one_end h := by cases h.1
  err_code h := by cases h
  done_code h := by cases h
  error_flags h := absurd rfl h
  running_flags h := by cases h
  idle_cleared _ := rfl

/-! ### What an input keeps -/

theorem width_mod_of_legal {p : Params} (h : p.legal = true) : p.width % 32 = 0 := by
  simp [Params.legal] at h; omega

/-- Acceptance clears the flags that the end of a command sets (R25). -/
theorem State.Inv.accept {s : State} (h : s.Inv) (w : Word) : (accept w s).Inv :=
  { h with
    one_end := fun hd => by cases hd.1
    err_code := fun he => by cases he
    done_code := fun hd => by cases hd
    error_flags := fun he => absurd rfl he
    running_flags := fun _ => ⟨rfl, rfl, rfl, rfl, rfl⟩
    idle_cleared := fun hi => by cases hi }

/-- The error completion of a running command (R203). -/
theorem State.Inv.raise {s : State} (h : s.Inv) (hb : s.busy = true) (e : ErrCode) : (raise e s).Inv := by
  obtain ⟨hdone, -, -, hresult, hnoinv⟩ := h.running_flags hb
  exact
    { h with
      one_end := fun hd => by simp [hdone] at hd
      err_code := fun _ => by simp
      done_code := fun hd => by simp [hdone] at hd
      error_flags := fun _ => ⟨hresult, hnoinv⟩
      running_flags := fun hb => by cases hb
      idle_cleared := fun _ => rfl }

/-- A STATUS write only clears flags, and none that stands with an error code (R45). -/
theorem State.Inv.writeStatus {s : State} (h : s.Inv) (v : Word) :
    ({ s with status := s.status.writeOneToClear v } : State).Inv := by
  have hdone : (s.status.writeOneToClear v).done = true → s.status.done = true := fun hd =>
    (Bool.and_eq_true_iff.1 hd).1
  have herr : (s.status.writeOneToClear v).err = true → s.status.err = true := fun he => (Bool.and_eq_true_iff.1 he).1
  exact
    { h with
      one_end := fun hd => h.one_end ⟨hdone hd.1, herr hd.2⟩
      err_code := fun he => h.err_code (herr he)
      done_code := fun hd => h.done_code (hdone hd)
      running_flags := fun hb => by
        obtain ⟨h1, h2, h3⟩ := h.running_flags hb
        exact ⟨by simp [Status.writeOneToClear, h1], by simp [Status.writeOneToClear, h2], h3⟩ }

/-- A write of an operand word keeps the register `W` bits wide (R21, R67). -/
theorem State.Inv.writeOperand {s : State} (h : s.Inv) (i : RegIdx) {j : Nat} (v : Word) (hj : j < s.params.width / 32) :
    ({ s with x := s.x.set i (withWord s.x[i] j v) } : State).Inv :=
  { h with
    operands_fit := fun r => by
      show (s.x.set i (withWord s.x[i] j v))[r.val] < 2 ^ s.params.width
      rw [Vector.getElem_set]
      split
      · exact withWord_lt (width_mod_of_legal h.params_legal) hj (h.operands_fit i)
      · exact h.operands_fit r }

/-- Every input keeps the invariant. -/
theorem Served.inv {s u : State} (hs : Served s u) (h : s.Inv) : u.Inv := by
  cases hs with
  | same => exact h
  | answered w => exact { h with }
  | accessError => exact { h with }
  | answeredError => exact { h with }
  | ctrl v => exact { h with ctrl_reserved := by simp [BitVec.and_assoc] }
  | status v => exact h.writeStatus v
  | cmdovr => exact { h with }
  | accepted v => exact h.accept v
  | fed v room => exact { h with fifo_bounded := by simpa using room }
  | fovf => exact { h with }
  | flushed => exact { h with fifo_bounded := Nat.zero_le _ }
  | aborted hb => exact h.raise hb _
  | abortedFlushed hb => exact { h.raise hb .eabort with fifo_bounded := Nat.zero_le _ }
  | operand i j v mapped => exact h.writeOperand i v mapped
  | presented w => exact { h with }
  | reset => exact resetOf_inv _ h.params_legal

/-! ### What a turn keeps -/

/-- Written values below a bound leave every register below it (R7). -/
theorem writeAll_lt {B : Nat} {x : Vector Nat 8} {writes : List (RegIdx × Nat)} (hx : ∀ r : RegIdx, x[r] < B)
    (hw : ∀ iv ∈ writes, iv.2 < B) (r : RegIdx) : (writeAll x writes)[r] < B := by
  induction writes generalizing x with
  | nil => exact hx r
  | cons iv writes ih =>
    refine ih (x := x.set iv.1 iv.2) (fun r => ?_) fun iv' h => hw iv' (List.mem_cons_of_mem _ h)
    show (x.set iv.1 iv.2)[r.val] < B
    rw [Vector.getElem_set]
    split
    · exact hw iv List.mem_cons_self
    · exact hx r

/-- Drawing words only shortens the FIFO (R49, R151). -/
theorem TakesWords.fifo_length_le {i : Instr} {u t : State} (h : TakesWords i u t) (hc : t.ctrl = u.ctrl) :
    t.fifo.length ≤ u.fifo.length := by
  cases hr : u.rngSrc with
  | false => rw [h.fifo hr]
  | true =>
    have hr' : t.rngSrc = true := by rw [← hr, State.rngSrc, State.rngSrc, hc]
    obtain ⟨taken, hsrc⟩ := h.front
    have hfifo : u.fifo = taken ++ t.fifo := by simpa [State.source, hr, hr'] using hsrc
    rw [hfifo, List.length_append]; omega

theorem Moved.inv {i : Instr} {u t : State} (hm : Moved i u t) (h : u.Inv) (hb : u.busy = true) : t.Inv := by
  have hf := hm.sameFrame
  have hfifo := hm.takesWords.fifo_length_le hf.ctrl
  have hflags := h.running_flags hb
  have hst := hm.status_eq
  refine ⟨?_, ?_, ?_, ?_, ?_, ?_, ?_, ?_, ?_, ?_⟩
  · rw [hf.params]; exact h.params_legal
  · intro r; rw [hf.params, hm.x_eq]; exact h.operands_fit r
  · rw [hf.ctrl]; exact h.ctrl_reserved
  · rw [hf.params]; exact hfifo.trans h.fifo_bounded
  · rw [hst]; exact h.one_end
  · rw [hst]; exact h.err_code
  · rw [hst]; exact h.done_code
  · rw [hst]; exact h.error_flags
  · rw [hst]; exact fun _ => hflags
  · intro hi; exact absurd hm.busy (by simp [(not_busy_iff t).2 hi])

/-- The successful completion of a running command (R202). -/
theorem State.Inv.complete {t : State} (h : t.Inv) (hb : t.busy = true) {writes : List (RegIdx × Nat)}
    (res noinv : Bool) (fit : fits t.params writes = true) : (complete writes res noinv t).Inv := by
  obtain ⟨-, herr, hcode, -, -⟩ := h.running_flags hb
  exact
    { h with
      operands_fit := writeAll_lt h.operands_fit (by simpa [fits] using fit)
      one_end := fun hd => by simp [herr] at hd
      err_code := fun he => by simp [herr] at he
      done_code := fun _ => hcode
      error_flags := fun he => absurd hcode he
      running_flags := fun hb => by cases hb
      idle_cleared := fun _ => rfl }

theorem Outcome.inv {i : Instr} {u t : State} (ho : Outcome i u t) (h : u.Inv) (hb : u.busy = true) : t.Inv := by
  cases ho with
  | runs _ hm => exact hm.inv h hb
  | completes t writes res noinv hm _ fit => exact (hm.inv h hb).complete hm.busy res noinv fit
  | raises t e hm => exact (hm.inv h hb).raise hm.busy e

theorem Ran.inv {u t : State} (hr : Ran u t) (h : u.Inv) (hb : u.busy = true) : t.Inv := by
  cases hr with
  | command _ i _ _ _ ho => exact ho.inv h hb
  | stands => exact h
  | eill => exact h.raise hb _

theorem State.Inv.beginStep {s : State} (h : s.Inv) : s.beginStep.Inv := { h with }

theorem State.Inv.spendTurn {s : State} (h : s.Inv) : (spendTurn s).Inv := { h with }

theorem State.Inv.issue {s : State} (h : s.Inv) (w : Word) : (issue w s).Inv := by
  unfold Machine.issue; split
  · exact h.accept w
  · exact h

/-! ### The statements -/

/-- Settles O39: the block is Idle after reset, so the two bounds on running commands ask nothing. -/
theorem resetKeepsTheInvariant : Obligations.ResetKeepsTheInvariant := by
  have hidle : State.reset.busy = false := rfl
  refine ⟨resetOf_inv _ (by decide), ?_, ?_⟩
  · intro _ hb; simp [hidle] at hb
  · intro hb; simp [hidle] at hb

/-- Settles O40: serving the arrival keeps the invariant, and so does the turn after it. -/
theorem everyStepKeepsTheInvariant : Obligations.EveryStepKeepsTheInvariant := by
  intro s t h hstep
  obtain ⟨u, hserved, ⟨-, rfl⟩ | ⟨hu, hran⟩⟩ := cases_of_step hstep
  · exact (hserved.inv h.beginStep).spendTurn
  · exact hran.inv (hserved.inv h.beginStep).spendTurn hu

/-- While a command runs DONE and ERR are 0, and its end sets one of them (R202, R203, R210). -/
theorem Outcome.done_or_err {i : Instr} {u t : State} (ho : Outcome i u t) (h : u.Inv) (hb : u.busy = true) :
    (t.status.done || t.status.err) = !t.busy := by
  cases ho with
  | runs _ hm =>
    obtain ⟨hdone, herr, -⟩ := h.running_flags hb
    rw [hm.busy, hm.status_eq, hdone, herr]; rfl
  | completes => simp
  | raises => simp

/-- Settles O54: IRQ is IE and one of DONE and ERR, of which one is set exactly when the command has ended; the other flags
do not stand in it. -/
theorem interruptFollowsCompletion : Obligations.InterruptFollowsCompletion := by
  intro i s t h hexec
  have ho := outcome_of_exec hexec
  have hflags := ho.done_or_err (h.spendTurn.issue _) (issue_busy _ _)
  have hie : t.ie = s.ctrl.getLsbD 1 := by rw [State.ie, exec_ctrl hexec]
  have hirq : t.irq = (s.ctrl.getLsbD 1 && !t.busy) := by rw [State.irq, hie, hflags]
  refine ⟨hirq, fun h0 => by rw [hirq, h0, Bool.false_and], ?_, fun _ _ _ => rfl⟩
  simp [State.irq, Status.writeOneToClear]

end Sys2Proof.Machine

/-! PROOF. Where an internal step of a command leads, said once for every invariant of a run that speaks of the phase: the
bound on ATTEMPTS (R163) and the bound on what PRIMEGEN writes (R164). -/

namespace Sys2Proof.Machine

/-! ### From `A` to `C` in one internal step -/

/-- A word taken is the first of the source, which it leaves (R151). -/
theorem source_of_takeWord {s t : State} {w : Word} (h : takeWord s = some (w, t)) :
    ∃ rest, s.source = w :: rest ∧ t = s.withSource rest := by
  cases hsrc : s.source with
  | nil => rw [takeWord_nil hsrc] at h; cases h
  | cons v vs => rw [takeWord_cons hsrc] at h; cases h; exact ⟨vs, rfl, rfl⟩

theorem takeWord_work {s t : State} {w : Word} (h : takeWord s = some (w, t)) : t.work = s.work := by
  obtain ⟨rest, -, rfl⟩ := source_of_takeWord h; rfl

/-- The updates that an internal step makes before it ends or reaches its next point lead from `A` to `C`: a move to a point
that draws no candidate, a change of the working state, a word taken. None of them changes the candidate. -/
structure LeadsTo (A C : State → Prop) : Prop where
  goto : ∀ ph wk s, ph ≠ .candidate → wk.cand = s.work.cand → A s → C (s.goto ph wk)
  work : ∀ wk (s : State), wk.cand = s.work.cand → A s → A { s with work := wk }
  take : ∀ s w t, takeWord s = some (w, t) → A s → A t

section leads
variable {A C : State → Prop} (hA : LeadsTo A C) {s : State}
include hA

theorem euclidStep_leads {ret : Nat → State → State} (hr : ∀ v t, A t → C (ret v t)) (h : A s) :
    C (euclidStep ret s) := by
  unfold euclidStep; split
  · exact hr _ _ h
  · exact hA.goto _ _ _ (by decide) rfl h

theorem bezoutStep_leads {ret : Nat → Bool → State → State} (hr : ∀ v b t, A t → C (ret v b t)) (h : A s) :
    C (bezoutStep ret s) := by
  unfold bezoutStep; split
  · exact hr _ _ _ h
  · exact hA.goto _ _ _ (by decide) rfl h

theorem powerStep_leads {ret : Nat → State → State} (hr : ∀ v t, A t → C (ret v t)) (h : A s) :
    C (powerStep ret s) := by
  unfold powerStep; split
  · exact hr _ _ h
  · exact hA.goto _ _ _ (by decide) rfl h

theorem roundHead_leads {k : Nat} {ret : Bool → State → State} (hr : ∀ v t, A t → C (ret v t)) (h : A s) :
    C (roundHead k ret s) := by
  unfold roundHead; split
  · exact hr _ _ h
  · exact hA.goto _ _ _ (by decide) rfl h

theorem mrBegin_leads {n k : Nat} {ret : Bool → State → State} (hr : ∀ v t, A t → C (ret v t)) (h : A s) :
    C (mrBegin n k ret s) := by
  unfold mrBegin; split_ifs
  · exact hr _ _ h
  · exact hr _ _ h
  · exact roundHead_leads hA hr (hA.work _ _ rfl h)

/-- A word of a witness draw (R153). -/
theorem witnessStep_leads {b : Nat} (hs : C s) (h : A s) : C (drawStep b .witness witnessDrawn s) := by
  unfold drawStep
  split
  · exact hs
  · next w t ht =>
    have hwork : t.work = s.work := takeWord_work ht
    split
    · exact hA.goto _ _ _ (by decide) (by rw [hwork]) (hA.take _ _ _ ht h)
    · unfold witnessDrawn; split <;> exact hA.goto _ _ _ (by decide) rfl (hA.take _ _ _ ht h)

theorem mrPowerDone_leads {k : Nat} {ret : Bool → State → State} (hr : ∀ v t, A t → C (ret v t)) (y : Nat) (h : A s) :
    C (mrPowerDone k ret y s) := by
  unfold mrPowerDone; split
  · exact roundHead_leads hA hr (hA.work _ _ rfl (hA.work _ _ rfl h))
  · exact hA.goto _ _ _ (by decide) rfl h

theorem squareStep_leads {k : Nat} {ret : Bool → State → State} (hr : ∀ v t, A t → C (ret v t)) (h : A s) :
    C (squareStep k ret s) := by
  unfold squareStep; split
  · split
    · exact hr _ _ h
    · exact hA.goto _ _ _ (by decide) rfl h
  · split
    · exact hr _ _ h
    · exact roundHead_leads hA hr (hA.work _ _ rfl h)

/-- An internal step of `MillerRabin` (R156), where the state as it stands is in `C` too. -/
theorem mrStep_leads {k : Nat} {ret : Bool → State → State} (hr : ∀ v t, A t → C (ret v t)) (ph : Phase) (hs : C s)
    (h : A s) : C (mrStep k ret ph s) := by
  cases ph with
  | witness => exact witnessStep_leads hA hs h
  | power => exact powerStep_leads hA (fun y _ => mrPowerDone_leads hA hr y) h
  | square => exact squareStep_leads hA hr h
  | _ => exact hs

/-- `Derive` (R182) at its two points. -/
theorem deriveStep_leads {rd : RegIdx} (hr : ∀ d b t, A t → C (deriveDone rd d b t)) (ph : Phase) (hs : C s) (h : A s) :
    C (deriveStep rd ph s) := by
  cases ph with
  | euclid => exact euclidStep_leads hA (fun g t h => hA.goto _ _ _ (by decide) rfl (hA.work _ _ rfl h)) h
  | bezout => exact bezoutStep_leads hA hr h
  | _ => exact hs

end leads

/-- The Miller-Rabin answer on a candidate (R162), where sampling again leads to `C`. -/
theorem sampleTested_leads {A C : State → Prop} {s : State} {ret : Nat → State → State} (hb : ∀ t, A t → C (sampleBegin t))
    (hr : ∀ t, A t → C (ret t.work.cand t)) (v : Bool) (h : A s) : C (sampleTested ret v s) := by
  unfold sampleTested; split
  · exact hr _ h
  · exact hb _ h

/-! ### The bound on ATTEMPTS -/

/-- No more candidates than MAXTRY have been counted, wherever the sequencer stands (R163). -/
def State.attemptsAtMost (s : State) : Prop := s.maxTry ≠ 0 → s.attempts.toNat ≤ s.maxTry

theorem attemptsBounded_of_idle {s : State} (h : s.seq = .idle) : s.attemptsBounded := by
  intro _ hb; simp [(not_busy_iff s).2 h] at hb

theorem goto_attemptsBounded {s : State} {ph : Phase} (wk : Work) (hph : ph ≠ .candidate) (h : s.attemptsAtMost) :
    (s.goto ph wk).attemptsBounded :=
  fun hm _ => ⟨h hm, fun hc => absurd (Seq.run.inj hc) hph⟩

theorem attemptsAtMost_leads : LeadsTo State.attemptsAtMost State.attemptsBounded where
  goto ph wk s hph _ h := goto_attemptsBounded wk hph h
  work _ _ _ h := h
  take s w t ht h := by obtain ⟨rest, -, rfl⟩ := source_of_takeWord ht; exact h

/-- The head of the loop of `PrimeSample` stops at MAXTRY candidates, and so draws below it (R163). -/
theorem sampleBegin_attemptsBounded {s : State} (h : s.attemptsAtMost) : (sampleBegin s).attemptsBounded := by
  unfold sampleBegin; split
  · exact attemptsBounded_of_idle rfl
  · next hfree => exact fun hm _ => ⟨h hm, fun _ => lt_of_le_of_ne (h hm) fun he => hfree ⟨hm, he⟩⟩

/-- A candidate that is counted was drawn below MAXTRY (R162, R163). -/
theorem candidateDrawn_attemptsBounded {k c : Nat} {ret : Nat → State → State} {s : State}
    (hr : ∀ v t, t.attemptsAtMost → (ret v t).attemptsBounded) (h : s.maxTry ≠ 0 → s.attempts.toNat < s.maxTry) :
    (candidateDrawn k ret c s).attemptsBounded := by
  unfold candidateDrawn
  refine mrBegin_leads attemptsAtMost_leads (fun v t => ?_) fun hm => ?_
  · exact sampleTested_leads (fun _ => sampleBegin_attemptsBounded) (fun t => hr _ t) v
  · have hlt := h hm
    show (countAttempt s.attempts).toNat ≤ s.maxTry
    rw [countAttempt_toNat, Pseudocode.satSucc]
    omega

/-- An internal step of `PrimeSample` (R162). -/
theorem sampleStep_attemptsBounded {b k : Nat} {ret : Nat → State → State} {s : State} {ph : Phase}
    (hr : ∀ v t, t.attemptsAtMost → (ret v t).attemptsBounded) (h : s.attemptsBounded) (hph : s.seq = .run ph) :
    (sampleStep b k ret ph s).attemptsBounded := by
  have hA : s.attemptsAtMost := fun hm => (h hm (busy_of_run hph)).1
  have htested := fun v (t : State) (ht : t.attemptsAtMost) =>
    sampleTested_leads (s := t) (fun _ => sampleBegin_attemptsBounded) (fun t => hr _ t) v ht
  cases ph with
  | candidate =>
    have hlt : s.maxTry ≠ 0 → s.attempts.toNat < s.maxTry := fun hm => (h hm (busy_of_run hph)).2 hph
    unfold sampleStep drawStep; dsimp only; split
    · exact h
    · next w t ht =>
      obtain ⟨rest, -, rfl⟩ := source_of_takeWord ht
      split
      · exact fun hm _ => ⟨hA hm, fun _ => hlt hm⟩
      · exact candidateDrawn_attemptsBounded hr hlt
  | witness => exact mrStep_leads attemptsAtMost_leads (k := k) htested .witness h hA
  | power => exact mrStep_leads attemptsAtMost_leads htested .power h hA
  | square => exact mrStep_leads attemptsAtMost_leads htested .square h hA
  | _ => exact h

theorem finish_attemptsBounded (writes : List (RegIdx × Nat)) (res noinv : Bool) (s : State) :
    (finish writes res noinv s).attemptsBounded :=
  attemptsBounded_of_idle (finish_seq writes res noinv s)

theorem raise_attemptsBounded (e : ErrCode) (s : State) : (raise e s).attemptsBounded := attemptsBounded_of_idle rfl

section attempts
variable {s : State} {ph : Phase}

theorem deriveBegin_attemptsBounded (p q : Nat) (h : s.attemptsAtMost) : (deriveBegin p q s).attemptsBounded :=
  goto_attemptsBounded (s := { s with work := { s.work with p := p, q := q } }) _ (by decide) h

theorem attemptsAtMost_of_bounded (h : s.attemptsBounded) (hph : s.seq = .run ph) : s.attemptsAtMost := fun hm =>
  (h hm (busy_of_run hph)).1

/-! Each command's internal step keeps the bound. -/

theorem gcdStep_attemptsBounded (rd : RegIdx) (h : s.attemptsBounded) (hph : s.seq = .run ph) :
    (gcdStep rd ph s).attemptsBounded := by
  have hA := attemptsAtMost_of_bounded h hph
  cases ph with
  | start => exact goto_attemptsBounded _ (by decide) hA
  | euclid => exact euclidStep_leads attemptsAtMost_leads (fun _ _ _ => finish_attemptsBounded _ _ _ _) hA
  | _ => exact h

theorem lcmStep_attemptsBounded (rd : RegIdx) (h : s.attemptsBounded) (hph : s.seq = .run ph) :
    (lcmStep rd ph s).attemptsBounded := by
  have hA := attemptsAtMost_of_bounded h hph
  cases ph with
  | start =>
    unfold lcmStep; dsimp only; split
    · exact raise_attemptsBounded _ _
    · exact goto_attemptsBounded _ (by decide) hA
  | euclid => exact euclidStep_leads attemptsAtMost_leads (fun _ _ _ => finish_attemptsBounded _ _ _ _) hA
  | _ => exact h

theorem modinvStep_attemptsBounded (rd : RegIdx) (h : s.attemptsBounded) (hph : s.seq = .run ph) :
    (modinvStep rd ph s).attemptsBounded := by
  have hA := attemptsAtMost_of_bounded h hph
  cases ph with
  | start =>
    unfold modinvStep; dsimp only; split
    · exact raise_attemptsBounded _ _
    · exact goto_attemptsBounded _ (by decide) hA
  | bezout => exact bezoutStep_leads attemptsAtMost_leads (fun _ _ _ _ => finish_attemptsBounded _ _ _ _) hA
  | _ => exact h

theorem modexpStep_attemptsBounded (rd : RegIdx) (h : s.attemptsBounded) (hph : s.seq = .run ph) :
    (modexpStep rd ph s).attemptsBounded := by
  have hA := attemptsAtMost_of_bounded h hph
  cases ph with
  | start =>
    unfold modexpStep; dsimp only; split
    · exact raise_attemptsBounded _ _
    · exact goto_attemptsBounded _ (by decide) hA
  | power => exact powerStep_leads attemptsAtMost_leads (fun _ _ _ => finish_attemptsBounded _ _ _ _) hA
  | _ => exact h

theorem mrtestStep_attemptsBounded (rd : RegIdx) (k : Nat) (h : s.attemptsBounded) (hph : s.seq = .run ph) :
    (mrtestStep rd k ph s).attemptsBounded := by
  have hA := attemptsAtMost_of_bounded h hph
  have hdone : ∀ v (t : State), t.attemptsAtMost → (mrtestDone rd v t).attemptsBounded := fun _ _ _ =>
    finish_attemptsBounded _ _ _ _
  cases ph with
  | start =>
    unfold mrtestStep; dsimp only; split
    · exact raise_attemptsBounded _ _
    · exact mrBegin_leads attemptsAtMost_leads hdone hA
  | witness => exact mrStep_leads attemptsAtMost_leads (k := k) hdone .witness h hA
  | power => exact mrStep_leads attemptsAtMost_leads hdone .power h hA
  | square => exact mrStep_leads attemptsAtMost_leads hdone .square h hA
  | _ => exact h

theorem primegenStep_attemptsBounded (rd : RegIdx) (b k : Nat) (h : s.attemptsBounded) (hph : s.seq = .run ph) :
    (primegenStep rd b k ph s).attemptsBounded := by
  have hdone : ∀ c (t : State), t.attemptsAtMost → (primegenDone rd c t).attemptsBounded := fun _ _ _ =>
    finish_attemptsBounded _ _ _ _
  cases ph with
  | start =>
    unfold primegenStep; dsimp only; split_ifs
    · exact raise_attemptsBounded _ _
    · exact sampleBegin_attemptsBounded (attemptsAtMost_of_bounded h hph)
    · exact raise_attemptsBounded _ _
  | euclid => exact h
  | bezout => exact h
  | _ => exact sampleStep_attemptsBounded hdone h hph

theorem deriveStep_attemptsBounded (rd : RegIdx) (h : s.attemptsBounded) (hph : s.seq = .run ph) :
    (deriveStep rd ph s).attemptsBounded :=
  deriveStep_leads attemptsAtMost_leads (fun _ _ _ _ => finish_attemptsBounded _ _ _ _) ph h
    (attemptsAtMost_of_bounded h hph)

theorem keyderiveStep_attemptsBounded (rd : RegIdx) (h : s.attemptsBounded) (hph : s.seq = .run ph) :
    (keyderiveStep rd ph s).attemptsBounded := by
  cases ph with
  | start =>
    unfold keyderiveStep; dsimp only; split_ifs
    · exact raise_attemptsBounded _ _
    · exact raise_attemptsBounded _ _
    · exact raise_attemptsBounded _ _
    · exact raise_attemptsBounded _ _
    · exact deriveBegin_attemptsBounded _ _ (attemptsAtMost_of_bounded h hph)
  | euclid => exact deriveStep_attemptsBounded rd h hph
  | bezout => exact deriveStep_attemptsBounded rd h hph
  | _ => exact h

theorem keygenSampled_attemptsBounded (c : Nat) (h : s.attemptsAtMost) : (keygenSampled c s).attemptsBounded := by
  unfold keygenSampled; split_ifs
  · exact sampleBegin_attemptsBounded h
  · exact deriveBegin_attemptsBounded _ _ h
  · exact sampleBegin_attemptsBounded (attemptsAtMost_leads.work { s.work with p := c, haveP := true } s rfl h)

theorem keygenStep_attemptsBounded (rd : RegIdx) (nbits k : Nat) (h : s.attemptsBounded) (hph : s.seq = .run ph) :
    (keygenStep rd nbits k ph s).attemptsBounded := by
  cases ph with
  | start =>
    unfold keygenStep; dsimp only; split_ifs
    · exact raise_attemptsBounded _ _
    · exact raise_attemptsBounded _ _
    · exact raise_attemptsBounded _ _
    · exact sampleBegin_attemptsBounded (attemptsAtMost_of_bounded h hph)
  | euclid => exact deriveStep_attemptsBounded rd h hph
  | bezout => exact deriveStep_attemptsBounded rd h hph
  | _ => exact sampleStep_attemptsBounded (fun c _ => keygenSampled_attemptsBounded c) h hph

/-- An internal step of any command keeps the bound (R163). -/
theorem stepOf_attemptsBounded (i : Instr) (h : s.attemptsBounded) (hph : s.seq = .run ph) :
    (stepOf i ph s).attemptsBounded := by
  cases i with
  | gcd rd => exact gcdStep_attemptsBounded rd h hph
  | lcm rd => exact lcmStep_attemptsBounded rd h hph
  | modinv rd => exact modinvStep_attemptsBounded rd h hph
  | modexp rd => exact modexpStep_attemptsBounded rd h hph
  | mrtest rd => exact mrtestStep_attemptsBounded rd _ h hph
  | primegen rd => exact primegenStep_attemptsBounded rd _ _ h hph
  | keyderive rd => exact keyderiveStep_attemptsBounded rd h hph
  | keygen rd => exact keygenStep_attemptsBounded rd _ _ h hph

end attempts

/-- No input moves a running command or changes its count or MAXTRY; acceptance clears the count (R25, R34, R48). -/
theorem Served.attemptsBounded {s u : State} (hs : Served s u) (h : s.attemptsBounded) : u.attemptsBounded := by
  cases hs with
  | accepted v => exact fun _ _ => ⟨Nat.zero_le _, fun hc => by cases hc⟩
  | ctrl v idle => exact attemptsBounded_of_idle ((not_busy_iff s).1 idle)
  | operand i j v mapped idle => exact attemptsBounded_of_idle ((not_busy_iff s).1 idle)
  | aborted => exact attemptsBounded_of_idle rfl
  | abortedFlushed => exact attemptsBounded_of_idle rfl
  | reset => exact attemptsBounded_of_idle rfl
  | _ => exact h

/-- Settles O41: serving the arrival keeps the bound, and so does every internal step of the turn after it. -/
theorem everyStepKeepsTheAttemptBound : Obligations.EveryStepKeepsTheAttemptBound := by
  intro s t h hstep
  obtain ⟨u, hserved, ⟨hu, rfl⟩ | ⟨hu, hran⟩⟩ := cases_of_step hstep
  · exact attemptsBounded_of_idle hu
  · have hbound : (spendTurn u).attemptsBounded := hserved.attemptsBounded (s := s.beginStep) h
    cases hran with
    | command _ i n _ turn _ =>
      rw [turn]
      exact runTurn_keeps (stepOf i) State.attemptsBounded (fun _ _ => stepOf_attemptsBounded i) n _ hbound
    | stands => exact hbound
    | eill => exact attemptsBounded_of_idle rfl

/-! ### The bound on what PRIMEGEN writes -/

/-- The candidate under test is in the range of R164, and no flag of an earlier completion stands. -/
def State.candidateFits (b : Nat) (s : State) : Prop :=
  s.status.done = false ∧ 2 ≤ s.work.cand ∧ s.work.cand < 2 ^ b

/-- What holds of a PRIMEGEN with destination `rd` wherever it stands: the candidate fits while it is tested, and has been
written when the command is done (R162, R164). -/
def State.sampling (rd : RegIdx) (b : Nat) (s : State) : Prop :=
  match s.seq with
  | .idle => s.status.done = true → 2 ≤ s.x[rd] ∧ s.x[rd] < 2 ^ b
  | .run ph => s.status.done = false ∧
      (ph = .witness ∨ ph = .power ∨ ph = .square → 2 ≤ s.work.cand ∧ s.work.cand < 2 ^ b)

theorem candidateFits_leads (rd : RegIdx) (b : Nat) : LeadsTo (State.candidateFits b) (State.sampling rd b) where
  goto ph wk s _ hc h := ⟨h.1, fun _ => by rw [goto_work, hc]; exact h.2⟩
  work wk s hc h := ⟨h.1, by rw [State.candidateFits] at h; simpa [hc] using h.2⟩
  take s w t ht h := by obtain ⟨rest, -, rfl⟩ := source_of_takeWord ht; exact h

theorem sampling_raise {rd : RegIdx} {b : Nat} {s : State} (h : s.status.done = false) (e : ErrCode) :
    (raise e s).sampling rd b := fun hd => by simp [h] at hd

theorem sampling_sampleBegin {rd : RegIdx} {b : Nat} {s : State} (h : s.status.done = false) :
    (sampleBegin s).sampling rd b := by
  unfold sampleBegin; split
  · exact sampling_raise h _
  · exact ⟨h, by simp⟩

/-- The candidate that passes is written (R161, R164). -/
theorem sampling_primegenDone {rd : RegIdx} {b : Nat} {s : State} (h : s.candidateFits b) :
    (primegenDone rd s.work.cand s).sampling rd b := by
  unfold primegenDone finish; split
  · intro _
    have hx : (complete [(rd, s.work.cand)] false false s).x[rd] = s.work.cand := by simp [writeAll]
    rw [hx]; exact h.2
  · exact sampling_raise h.1 _

/-- A candidate below `2^b` is tested; one below 2 is answered 0 without a round (R156, R162). -/
theorem sampling_candidateDrawn {rd : RegIdx} {b k c : Nat} {s : State} (hdone : s.status.done = false) (hc : c < 2 ^ b) :
    (candidateDrawn k (primegenDone rd) c s).sampling rd b := by
  unfold candidateDrawn
  by_cases h2 : 2 ≤ c
  · refine mrBegin_leads (candidateFits_leads rd b) (fun v t ht => ?_) ⟨hdone, h2, hc⟩
    exact sampleTested_leads (fun _ h => sampling_sampleBegin h.1) (fun _ => sampling_primegenDone) v ht
  · rw [mrBegin, if_pos (.inl (by omega))]
    exact sampling_sampleBegin hdone

/-- An internal step of PRIMEGEN keeps it. -/
theorem primegenStep_sampling {rd : RegIdx} {b k : Nat} {s : State} {ph : Phase} (h : s.sampling rd b)
    (hph : s.seq = .run ph) : (primegenStep rd b k ph s).sampling rd b := by
  have hL := candidateFits_leads rd b
  have hrun : s.status.done = false ∧
      (ph = .witness ∨ ph = .power ∨ ph = .square → 2 ≤ s.work.cand ∧ s.work.cand < 2 ^ b) := by
    rw [State.sampling, hph] at h; exact h
  have htested := fun v (t : State) (ht : t.candidateFits b) =>
    sampleTested_leads (s := t) (ret := primegenDone rd) (fun _ h => sampling_sampleBegin h.1)
      (fun t => sampling_primegenDone) v ht
  cases ph with
  | start =>
    unfold primegenStep; dsimp only; split_ifs
    · exact sampling_raise hrun.1 _
    · exact sampling_sampleBegin hrun.1
    · exact sampling_raise hrun.1 _
  | candidate =>
    unfold primegenStep sampleStep drawStep; dsimp only; split
    · exact h
    · next w t ht =>
      obtain ⟨rest, -, rfl⟩ := source_of_takeWord ht
      split
      · exact ⟨hrun.1, by simp⟩
      · exact sampling_candidateDrawn hrun.1 (Nat.mod_lt _ (by positivity))
  | witness => exact mrStep_leads hL (k := k) htested .witness h ⟨hrun.1, hrun.2 (by simp)⟩
  | power => exact mrStep_leads hL htested .power h ⟨hrun.1, hrun.2 (by simp)⟩
  | square => exact mrStep_leads hL htested .square h ⟨hrun.1, hrun.2 (by simp)⟩
  | _ => exact h

/-- Settles O24: the turn starts where no candidate is tested, and keeps `State.sampling`. -/
theorem primegenResultHasAtMostNbits : Obligations.PrimegenResultHasAtMostNbits := by
  intro s t rd nbits k hidle hexec hdone
  have hbegin : (issue (encode (.primegen rd nbits k)) (spendTurn s)).sampling rd nbits.toNat := by
    rw [issue_idle _ (s := spendTurn s) hidle]; exact ⟨rfl, by simp⟩
  rw [exec_eq] at hexec
  injection hexec with hexec
  have hsampling : t.sampling rd nbits.toNat := by
    rw [← hexec]
    exact runTurn_keeps _ (State.sampling rd nbits.toNat) (fun _ _ => primegenStep_sampling) _ _ hbegin
  rw [State.sampling] at hsampling
  cases hseq : t.seq with
  | idle => rw [hseq] at hsampling; exact hsampling hdone
  | run ph => rw [hseq] at hsampling; simp [hdone] at hsampling

end Sys2Proof.Machine

/-! PROOF. The register window read and written: what each mapped offset reads (R29-R50, R63, R66), the writes that change
nothing or one field (R30, R49, R51), writes done twice (R71), and a word that arrives at the entropy port (R214). -/

namespace Sys2Proof.Machine

open Pseudocode

/-! ### Reads -/

/-- A read of a register named by its offset (R29, R66). -/
theorem step_read_target {s : State} {off : Nat} {r : Target} (h : off < 0x2000) (h4 : off % 4 = 0)
    (htarget : targetAt s.params off = r) (hmapped : r ≠ .unmapped) :
    step (s.withArrival (arrive (memRead s.params off) 0)) =
      .next { s.begun 0 with env := { (s.begun 0).env with resp := some (readTarget s r) } } := by
  rw [step_read_zero s off h h4 (htarget ▸ hmapped), htarget]; rfl

/-- The level is at most the 16 bits of its field (R50). -/
theorem levelWord_eq (n : Nat) : (0#16 ++ BitVec.ofNat 16 n : Word) = BitVec.ofNat 32 (n % 2 ^ 16) := by
  apply BitVec.eq_of_toNat_eq
  rw [append_toNat]; simp; omega

/-- Settles O42: the register that each offset names, and what it reads. -/
theorem mappedReads : Obligations.MappedReads := by
  intro s read
  have control : ∀ {off : Nat} {r : Target} {w : Word}, off < 0x1000 → off % 4 = 0 → controlTarget off = r →
      r ≠ .unmapped → readTarget s r = w → read off w := by
    intro off r w hoff h4 htarget hmapped hw
    have h := step_read_target (s := s) (r := r) (by omega) h4 ((if_pos hoff).trans htarget) hmapped
    rw [hw] at h; exact h
  refine ⟨control (by decide) rfl rfl Target.noConfusion rfl, control (by decide) rfl rfl Target.noConfusion rfl,
    control (by decide) rfl rfl Target.noConfusion rfl, control (by decide) rfl rfl Target.noConfusion rfl,
    control (by decide) rfl rfl Target.noConfusion rfl, control (by decide) rfl rfl Target.noConfusion rfl,
    control (by decide) rfl rfl Target.noConfusion rfl, control (by decide) rfl rfl Target.noConfusion rfl,
    control (by decide) rfl rfl Target.noConfusion (levelWord_eq _), control (by decide) rfl rfl Target.noConfusion rfl,
    fun hp i j hj => ?_⟩
  exact step_read_target (operandOffset_lt i hp hj) (operandOffset_aligned i j) (targetAt_operandOffset i hp hj)
    Target.noConfusion

/-- The reserved bits of STATUS read 0 (R35). -/
theorem statusWord_reserved_bit (s : State) {b : Nat} (h : (9 ≤ b ∧ b < 16) ∨ (24 ≤ b ∧ b < 32)) :
    s.statusWord.getLsbD b = false := by
  have hbit := statusWord_bit s.status s b (by omega)
  obtain ⟨h0, h1, h2, h3, h4, h5, h6, h7, h8⟩ :
    b ≠ 0 ∧ b ≠ 1 ∧ b ≠ 2 ∧ b ≠ 3 ∧ b ≠ 4 ∧ b ≠ 5 ∧ b ≠ 6 ∧ b ≠ 7 ∧ b ≠ 8 := by omega
  simp only [h0, h1, h2, h3, h4, h5, h6, h7, h8, if_false] at hbit
  rw [hbit]
  obtain ⟨-, hlt⟩ | ⟨hge, -⟩ := h
  · rw [if_pos hlt]
  · rw [if_neg (by omega), if_neg (by omega)]

/-- ECODE stands in bits 23:16 of STATUS (R35, R201). -/
theorem statusWord_ecode (s : State) : s.statusWord.extractLsb' 16 8 = ecodeField s.status.ecode := by
  refine BitVec.eq_of_getLsbD_eq fun b hb => ?_
  have hbit := statusWord_bit s.status s (16 + b) (by omega)
  rw [BitVec.getLsbD_extractLsb', decide_eq_true hb, Bool.true_and]
  obtain ⟨h0, h1, h2, h3, h4, h5, h6, h7, h8⟩ : 16 + b ≠ 0 ∧ 16 + b ≠ 1 ∧ 16 + b ≠ 2 ∧ 16 + b ≠ 3 ∧ 16 + b ≠ 4 ∧
    16 + b ≠ 5 ∧ 16 + b ≠ 6 ∧ 16 + b ≠ 7 ∧ 16 + b ≠ 8 := by omega
  simp only [h0, h1, h2, h3, h4, h5, h6, h7, h8, if_false] at hbit
  rw [hbit, if_neg (by omega), if_pos (by omega), Nat.add_sub_cancel_left]

/-- A field of reserved bits of STATUS reads 0 (R35). -/
theorem statusWord_reserved_field (s : State) {lo len : Nat}
    (h : ∀ b < len, (9 ≤ lo + b ∧ lo + b < 16) ∨ (24 ≤ lo + b ∧ lo + b < 32)) :
    s.statusWord.extractLsb' lo len = 0 := by
  refine BitVec.eq_of_getLsbD_eq fun b hb => ?_
  rw [BitVec.getLsbD_extractLsb', statusWord_reserved_bit s (h b hb)]
  simp

/-- BUSY is 1 exactly in Run (R36). -/
theorem busy_iff_not_idle (s : State) : s.busy = true ↔ s.seq ≠ .idle := by
  rw [← Bool.not_eq_false, ne_eq, not_busy_iff]

/-- The sequencer needs a word exactly at the two draws (R152, R214). -/
theorem needsWord_iff (s : State) : s.needsWord = true ↔ s.seq = .run .witness ∨ s.seq = .run .candidate := by
  cases h : s.seq with
  | idle => simp [needsWord_of_idle h]
  | run ph => rw [needsWord_of_run h]; cases ph <;> simp [Phase.draws]

/-- RNGWAIT is 1 exactly at a draw with the selected source empty (R41). -/
theorem rngWait_iff (s : State) : s.rngWait = true ↔ (s.seq = .run .witness ∨ s.seq = .run .candidate) ∧
    (if s.ctrl.getLsbD 0 then s.fifo else s.env.port) = [] := by
  rw [State.rngWait, Bool.and_eq_true, needsWord_iff, List.isEmpty_iff]; rfl

/-- Settles O55: the read answers `statusWord`, whose bits are those of `statusWord_bit`. -/
theorem statusReadShowsEachFlag : Obligations.StatusReadShowsEachFlag := by
  intro s
  have hbit := statusWord_bit s.status s
  refine ⟨s.statusWord, step_read_target (r := .status) (by decide) rfl rfl Target.noConfusion, ?_, hbit 1 (by decide),
    hbit 2 (by decide), hbit 3 (by decide), hbit 4 (by decide), ?_, hbit 6 (by decide), hbit 7 (by decide),
    hbit 8 (by decide), statusWord_reserved_field s (by omega), statusWord_reserved_field s (by omega), ?_⟩
  · rw [← busy_iff_not_idle, show s.statusWord.getLsbD 0 = s.busy from hbit 0 (by decide)]
  · rw [← rngWait_iff, show s.statusWord.getLsbD 5 = s.rngWait from hbit 5 (by decide)]
  · rw [statusWord_ecode]
    rcases s.status.ecode with _ | e
    · rfl
    · cases e <;> rfl

/-- The number of CFG's word: its fields beside each other (R32). -/
theorem cfgWord_toNat (p : Params) (hF : p.fifoDepth < 2 ^ 8) (hW : p.width < 2 ^ 16) :
    (cfgWord p).toNat = p.extRng.toNat * 2 ^ 24 + p.fifoDepth * 2 ^ 16 + p.width := by
  have h : (cfgWord p).toNat
      = (0#7 ++ BitVec.ofBool p.extRng ++ BitVec.ofNat 8 p.fifoDepth ++ BitVec.ofNat 16 p.width).toNat := rfl
  rw [h]
  simp only [append_toNat, BitVec.toNat_ofBool, BitVec.toNat_ofNat, Nat.mod_eq_of_lt hF, Nat.mod_eq_of_lt hW]
  omega

/-- Settles O56: the fields stand beside each other in CFG, and legal parameters fit them. -/
theorem cfgReadShowsTheParameters : Obligations.CfgReadShowsTheParameters := by
  intro s hp
  obtain ⟨hW, hF⟩ : s.params.width ≤ 4096 ∧ s.params.fifoDepth ≤ 255 := by simp [Params.legal] at hp; omega
  have hword := cfgWord_toNat s.params (by omega) (by omega)
  have hbool := Bool.toNat_le s.params.extRng
  have hfield : ∀ lo len, ((cfgWord s.params).extractLsb' lo len).toNat
      = (s.params.extRng.toNat * 2 ^ 24 + s.params.fifoDepth * 2 ^ 16 + s.params.width) / 2 ^ lo % 2 ^ len := by
    intro lo len; rw [BitVec.extractLsb'_toNat, hword, Nat.shiftRight_eq_div_pow]
  refine ⟨cfgWord s.params, step_read_target (r := .cfg) (by decide) rfl rfl Target.noConfusion, ?_, ?_, ?_, ?_⟩
  · rw [hfield]; omega
  · rw [hfield]; omega
  · rw [BitVec.getLsbD, hword, Nat.testBit_eq_decide_div_mod_eq]
    cases he : s.params.extRng <;> simp <;> omega
  · apply BitVec.eq_of_toNat_eq; rw [hfield]; simp; omega

/-! ### The words of a value -/

/-- The lowest words of a value are its residue (R63). -/
theorem assemble_words (n v : Nat) : assemble ((List.range n).map (wordOf v)) = v % 2 ^ (32 * n) := by
  induction n generalizing v with
  | zero => simp [assemble, Nat.mod_one]
  | succ n ih =>
    have hlow : (wordOf v 0).toNat = v % 2 ^ 32 := by simp [wordOf]
    have hrest : (List.range n).map (wordOf v ∘ Nat.succ) = (List.range n).map (wordOf (v / 2 ^ 32)) := by
      refine List.map_congr_left fun j _ => ?_
      rw [Function.comp_apply, wordOf_div v 1 (j + 1) (by omega)]; rfl
    rw [List.range_succ_eq_map, List.map_cons, List.map_map, hrest, assemble, ih, hlow, ← Nat.mod_mul, ← pow_add]
    congr 2; omega

/-- Settles O43: `W / 32` words hold the `W` bits. -/
theorem wordsMakeTheValue : Obligations.WordsMakeTheValue := by
  intro p v hW hv
  rw [wordsOf, assemble_words, Nat.mul_div_cancel' (Nat.dvd_of_mod_eq_zero hW), Nat.mod_eq_of_lt hv]

/-! ### Writes -/

/-- Settles O46: the five offsets name registers whose arm of `writeTarget` leaves the state. -/
theorem readOnlyWritesAreIgnored : Obligations.ReadOnlyWritesAreIgnored := by
  intro s off v hoff
  simp only [List.mem_cons, List.not_mem_nil, or_false] at hoff
  obtain rfl | rfl | rfl | rfl | rfl := hoff <;> exact step_write_zero s _ v (by decide) rfl Target.noConfusion

/-- Settles O49: the two branches of `writeRngData`. -/
theorem rngDataWrite : Obligations.RngDataWrite := by
  intro s v
  rw [step_write_zero s 0x01C v (by decide) rfl Target.noConfusion]
  show Host.Outcome.next (writeRngData v (s.begun 0)) = _
  unfold writeRngData
  rw [show (s.begun 0).fifo = s.fifo from rfl, show (s.begun 0).params = s.params from rfl]
  split <;> rfl

/-- Settles O51: with bit 0 clear the write can only flush. -/
theorem flushWhileRunning : Obligations.FlushWhileRunning := by
  intro s v _ hnoabort
  rw [step_write_zero s 0x024 v (by decide) rfl Target.noConfusion]
  exact congrArg _ (writeAbort_of_no_abort hnoabort (s.begun 0))

/-- Settles O53: the port's list grows where the port is connected. -/
theorem entropyWordArrives : Obligations.EntropyWordArrives := by
  intro s w
  rw [step_of_turn_zero (input := .entropy w) rfl (serve_served _ _).turn_eq]
  show Host.Outcome.next (presentWord w (s.begun 0)) = _
  unfold presentWord
  rw [show (s.begun 0).params = s.params from rfl]
  split <;> rfl

/-! ### Writes done twice -/

theorem writeCtrl_twice (v : Word) (s : State) : writeCtrl v (writeCtrl v s) = writeCtrl v s := by
  cases hb : s.busy with
  | true => rw [writeCtrl_of_busy v hb, writeCtrl_of_busy v (s := accessError s) hb]; rfl
  | false => rw [writeCtrl_of_idle v hb, writeCtrl_of_idle v (s := { s with ctrl := v &&& ctrlMask }) hb]

theorem writeOneToClear_twice (st : Status) (v : Word) :
    (st.writeOneToClear v).writeOneToClear v = st.writeOneToClear v := by
  simp [Status.writeOneToClear]

theorem flushed_twice (v : Word) (q : List Word) : flushed v (flushed v q) = flushed v q := by
  unfold flushed; split <;> rfl

theorem writeAbort_twice (v : Word) (s : State) : writeAbort v (writeAbort v s) = writeAbort v s := by
  cases habort : v.getLsbD 0 with
  | false => rw [writeAbort_of_no_abort habort, writeAbort_of_no_abort habort]; simp only [flushed_twice]
  | true =>
    cases hb : s.busy with
    | true =>
      rw [writeAbort_of_busy hb habort, writeAbort_of_idle v (s := { raise .eabort s with fifo := flushed v s.fifo }) rfl]
      simp only [flushed_twice]
    | false =>
      rw [writeAbort_of_idle v hb, writeAbort_of_idle v (s := { s with fifo := flushed v s.fifo }) hb]
      simp only [flushed_twice]

theorem withWord_twice (v j : Nat) (w : Word) : withWord (withWord v j w) j w = withWord v j w := by
  rw [withWord, withWord_mod, withWord_div_above, ← withWord]

theorem writeOperand_twice (i : RegIdx) (j : Nat) (v : Word) (s : State) :
    writeOperand i j v (writeOperand i j v s) = writeOperand i j v s := by
  cases hb : s.busy with
  | true => rw [writeOperand_of_busy i j v hb, writeOperand_of_busy i j v (s := accessError s) hb]; rfl
  | false =>
    rw [writeOperand_of_idle i j v hb,
      writeOperand_of_idle i j v (s := { s with x := s.x.set i (withWord s.x[i] j v) }) hb]
    simp [withWord_twice]

/-- Settles O52: each of the four writes, done on the state that it left. -/
theorem idempotentWrites : Obligations.IdempotentWrites := by
  rintro s r v (rfl | rfl | rfl | ⟨i, j, rfl⟩)
  · exact writeCtrl_twice v s
  · exact congrArg (fun st => ({ s with status := st } : State)) (writeOneToClear_twice s.status v)
  · exact writeAbort_twice v s
  · exact writeOperand_twice i j v s

end Sys2Proof.Machine

/-! PROOF. The handshake of the entropy port (R214): the only internal steps that touch the port's words are those at a draw,
and there a randomised command takes exactly the word presented. -/

namespace Sys2Proof.Machine

/-! ### What leaves the port's words -/

/-- The words at the port that the block has not taken are `q`. -/
def State.portHolds (q : List Word) (s : State) : Prop := s.env.port = q

theorem portHolds_moves (q : List Word) : Moves (State.portHolds q) where
  goto _ _ _ h := h
  work _ _ h := h

section port
variable {q : List Word} {s : State}

theorem finish_portHolds (writes : List (RegIdx × Nat)) (res noinv : Bool) (h : s.portHolds q) :
    (finish writes res noinv s).portHolds q := by
  unfold finish; split <;> exact h

theorem sampleBegin_portHolds (h : s.portHolds q) : (sampleBegin s).portHolds q :=
  sampleBegin_keeps (fun _ => id) (portHolds_moves q) (fun _ => id) h

theorem sampleTested_portHolds {ret : Nat → State → State} (hr : ∀ v t, t.portHolds q → (ret v t).portHolds q) (v : Bool)
    (h : s.portHolds q) : (sampleTested ret v s).portHolds q :=
  sampleTested_keeps (fun _ => id) (portHolds_moves q) (fun _ => id) hr v h

theorem candidateDrawn_portHolds {k : Nat} {ret : Nat → State → State}
    (hr : ∀ v t, t.portHolds q → (ret v t).portHolds q) (c : Nat) (h : s.portHolds q) :
    (candidateDrawn k ret c s).portHolds q :=
  mrBegin_keeps (fun _ => id) (portHolds_moves q) (fun v _ => sampleTested_portHolds hr v) h

theorem keygenSampled_portHolds (c : Nat) (h : s.portHolds q) : (keygenSampled c s).portHolds q := by
  unfold keygenSampled; split_ifs
  · exact sampleBegin_portHolds h
  · exact h
  · exact sampleBegin_portHolds h

/-- A draw that takes a word leaves the port as taking the word does, if what follows the draw does (R152). -/
theorem drawStep_portHolds {b : Nat} {ph : Phase} {ret : Nat → State → State} {w : Word} {t : State}
    (htake : takeWord s = some (w, t)) (hr : ∀ v t, t.portHolds q → (ret v t).portHolds q) (h : t.portHolds q) :
    (drawStep b ph ret s).portHolds q := by
  unfold drawStep; rw [htake]; dsimp only; split
  · exact h
  · exact hr _ _ h

/-- `MillerRabin` at a point that does not draw (R156). -/
theorem mrStep_portHolds {k : Nat} {ret : Bool → State → State} (hr : ∀ v t, t.portHolds q → (ret v t).portHolds q)
    {ph : Phase} (hd : ph.draws = false) (h : s.portHolds q) : (mrStep k ret ph s).portHolds q := by
  have hM := portHolds_moves q
  cases ph with
  | witness => cases hd
  | power => exact powerStep_keeps (fun _ => id) hM (fun y _ => mrPowerDone_keeps (fun _ => id) hM hr y) h
  | square => exact squareStep_keeps (fun _ => id) hM hr h
  | _ => exact h

/-- `PrimeSample` at a point that does not draw (R162). -/
theorem sampleStep_portHolds {b k : Nat} {ret : Nat → State → State}
    (hr : ∀ v t, t.portHolds q → (ret v t).portHolds q) {ph : Phase} (hd : ph.draws = false) (h : s.portHolds q) :
    (sampleStep b k ret ph s).portHolds q := by
  cases ph with
  | witness => cases hd
  | candidate => cases hd
  | power => exact mrStep_portHolds (fun v _ => sampleTested_portHolds hr v) hd h
  | square => exact mrStep_portHolds (fun v _ => sampleTested_portHolds hr v) hd h
  | _ => exact h

/-- An internal step at a point that does not draw takes no word (R214). -/
theorem stepOf_portHolds (i : Instr) {ph : Phase} (hph : s.seq = .run ph) (hd : ph.draws = false) (h : s.portHolds q) :
    (stepOf i ph s).portHolds q := by
  have hplain : randomised i = false → (stepOf i ph s).portHolds q := fun hi =>
    ((stepOf_outcome i s s ph (moved_self (busy_of_run hph))).takesWords.untouched hi).2.trans h
  cases i with
  | mrtest rd n k =>
    have hdone : ∀ v (t : State), t.portHolds q → (mrtestDone rd v t).portHolds q := fun _ _ =>
      finish_portHolds _ _ _
    cases ph with
    | start =>
      unfold stepOf mrtestStep; dsimp only; split
      · exact h
      · exact mrBegin_keeps (fun _ => id) (portHolds_moves q) hdone h
    | power => exact mrStep_portHolds hdone hd h
    | square => exact mrStep_portHolds hdone hd h
    | witness => cases hd
    | _ => exact h
  | primegen rd nbits k =>
    have hdone : ∀ c (t : State), t.portHolds q → (primegenDone rd c t).portHolds q := fun _ _ =>
      finish_portHolds _ _ _
    cases ph with
    | start =>
      unfold stepOf primegenStep; dsimp only; split_ifs
      · exact h
      · exact sampleBegin_portHolds h
      · exact h
    | power => exact sampleStep_portHolds hdone hd h
    | square => exact sampleStep_portHolds hdone hd h
    | witness => cases hd
    | candidate => cases hd
    | _ => exact h
  | keygen rd nbits k =>
    have hderive : ∀ ph, (deriveStep rd ph s).portHolds q := fun ph =>
      deriveStep_keeps (fun _ => id) (portHolds_moves q) (fun _ _ _ _ => finish_portHolds _ _ _) ph h
    cases ph with
    | start =>
      unfold stepOf keygenStep; dsimp only; split_ifs
      · exact h
      · exact h
      · exact h
      · exact sampleBegin_portHolds h
    | power => exact sampleStep_portHolds (fun c _ => keygenSampled_portHolds c) hd h
    | square => exact sampleStep_portHolds (fun c _ => keygenSampled_portHolds c) hd h
    | euclid => exact hderive .euclid
    | bezout => exact hderive .bezout
    | witness => cases hd
    | candidate => cases hd
  | _ => exact hplain rfl

/-- An internal step at a draw takes a word: a witness for every randomised command, a candidate for those that sample
(R153, R162). -/
theorem stepOf_draws_portHolds (i : Instr) {ph : Phase} {w : Word} {t : State}
    (hph : (ph = .witness ∧ randomised i = true) ∨ (ph = .candidate ∧ samplesCandidates i = true))
    (htake : takeWord s = some (w, t)) (h : t.portHolds q) : (stepOf i ph s).portHolds q := by
  have hwitness : ∀ u (t : State), t.portHolds q → (witnessDrawn u t).portHolds q := fun u _ =>
    witnessDrawn_keeps (fun _ => id) (portHolds_moves q) u
  have hcandidate : ∀ {k : Nat} {ret : Nat → State → State}, (∀ v (t : State), t.portHolds q → (ret v t).portHolds q) →
      ∀ c (t : State), t.portHolds q → (candidateDrawn k ret c t).portHolds q := fun hr c _ =>
    candidateDrawn_portHolds hr c
  obtain ⟨rfl, hi⟩ | ⟨rfl, hi⟩ := hph
  · cases i with
    | mrtest => exact drawStep_portHolds htake hwitness h
    | primegen => exact drawStep_portHolds htake hwitness h
    | keygen => exact drawStep_portHolds htake hwitness h
    | _ => cases hi
  · cases i with
    | primegen => exact drawStep_portHolds htake (hcandidate fun _ _ => finish_portHolds _ _ _) h
    | keygen => exact drawStep_portHolds htake (hcandidate fun c _ => keygenSampled_portHolds c) h
    | _ => cases hi

end port

/-! ### The statement -/

/-- A turn of one internal step of a command that runs and does not wait. -/
theorem exec_one_of_run (i : Instr) {s : State} {ph : Phase} (hph : s.seq = .run ph) (hw : s.rngWait = false) :
    exec i (s.withTurn 1) = .next (stepOf i ph (spendTurn s)) := by
  rw [exec_withTurn, issue_running _ (busy_of_run (s := spendTurn s) hph)]
  exact congrArg _ (runTurn_succ (stepOf i) 0 (s := spendTurn s) hph hw)

theorem portReady_iff (s : State) : s.portReady = true ↔
    s.params.extRng = true ∧ s.ctrl.getLsbD 0 = false ∧ (s.seq = .run .witness ∨ s.seq = .run .candidate) := by
  rw [State.portReady, Bool.and_eq_true, Bool.and_eq_true, needsWord_iff, Bool.not_eq_true', State.rngSrc]
  tauto

theorem portValid_iff (s : State) : s.portValid = true ↔ s.params.extRng = true ∧ s.env.port ≠ [] := by
  rw [State.portValid, Bool.and_eq_true, Bool.not_eq_true', ← Bool.not_eq_true, List.isEmpty_iff]

/-- A command that is issued where no word is needed stands at a point that does not draw. -/
theorem issue_not_draws {s : State} (w : Word) (h : s.needsWord = false) :
    ∃ ph, (issue w s).seq = .run ph ∧ ph.draws = false := by
  cases hseq : s.seq with
  | idle => exact ⟨.start, by rw [issue_idle w hseq, accept_seq], rfl⟩
  | run ph => exact ⟨ph, by rw [issue_running w (busy_of_run hseq), hseq], (needsWord_of_run hseq).symm.trans h⟩

/-- Where ready is not asserted though the port exists, one internal step takes no word of the port: the FIFO is selected, or
the step is at no draw. -/
theorem exec_one_port_of_not_ready (i : Instr) {s : State} (hext : s.params.extRng = true) (hready : s.portReady = false) :
    ∃ t, exec i (s.withTurn 1) = .next t ∧ t.env.port = s.env.port := by
  refine ⟨_, exec_withTurn i s 1, ?_⟩
  cases hr : s.rngSrc with
  | true =>
    have ho := outcome_of_exec (exec_withTurn i s 1)
    simpa using ho.takesWords.port (by simpa using hr)
  | false =>
    have hneeds : s.needsWord = false := by simpa [State.portReady, hext, hr] using hready
    obtain ⟨ph, hph, hd⟩ := issue_not_draws (s := spendTurn s) (encode i) hneeds
    rw [runTurn_succ (stepOf i) 0 hph (rngWait_of_not_draws hph hd)]
    exact stepOf_portHolds i hph hd (by rw [State.portHolds, issue_env, spendTurn_env])

/-- Settles O59: `stepOf_draws_portHolds` where ready is asserted, and `exec_one_port_of_not_ready` where it is not. -/
theorem entropyPortHandshake : Obligations.EntropyPortHandshake := by
  intro i s
  refine ⟨portReady_iff s, portValid_iff s, fun hready hvalid => ?_, fun hready hwit hcand w rest hport => ?_,
    exec_one_port_of_not_ready i⟩
  · have hwait : s.rngWait = true := by rw [rngWait_of_portReady hready, hvalid]; rfl
    exact ⟨hwait, waitingCommandStands i (s.withTurn 1) hwait⟩
  · obtain ⟨hext, -, hseq⟩ := (portReady_iff s).1 hready
    have hw : s.rngWait = false := by
      rw [rngWait_of_portReady hready, (portValid_iff s).2 ⟨hext, by simp [hport]⟩]; rfl
    have htake := takeWord_of_portReady (s := spendTurn s) hready hport
    refine ⟨hw, ?_⟩
    obtain hph | hph := hseq
    · exact ⟨_, exec_one_of_run i hph hw, stepOf_draws_portHolds i (.inl ⟨rfl, hwit hph⟩) htake rfl⟩
    · exact ⟨_, exec_one_of_run i hph hw, stepOf_draws_portHolds i (.inr ⟨rfl, hcand hph⟩) htake rfl⟩

end Sys2Proof.Machine

/-! PROOF. A command from its first internal step to its completion, the errors that end a command in that step (R204, R208),
and the results of GCD, LCM, MODINV and MODEXP (R120-R132). -/

namespace Sys2Proof.Machine

open Pseudocode

/-! ### From the first internal step to the completion -/

/-- The state in which the first internal step of the command `i`, issued in `s`, is taken (R25, R26). -/
def State.atStart (s : State) (i : Instr) : State :=
  (spendTurn s).during (encode i) 0 s.source .start (snapshot s.x (encode i))

/-- A command whose internal steps reach its results in time ends in success, if the results fit (R7, R202). -/
theorem exec_succeeds {i : Instr} {s : State} {j : Nat} {att : Word} {rest : List Word} {ph : Phase} {wk : Work}
    {writes : List (RegIdx × Nat)} {res noinv : Bool} (hidle : s.seq = .idle)
    (hr : Reaches (stepOf i) j (stepOf i .start (s.atStart i))
      (finish writes res noinv ((spendTurn s).during (encode i) att rest ph wk)))
    (hfit : fits s.params writes = true) (hturn : j + 1 ≤ s.env.turn) :
    exec i s = .next ((s.succeeded (encode i) att writes res noinv).withSource rest) := by
  rw [finish_fits (s := (spendTurn s).during (encode i) att rest ph wk) res noinv hfit] at hr
  rw [exec_eq, runCommand_succeeds hidle (start_reaches.trans hr) hturn]

/-- A command whose internal steps reach an error in time ends in it (R203). -/
theorem exec_fails {i : Instr} {s : State} {j : Nat} {att : Word} {rest : List Word} {ph : Phase} {wk : Work}
    {e : ErrCode} (hidle : s.seq = .idle)
    (hr : Reaches (stepOf i) j (stepOf i .start (s.atStart i))
      (raise e ((spendTurn s).during (encode i) att rest ph wk)))
    (hturn : j + 1 ≤ s.env.turn) : exec i s = .next ((s.failed (encode i) att e).withSource rest) := by
  rw [exec_eq, runCommand_fails hidle (start_reaches.trans hr) hturn]

/-- An error found by the checks that a command makes first ends it in its first internal step, and no word is taken
(R204, R208). -/
theorem exec_fails_at_start {i : Instr} {s : State} {e : ErrCode} (hidle : s.seq = .idle) (hturn : 1 ≤ s.env.turn)
    (hstart : stepOf i .start (s.atStart i) = raise e (s.atStart i)) :
    exec i s = .next (s.failed (encode i) 0 e) := by
  have hr : Reaches (stepOf i) 0 (stepOf i .start (s.atStart i)) (raise e (s.atStart i)) := hstart ▸ Reaches.refl _ _
  rw [exec_fails hidle hr hturn, failed_withSource_self]

/-- A success that takes no word. -/
theorem exec_succeeds_without_words {i : Instr} {s : State} {j : Nat} {att : Word} {ph : Phase} {wk : Work}
    {writes : List (RegIdx × Nat)} {res noinv : Bool} (hidle : s.seq = .idle)
    (hr : Reaches (stepOf i) j (stepOf i .start (s.atStart i))
      (finish writes res noinv ((spendTurn s).during (encode i) att s.source ph wk)))
    (hfit : fits s.params writes = true) (hturn : j + 1 ≤ s.env.turn) :
    exec i s = .next (s.succeeded (encode i) att writes res noinv) := by
  rw [exec_succeeds hidle hr hfit hturn, succeeded_withSource_self]

/-! ### Errors in the first internal step -/

/-- Settles O11: the check of RD comes first in both commands. -/
theorem destinationAboveFiveIsEill : Obligations.DestinationAboveFiveIsEill := by
  intro s rd ra rb nbits k hidle hrd hturn
  exact ⟨exec_fails_at_start hidle hturn (if_pos hrd), exec_fails_at_start hidle hturn (if_pos hrd)⟩

/-- Settles O17: the check of the random source comes first, but for KEYGEN's check of RD. -/
theorem noRandomSourceIsEnorng : Obligations.NoRandomSourceIsEnorng := by
  intro s rd rn nbits k hidle hrng hext hturn
  have hnone : s.noRandomSource = true := by
    rw [State.noRandomSource, State.rngSrc, hrng, hext]; rfl
  exact ⟨exec_fails_at_start hidle hturn (if_pos hnone), exec_fails_at_start hidle hturn (if_pos hnone),
    fun hrd => exec_fails_at_start hidle hturn ((if_neg (by omega)).trans (if_pos hnone))⟩

/-- Settles O21: with a random source the check of `nbits` decides. -/
theorem primegenRange : Obligations.PrimegenRange := by
  intro s rd nbits k hidle hsource hrange hturn
  have hnone : ¬ (s.atStart (.primegen rd nbits k)).noRandomSource = true := Bool.eq_false_iff.1 hsource
  have hout : ¬ (2 ≤ nbits.toNat ∧ nbits.toNat ≤ s.params.width) := by omega
  exact exec_fails_at_start hidle hturn ((if_neg hnone).trans (if_neg hout))

/-- Settles O28: with a legal RD and a random source the check of `nbits` decides. -/
theorem keygenRange : Obligations.KeygenRange := by
  intro s rd nbits k hrd hidle hsource hrange hturn
  have hnone : ¬ (s.atStart (.keygen rd nbits k)).noRandomSource = true := Bool.eq_false_iff.1 hsource
  exact exec_fails_at_start hidle hturn ((if_neg (by omega)).trans ((if_neg hnone).trans (if_pos hrange)))

/-! ### Modular arithmetic -/

/-- The operands are `W` bits long (R8, R21). -/
theorem bitlen_le_width {s : State} (h : s.operandsFit) (r : RegIdx) : bitlen s.x[r] ≤ s.params.width :=
  (bitlen_le_iff _ _).2 (h r)

theorem gcd_lt {a b B : Nat} (ha : a < B) (hb : b < B) : Nat.gcd a b < B := by
  rcases Nat.eq_zero_or_pos b with rfl | hpos
  · simpa using ha
  · exact (Nat.gcd_le_right a hpos).trans_lt hb

/-- The working state of a format R command at its start: the snapshot of its sources (R24). -/
theorem atStart_formatR {i : Instr} {op : BitVec 6} {rd a b c : RegIdx} (s : State) (h : encode i = formatR op rd a b c) :
    s.atStart i = (spendTurn s).during (encode i) 0 s.source .start
      { Work.zero with a := s.x[a], b := s.x[b], c := s.x[c] } := by
  rw [State.atStart, h, snapshot_formatR]

/-- Settles O12: `Gcd` from the snapshot, whose result is no larger than an operand. -/
theorem gcdResult : Obligations.GcdResult := by
  intro s rd ra rb hidle hfit hturn
  have hb := bitlen_le_width hfit rb
  obtain ⟨j, hj, hr⟩ := euclidBegin_reaches (f := stepOf (.gcd rd ra rb))
    (ret := fun g => finish [(rd, g)] false false) s.x[ra] s.x[rb] (fun _ => rfl) (s.atStart (.gcd rd ra rb))
  have hstart : stepOf (.gcd rd ra rb) .start (s.atStart (.gcd rd ra rb))
      = euclidBegin s.x[ra] s.x[rb] (s.atStart (.gcd rd ra rb)) := by
    rw [atStart_formatR s rfl]; rfl
  rw [← hstart] at hr
  exact exec_succeeds_without_words hidle hr (fits_one.2 (gcd_lt (hfit ra) (hfit rb))) (by omega)

/-- LCM of operands other than 0 runs `Gcd`, which gives the divisor of the product (R124). -/
theorem lcm_reaches {s : State} {rd ra rb : RegIdx} (hzero : ¬ (s.x[ra] = 0 ∨ s.x[rb] = 0)) :
    ∃ j ≤ 2 * bitlen s.x[rb] + 1, ∃ wk, Reaches (stepOf (.lcm rd ra rb)) j
      (stepOf (.lcm rd ra rb) .start (s.atStart (.lcm rd ra rb)))
      (finish [(rd, Nat.lcm s.x[ra] s.x[rb])] false false
        ((spendTurn s).during (encode (.lcm rd ra rb)) 0 s.source .euclid wk)) := by
  have hat := atStart_formatR (i := .lcm rd ra rb) s rfl
  obtain ⟨j, hj, hr⟩ := euclidBegin_reaches (f := stepOf (.lcm rd ra rb))
    (ret := fun g s => finish [(rd, s.work.a * s.work.b / g)] false false s) s.x[ra] s.x[rb] (fun _ => rfl)
    (s.atStart (.lcm rd ra rb))
  have hstart : stepOf (.lcm rd ra rb) .start (s.atStart (.lcm rd ra rb))
      = euclidBegin s.x[ra] s.x[rb] (s.atStart (.lcm rd ra rb)) := by
    rw [hat]; exact if_neg hzero
  rw [← hstart, hat] at hr
  rw [hat]
  exact ⟨j, hj, _, hr⟩

/-- Settles O13: a zero operand is found at the start; else the completion checks that the multiple fits. -/
theorem lcmResult : Obligations.LcmResult := by
  intro s rd ra rb hidle hfit hturn
  have hb := bitlen_le_width hfit rb
  by_cases hzero : s.x[ra] = 0 ∨ s.x[rb] = 0
  · rw [if_pos hzero]
    refine exec_fails_at_start hidle (by omega) ?_
    rw [atStart_formatR s rfl]; exact if_pos hzero
  · obtain ⟨j, hj, wk, hr⟩ := lcm_reaches (rd := rd) hzero
    rw [if_neg hzero]
    by_cases hbig : 2 ^ s.params.width ≤ Nat.lcm s.x[ra] s.x[rb]
    · have hnofit : fits s.params [(rd, Nat.lcm s.x[ra] s.x[rb])] = false :=
        Bool.eq_false_iff.2 fun h => absurd (fits_one.1 h) (not_lt.2 hbig)
      rw [finish_not_fits (s := (spendTurn s).during _ 0 s.source .euclid wk) _ _ hnofit] at hr
      rw [if_pos hbig, exec_fails hidle hr (by omega), failed_withSource_self]
    · rw [if_neg hbig]
      exact exec_succeeds_without_words hidle hr (fits_one.2 (not_le.1 hbig)) (by omega)

/-- Settles O16: modulus 0 is found at the start; else the loop of `ModExp` runs `bitlen(d)` times. -/
theorem modexpResult : Obligations.ModexpResult := by
  intro s rd ra re rn hidle hfit hturn
  have hat := atStart_formatR (i := .modexp rd ra re rn) s rfl
  by_cases hzero : s.x[rn] = 0
  · rw [if_pos hzero]
    refine exec_fails_at_start hidle (by omega) ?_
    rw [hat]; exact if_pos hzero
  · rw [if_neg hzero]
    have hpos := Nat.pos_of_ne_zero hzero
    obtain ⟨base, hr⟩ := powerBegin_reaches (f := stepOf (.modexp rd ra re rn))
      (ret := fun v => finish [(rd, v)] false false) s.x[ra] s.x[re] s.x[rn] (fun _ => rfl)
      (s.atStart (.modexp rd ra re rn)) hpos
    have hstart : stepOf (.modexp rd ra re rn) .start (s.atStart (.modexp rd ra re rn))
        = powerBegin s.x[ra] s.x[re] s.x[rn] (s.atStart (.modexp rd ra re rn)) := by
      rw [hat]; exact if_neg hzero
    rw [← hstart] at hr
    exact exec_succeeds_without_words hidle hr (fits_one.2 ((Nat.mod_lt _ hpos).trans (hfit rn))) (by omega)

/-- What `ModInv` returns is below a modulus other than 0 (R127). -/
theorem isModInv_lt {a n v : Nat} {noinv : Bool} (h : IsModInv a n v noinv) (hn : 0 < n) : v < n := by
  by_cases hg : Nat.gcd a n = 1
  · exact (h.1 hg).2.1
  · rw [(h.2 hg).2]; exact hn

/-- MODINV with a modulus other than 0 writes a value and bit that R127 allows. -/
theorem exec_modinv {s : State} {rd ra rn : RegIdx} (hidle : s.seq = .idle) (hfit : s.operandsFit)
    (hturn : 2 * s.params.width + 4 ≤ s.env.turn) (hn : s.x[rn] ≠ 0) :
    ∃ v noinv, IsModInv s.x[ra] s.x[rn] v noinv ∧
      exec (.modinv rd ra rn) s = .next (s.succeeded (encode (.modinv rd ra rn)) 0 [(rd, v)] false noinv) := by
  have hb := bitlen_le_width hfit rn
  have hpos := Nat.pos_of_ne_zero hn
  obtain ⟨j, hj, v, noinv, r, newr, t, newt, hv, hr⟩ := bezoutBegin_reaches (f := stepOf (.modinv rd ra rn))
    (ret := fun v noinv => finish [(rd, v)] false noinv) s.x[ra] s.x[rn] (fun _ => rfl) (s.atStart (.modinv rd ra rn))
    hpos
  have hstart : stepOf (.modinv rd ra rn) .start (s.atStart (.modinv rd ra rn))
      = bezoutBegin s.x[ra] s.x[rn] (s.atStart (.modinv rd ra rn)) := by
    rw [atStart_formatR s rfl]; exact if_neg hn
  rw [← hstart] at hr
  exact ⟨v, noinv, hv,
    exec_succeeds_without_words hidle hr (fits_one.2 ((isModInv_lt hv hpos).trans (hfit rn))) (by omega)⟩

/-- Settles O14: what is written is allowed by R127, which allows one value and bit only. -/
theorem modinvResult : Obligations.ModinvResult := by
  intro s rd ra rn hidle hfit hturn
  refine ⟨fun hzero => exec_fails_at_start hidle (by omega) ?_, fun hn => ?_⟩
  · rw [atStart_formatR s rfl]; exact if_pos hzero
  · obtain ⟨v, noinv, hv, hexec⟩ := exec_modinv (rd := rd) (ra := ra) hidle hfit hturn hn
    refine ⟨⟨v, noinv, hv⟩, fun v' noinv' hv' => ?_⟩
    obtain ⟨rfl, rfl⟩ := isModInv_unique hv hv'
    exact hexec

/-- Settles O15: of coprime operands R127 asks an inverse, and two inverses below the modulus are equal. -/
theorem modinvOfCoprimesWritesTheOnlyInverse : Obligations.ModinvOfCoprimesWritesTheOnlyInverse := by
  intro s rd ra rn hidle hfit hturn hn hcoprime
  obtain ⟨v, noinv, hv, hexec⟩ := exec_modinv (rd := rd) (ra := ra) hidle hfit hturn hn
  obtain ⟨hnoinv, hlt, hinv⟩ := hv.1 hcoprime
  have hx : (s.succeeded (encode (.modinv rd ra rn)) 0 [(rd, v)] false noinv).x[rd] = v := by
    simp [State.succeeded, writeAll]
  refine ⟨_, hexec, rfl, hnoinv, by rw [hx]; exact hlt, by rw [hx]; exact hinv, fun v' hlt' hinv' => ?_⟩
  have hv' : IsModInv s.x[ra] s.x[rn] v' false := ⟨fun _ => ⟨rfl, hlt', hinv'⟩, fun hg => absurd hcoprime hg⟩
  rw [hx]
  exact (isModInv_unique hv' hv).1

end Sys2Proof.Machine

/-! PROOF. MRTEST and PRIMEGEN: the runs that need no rounds (R158), the refinement of `MillerRabin` and `PrimeSample`
(R156, R162, R163), and that no prime is rejected (R159). -/

namespace Sys2Proof.Machine

open Pseudocode

/-! ### MillerRabin without rounds -/

/-- For `n <= 4`, and with `k = 0`, `MillerRabin(n, k)` answers at its call: 0 exactly for 0, 1 and 4 (R156, R158). -/
theorem mrBegin_without_rounds {n k : Nat} (h : n ≤ 4 ∨ k = 0) (ret : Bool → State → State) (s : State)
    (w att : Word) (rest : List Word) (ph : Phase) (wk : Work) :
    ∃ wk', wk'.outside = wk.outside ∧ mrBegin n k ret (s.during w att rest ph wk)
      = ret (decide ¬ (n ≤ 1 ∨ n = 4)) (s.during w att rest ph wk') := by
  by_cases h01 : n ≤ 1 ∨ n = 4
  · exact ⟨wk, rfl, by simp [mrBegin, h01]⟩
  by_cases h23 : n = 2 ∨ n = 3
  · exact ⟨wk, rfl, by simp [mrBegin, h01, h23]⟩
  · obtain rfl : k = 0 := by omega
    refine ⟨{ wk with n := n, s := (oddSplit n).1, d := (oddSplit n).2, round := 0 }, rfl, ?_⟩
    rw [mrBegin, if_neg h01, if_neg h23, decide_eq_true h01]; rfl

/-! ### MRTEST -/

theorem mrtest_runsMr (rd rn : RegIdx) (k : BitVec 7) :
    RunsMr (stepOf (.mrtest rd rn k)) k.toNat (mrtestDone rd) where
  witness _ := rfl
  power _ := rfl
  square _ := rfl

/-- MRTEST with a random source begins `MillerRabin` on its operand (R157). -/
theorem mrtest_start {s : State} (rd rn : RegIdx) (k : BitVec 7) (hsource : s.noRandomSource = false) :
    stepOf (.mrtest rd rn k) .start (s.atStart (.mrtest rd rn k))
      = mrBegin s.x[rn] k.toNat (mrtestDone rd) (s.atStart (.mrtest rd rn k)) := by
  have hnone : ¬ (s.atStart (.mrtest rd rn k)).noRandomSource = true := Bool.eq_false_iff.1 hsource
  have ha : (s.atStart (.mrtest rd rn k)).work.a = s.x[rn] := snapshot_formatG_a s.x _ rd rn 0 k
  refine (if_neg hnone).trans ?_
  rw [ha]

/-- A bit fits in every operand register (R157). -/
theorem fits_bit {p : Params} (hp : 0 < p.width) (rd : RegIdx) (v : Bool) : fits p [(rd, v.toNat)] = true :=
  fits_one.2 ((Bool.toNat_le v).trans_lt (Nat.one_lt_two_pow hp.ne'))

/-- Settles O18: `MillerRabin` answers at its call, in the first internal step. -/
theorem mrtestWithoutWords : Obligations.MrtestWithoutWords := by
  intro s rd rn k hidle hsource hW hturn hsmall
  have hsmall' : s.x[rn] ≤ 4 ∨ k.toNat = 0 := hsmall.imp_right fun h => by rw [h]; rfl
  obtain ⟨wk, -, hbegin⟩ := mrBegin_without_rounds hsmall' (mrtestDone rd) (spendTurn s) (encode (.mrtest rd rn k)) 0
    s.source .start (snapshot s.x (encode (.mrtest rd rn k)))
  have hr : Reaches (stepOf (.mrtest rd rn k)) 0 (stepOf (.mrtest rd rn k) .start (s.atStart (.mrtest rd rn k))) _ :=
    reaches_eq (Reaches.refl _ _) ((mrtest_start rd rn k hsource).trans hbegin)
  rw [exec_succeeds_without_words hidle hr (fits_bit hW rd _) hturn]
  split
  · next h => rw [decide_eq_false (not_not.2 h)]; rfl
  · next h => rw [decide_eq_true h]; rfl

/-- Settles O19: the words of the draws are those that `MillerRabin` takes. -/
theorem mrtestComputesMillerRabin : Obligations.MrtestComputesMillerRabin := by
  intro s rd rn k v rest hidle hsource hW hmr
  obtain ⟨j, wk, ph, -, hr⟩ := mrBegin_reaches (s := spendTurn s) (w := encode (.mrtest rd rn k)) (att := 0)
    (mrtest_runsMr rd rn k) hmr .start (snapshot s.x (encode (.mrtest rd rn k)))
  refine ⟨j + 1, fun turn hturn => ?_⟩
  have hstart := mrtest_start (s := s.withTurn turn) rd rn k hsource
  exact exec_succeeds (s := s.withTurn turn) hidle (hstart ▸ hr) (fits_bit hW rd v) hturn

/-! ### No prime is rejected (R159)

A prime `n >= 5` never leaves the squaring loop with the answer 0: at its head `y` is a root of 1 and not 1 itself, and the
last root before 1 can only be `n - 1` (`sqrt_one_of_prime`). -/

/-- One iteration of the loop of `ModExp` keeps `res * base ^ exp` modulo `m` (R131). -/
theorem power_step_modEq (c b e m : Nat) :
    (if e % 2 = 1 then c * b % m else c) * (b * b % m) ^ (e / 2) ≡ c * b ^ e [MOD m] := by
  have hb : (b * b % m) ^ (e / 2) ≡ b ^ (2 * (e / 2)) [MOD m] := by
    rw [pow_mul, pow_two]; exact (Nat.mod_modEq _ _).pow _
  split
  · next hodd =>
    have he : c * b * b ^ (2 * (e / 2)) = c * b ^ e := by
      conv_rhs => rw [← Nat.div_add_mod e 2, hodd, pow_succ]
      ring
    exact he ▸ (Nat.mod_modEq _ _).mul hb
  · next heven =>
    have he : 2 * (e / 2) = e := by omega
    exact (he ▸ hb).mul_left c

/-- The working state of `MillerRabin(n, _)` after its call, for `n >= 5` (R155, R156). -/
structure Work.Testing (n : Nat) (w : Work) : Prop where
  large : 5 ≤ n
  number : w.n = n
  twos : w.s = (oddSplit n).1
  odd : w.d = (oddSplit n).2

/-- What holds of `work` at the head of the loop of the round's `ModExp` (R131, R156): it computes a power of a witness. -/
structure Work.Powering (n : Nat) (w : Work) : Prop extends Work.Testing n w where
  modulus_eq : w.modulus = n
  res_lt : w.res < n
  value : ∃ a, 0 < a ∧ a < n ∧ w.res * w.base ^ w.exp ≡ a ^ (oddSplit n).2 [MOD n]

/-- What holds of `work` at the head of the squaring loop (R156): `y` is a root of 1 and not 1. -/
structure Work.Squaring (n : Nat) (w : Work) : Prop extends Work.Testing n w where
  y_lt : w.y < n
  y_ne : w.y ≠ 1
  root : w.y ^ 2 ^ (w.s + 1 - w.sq) ≡ 1 [MOD n]

/-- What holds of an MRTEST of `n` with destination `rd` wherever it stands: no answer but 1 has been written. -/
def State.acceptsPrime (rd : RegIdx) (n : Nat) (s : State) : Prop :=
  match s.seq with
  | .idle => s.status.done = true → s.x[rd] = 1 ∧ s.status.result = true
  | .run .start => s.status.done = false ∧ s.work.a = n
  | .run .witness => s.status.done = false ∧ s.work.Testing n
  | .run .power => s.status.done = false ∧ s.work.Powering n
  | .run .square => s.status.done = false ∧ s.work.Squaring n
  | .run _ => s.status.done = false

section prime
variable {rd : RegIdx} {n k : Nat} {s : State}

theorem acceptsPrime_raise (hdone : s.status.done = false) (e : ErrCode) : (raise e s).acceptsPrime rd n := fun hd => by
  simp [hdone] at hd

/-- The answer 1 is written (R157). -/
theorem acceptsPrime_done (hdone : s.status.done = false) : (mrtestDone rd true s).acceptsPrime rd n := by
  unfold mrtestDone finish; split
  · exact fun _ => ⟨by simp [writeAll], rfl⟩
  · exact acceptsPrime_raise hdone _

theorem acceptsPrime_roundHead (hdone : s.status.done = false) (ht : s.work.Testing n) :
    (roundHead k (mrtestDone rd) s).acceptsPrime rd n := by
  unfold roundHead; split
  · exact acceptsPrime_done hdone
  · exact ⟨hdone, { ht with }⟩

theorem acceptsPrime_roundPassed (hdone : s.status.done = false) (ht : s.work.Testing n) :
    (roundPassed k (mrtestDone rd) s).acceptsPrime rd n :=
  acceptsPrime_roundHead (s := { s with work := { s.work with round := s.work.round + 1 } }) hdone { ht with }

/-- A prime is not one of the numbers that `MillerRabin` rejects at its call (R156). -/
theorem acceptsPrime_mrBegin (hn : n.Prime) (hdone : s.status.done = false) :
    (mrBegin n k (mrtestDone rd) s).acceptsPrime rd n := by
  have h4 : n ≠ 4 := fun h => absurd (h ▸ hn) (by decide)
  have h2 := hn.two_le
  unfold mrBegin
  rw [if_neg (by omega)]
  split
  · exact acceptsPrime_done hdone
  · exact acceptsPrime_roundHead hdone ⟨by omega, rfl, rfl, rfl⟩

/-- A witness drawn starts the round's power with a number below `n` (R153, R156). -/
theorem acceptsPrime_witnessDrawn (u : Nat) (hdone : s.status.done = false) (ht : s.work.Testing n) :
    (witnessDrawn u s).acceptsPrime rd n := by
  have hlarge := ht.large
  unfold witnessDrawn; rw [ht.number]; split
  · next hu =>
    refine ⟨hdone, { ht with
      modulus_eq := rfl
      res_lt := Nat.mod_lt _ (by omega)
      value := ⟨u + 2, by omega, by omega, ?_⟩ }⟩
    show 1 % n * ((u + 2) % n) ^ s.work.d ≡ _ [MOD n]
    rw [ht.odd]
    simpa using (Nat.mod_modEq 1 n).mul ((Nat.mod_modEq (u + 2) n).pow (oddSplit n).2)
  · exact ⟨hdone, { ht with }⟩

theorem acceptsPrime_witnessStep {b : Nat} (hs : s.acceptsPrime rd n) (hdone : s.status.done = false)
    (ht : s.work.Testing n) : (drawStep b .witness witnessDrawn s).acceptsPrime rd n := by
  unfold drawStep; split
  · exact hs
  · next w t htake =>
    obtain ⟨rest, -, rfl⟩ := source_of_takeWord htake
    split
    · exact ⟨hdone, { ht with }⟩
    · exact acceptsPrime_witnessDrawn _ hdone ht

/-- The power of a witness to `n - 1` is 1 (R155). -/
theorem pow_witness_modEq_one (hn : n.Prime) {a y : Nat} (ha : 0 < a) (hlt : a < n)
    (hy : y ≡ a ^ (oddSplit n).2 [MOD n]) : y ^ 2 ^ (oddSplit n).1 ≡ 1 [MOD n] := by
  have hcop : Nat.Coprime a n := (Nat.coprime_of_lt_prime ha.ne' hlt hn).symm
  have hfermat := Nat.ModEq.pow_totient hcop
  rw [Nat.totient_prime hn, oddSplit_eq n, mul_comm, pow_mul] at hfermat
  exact (hy.pow _).trans hfermat

/-- The round's power passes the round or starts the squaring loop at a root of 1 (R156). -/
theorem acceptsPrime_mrPowerDone (hn : n.Prime) {a y : Nat} (ha : 0 < a) (hlt : a < n)
    (hy : y ≡ a ^ (oddSplit n).2 [MOD n]) (hylt : y < n) (hdone : s.status.done = false) (ht : s.work.Testing n) :
    (mrPowerDone k (mrtestDone rd) y s).acceptsPrime rd n := by
  unfold mrPowerDone; split
  · exact acceptsPrime_roundPassed hdone { ht with }
  · next hne =>
    push Not at hne
    refine ⟨hdone, { ht with y_lt := hylt, y_ne := hne.1, root := ?_ }⟩
    show y ^ 2 ^ (s.work.s + 1 - 1) ≡ 1 [MOD n]
    rw [ht.twos, Nat.add_sub_cancel]
    exact pow_witness_modEq_one hn ha hlt hy

theorem acceptsPrime_powerStep (hn : n.Prime) (hdone : s.status.done = false) (hp : s.work.Powering n) :
    (powerStep (mrPowerDone k (mrtestDone rd)) s).acceptsPrime rd n := by
  obtain ⟨a, ha, hlt, hvalue⟩ := hp.value
  have hpos : 0 < s.work.modulus := by rw [hp.modulus_eq]; exact hn.pos
  unfold powerStep; split
  · next hexp =>
    rw [hexp, pow_zero, mul_one] at hvalue
    exact acceptsPrime_mrPowerDone hn ha hlt hvalue hp.res_lt hdone hp.toTesting
  · refine ⟨hdone, { hp with res_lt := ?_, value := ⟨a, ha, hlt, ?_⟩ }⟩
    · rw [goto_work]; dsimp only; split
      · exact hp.modulus_eq ▸ Nat.mod_lt _ hpos
      · exact hp.res_lt
    · rw [goto_work]; dsimp only; rw [hp.modulus_eq]
      exact (power_step_modEq _ _ _ _).trans hvalue

/-- The squaring loop of a prime passes the round (R156, R159). -/
theorem acceptsPrime_squareStep (hn : n.Prime) (hdone : s.status.done = false) (hq : s.work.Squaring n) :
    (squareStep k (mrtestDone rd) s).acceptsPrime rd n := by
  have hone : 1 % n = 1 := Nat.mod_eq_of_lt hn.one_lt
  have hsqrt : s.work.y ≠ n - 1 → s.work.y * s.work.y % n ≠ 1 := fun hne h1 =>
    (sqrt_one_of_prime hn hq.y_lt (h1.trans hone.symm)).elim hq.y_ne hne
  unfold squareStep; rw [hq.number]
  split
  · next hloop =>
    obtain ⟨hlt, hne⟩ := hloop
    rw [if_neg (hsqrt hne)]
    refine ⟨hdone, { hq with y_lt := Nat.mod_lt _ hn.pos, y_ne := hsqrt hne, root := ?_ }⟩
    have hexp : s.work.s + 1 - s.work.sq = s.work.s + 1 - (s.work.sq + 1) + 1 := by omega
    have hroot := hq.root
    rw [hexp, pow_succ', pow_mul, pow_two] at hroot
    exact ((Nat.mod_modEq _ _).pow _).trans hroot
  · next hend =>
    split
    · next hne =>
      exfalso
      have hroot := hq.root
      obtain h0 | h1 : s.work.s + 1 - s.work.sq = 0 ∨ s.work.s + 1 - s.work.sq = 1 := by
        have : ¬ s.work.sq < s.work.s := fun h => hend ⟨h, hne⟩
        omega
      · rw [h0, pow_zero, pow_one] at hroot
        exact hq.y_ne (hroot.eq_of_lt_of_lt hq.y_lt hn.one_lt)
      · rw [h1, pow_one, pow_two] at hroot
        exact hsqrt hne (Eq.trans hroot hone)
    · exact acceptsPrime_roundPassed hdone hq.toTesting

/-- An internal step of MRTEST keeps it. -/
theorem mrtestStep_acceptsPrime (hn : n.Prime) {ph : Phase} (h : s.acceptsPrime rd n) (hph : s.seq = .run ph) :
    (mrtestStep rd k ph s).acceptsPrime rd n := by
  have hs := h
  rw [State.acceptsPrime, hph] at h
  cases ph with
  | start =>
    obtain ⟨hdone, ha⟩ := h
    unfold mrtestStep; dsimp only; split
    · exact acceptsPrime_raise hdone _
    · rw [ha]; exact acceptsPrime_mrBegin hn hdone
  | witness => exact acceptsPrime_witnessStep hs h.1 h.2
  | power => exact acceptsPrime_powerStep hn h.1 h.2
  | square => exact acceptsPrime_squareStep hn h.1 h.2
  | _ => exact hs

end prime

/-- Settles O20: the turn starts with the prime as its operand, and keeps `State.acceptsPrime`. -/
theorem mrtestNeverRejectsAPrime : Obligations.MrtestNeverRejectsAPrime := by
  intro s t rd rn k hidle hn hexec hdone
  have hbegin : (issue (encode (.mrtest rd rn k)) (spendTurn s)).acceptsPrime rd s.x[rn] := by
    rw [issue_idle _ (s := spendTurn s) hidle]
    exact ⟨rfl, snapshot_formatG_a s.x _ rd rn 0 k⟩
  rw [exec_eq] at hexec
  injection hexec with hexec
  have haccepts : t.acceptsPrime rd s.x[rn] := by
    rw [← hexec]
    exact runTurn_keeps _ (State.acceptsPrime rd s.x[rn]) (fun _ _ => mrtestStep_acceptsPrime hn) _ _ hbegin
  rw [State.acceptsPrime] at haccepts
  cases hseq : t.seq with
  | idle => rw [hseq] at haccepts; exact haccepts hdone
  | run ph => rw [hseq] at haccepts; cases ph <;> simp [hdone] at haccepts

/-! ### PRIMEGEN -/

theorem primegen_runsSample (rd : RegIdx) (nbits : BitVec 13) (k : BitVec 7) :
    RunsSample (stepOf (.primegen rd nbits k)) nbits.toNat k.toNat (primegenDone rd) where
  candidate _ := rfl
  witness _ := rfl
  power _ := rfl
  square _ := rfl

/-- PRIMEGEN with a random source and `nbits` in its range begins to sample (R161). -/
theorem primegen_start {s : State} (rd : RegIdx) {nbits : BitVec 13} (k : BitVec 7) (hsource : s.noRandomSource = false)
    (h2 : 2 ≤ nbits.toNat) (hW : nbits.toNat ≤ s.params.width) :
    stepOf (.primegen rd nbits k) .start (s.atStart (.primegen rd nbits k))
      = sampleBegin (s.atStart (.primegen rd nbits k)) := by
  have hnone : ¬ (s.atStart (.primegen rd nbits k)).noRandomSource = true := Bool.eq_false_iff.1 hsource
  exact (if_neg hnone).trans (if_pos ⟨h2, hW⟩)

theorem randBits_lt {b u : Nat} {ws rest : List Word} (h : RandBits b ws u rest) : u < 2 ^ b := by
  cases h with
  | mk => exact Nat.mod_lt _ (by positivity)

theorem two_le_of_millerRabin {n k : Nat} {ws rest : List Word} (h : MillerRabin n k ws true rest) : 2 ≤ n := by
  cases h with
  | prime small => omega
  | rounds _ _ _ large => omega

/-- What `PrimeSample` answers is at least 2 and below `2^b` (R164). -/
theorem primeSample_range {b k M n n' c : Nat} {ws rest : List Word} (h : PrimeSample b k M n ws (some c) n' rest) :
    2 ≤ c ∧ c < 2 ^ b := by
  generalize ho : some c = o at h
  induction h with
  | timeout => cases ho
  | pass n c _ _ _ _ draw test => cases ho; exact ⟨two_le_of_millerRabin test, randBits_lt draw⟩
  | fail _ _ _ _ _ _ _ _ _ _ _ _ ih => exact ih ho

/-- Settles O22: the words of the draws are those that `PrimeSample` takes, from a count of 0. -/
theorem primegenComputesPrimeSample : Obligations.PrimegenComputesPrimeSample := by
  intro s rd nbits k o n rest hidle hsource h2 hW hsample
  obtain ⟨j, wk, ph, -, -, hr⟩ := sample_reaches (s := spendTurn s) (w := encode (.primegen rd nbits k))
    (primegen_runsSample rd nbits k) (by omega) hsample (by decide) .start (snapshot s.x (encode (.primegen rd nbits k)))
  refine ⟨j + 1, fun turn hturn => ?_⟩
  have hstart := primegen_start (s := s.withTurn turn) rd k hsource h2 hW
  cases o with
  | none => exact exec_fails (s := s.withTurn turn) hidle (hstart ▸ hr) hturn
  | some c =>
    have hfit : fits s.params [(rd, c)] = true :=
      fits_one.2 ((primeSample_range hsample).2.trans_le (Nat.pow_le_pow_right (by decide) hW))
    exact exec_succeeds (s := s.withTurn turn) hidle (hstart ▸ hr) hfit hturn

/-- With `k = 0` a candidate that is not 0, 1 or 4 ends the sampling with its last word (R158, R162). -/
theorem candidate_reaches {f : Phase → State → State} {b : Nat} {ret : Nat → State → State} (hf : RunsSample f b 0 ret)
    (hb : 0 < b) {s : State} {w : Word} {n : Nat} {words rest : List Word} (hlen : words.length = wordsFor b)
    (hc : assemble words % 2 ^ b ∉ [0, 1, 4]) (hn : n < 2 ^ 32) (hfree : ¬ bounded s.maxTry n) (ph : Phase) (wk : Work) :
    ∃ wk', wk'.p = wk.p ∧ wk'.haveP = wk.haveP ∧
      Reaches f words.length (sampleBegin (s.during w (BitVec.ofNat 32 n) (words ++ rest) ph wk))
        (ret (assemble words % 2 ^ b) (s.during w (BitVec.ofNat 32 (satSucc n)) rest .candidate wk')) := by
  have hbegin : sampleBegin (s.during w (BitVec.ofNat 32 n) (words ++ rest) ph wk)
      = s.during w (BitVec.ofNat 32 n) (words ++ rest) .candidate { wk with acc := 0, got := 0 } := by
    have : ¬ (s.maxTry ≠ 0 ∧ (BitVec.ofNat 32 n).toNat = s.maxTry) := by
      rw [BitVec.toNat_ofNat, Nat.mod_eq_of_lt hn]; exact hfree
    rw [sampleBegin, during_maxTry, during_attempts, if_neg this]; rfl
  obtain ⟨v, ws, rfl⟩ : ∃ v ws, words = v :: ws := by
    cases words with
    | nil => simp [wordsFor] at hlen; omega
    | cons v ws => exact ⟨v, ws, rfl⟩
  obtain ⟨a, g, hr⟩ := draw_reaches (f := f) (ret := candidateDrawn 0 ret) (b := b) (ph := .candidate) (s := s) (w := w)
    (att := BitVec.ofNat 32 n) (wk := wk) (fun rest acc got => by rw [hf.candidate]; rfl) v ws rest 0 0
    (by simpa using hlen)
  obtain ⟨wk', hout, htest⟩ := mrBegin_without_rounds (n := assemble (v :: ws) % 2 ^ b) (k := 0) (.inr rfl)
    (sampleTested ret) s w (BitVec.ofNat 32 (satSucc n)) rest .candidate
    { wk with acc := a, got := g, cand := assemble (v :: ws) % 2 ^ b }
  simp only [Work.outside, Prod.mk.injEq] at hout
  obtain ⟨hcand, hp, hhaveP⟩ := hout
  refine ⟨wk', hp, hhaveP, hbegin ▸ reaches_eq hr ?_⟩
  have hpass : ¬ (assemble (v :: ws) % 2 ^ b ≤ 1 ∨ assemble (v :: ws) % 2 ^ b = 4) := by
    simp only [List.mem_cons, List.not_mem_nil, or_false, not_or] at hc; omega
  rw [Nat.zero_add, Nat.mul_zero, pow_zero, one_mul, candidateDrawn, during_attempts, during_work,
    countAttempt_ofNat hn, during_with_attempts_work, htest, decide_eq_true hpass, sampleTested, if_pos rfl,
    during_work, hcand]

/-- Settles O23: the first candidate ends the sampling with its last word, at the count 1. -/
theorem primegenWithoutRounds : Obligations.PrimegenWithoutRounds := by
  intro s rd nbits words rest hidle hsource h2 hW hwords hlen hc hturn
  have hfree : ¬ bounded s.maxTry 0 := fun h => h.1 h.2.symm
  obtain ⟨wk, -, -, hr⟩ := candidate_reaches (s := spendTurn s) (w := encode (.primegen rd nbits 0))
    (primegen_runsSample rd nbits 0) (by omega) (rest := rest) hlen hc (n := 0) (by decide) hfree .start
    (snapshot s.x (encode (.primegen rd nbits 0)))
  have hstart := primegen_start rd (0 : BitVec 7) hsource h2 hW
  have hfit : fits s.params [(rd, assemble words % 2 ^ nbits.toNat)] = true :=
    fits_one.2 ((Nat.mod_lt _ (by positivity)).trans_le (Nat.pow_le_pow_right (by decide) hW))
  rw [← hwords] at hr
  exact exec_succeeds hidle (hstart ▸ hr) hfit hturn

end Sys2Proof.Machine

/-! PROOF. KEYDERIVE and KEYGEN: `Derive` run by the sequencer (R182), the errors and results of KEYDERIVE (R181), and KEYGEN
as the refinement of `KeyPrimes` and `Derive` (R186, R187). -/

namespace Sys2Proof.Machine

open Pseudocode

/-! ### Derive -/

theorem keyRel_iff {p q : Nat} : keyRel p q = true ↔ p = q ∨ (p - 1) % q = 0 ∨ (q - 1) % p = 0 := by
  simp [keyRel, or_assoc]

theorem lambda_pos {p q : Nat} (hp : 2 ≤ p) (hq : 2 ≤ q) : 0 < lambda p q := Nat.lcm_pos (by omega) (by omega)

/-- `λ` is below `N` (R182), so what fits for `N` fits for an inverse modulo `λ`. -/
theorem lambda_lt {p q : Nat} (hp : 2 ≤ p) (hq : 2 ≤ q) : lambda p q < p * p * q := by
  have hle : lambda p q ≤ (p - 1) * (q - 1) := Nat.le_of_dvd (Nat.mul_pos (by omega) (by omega)) (Nat.lcm_dvd_mul _ _)
  calc lambda p q ≤ (p - 1) * (q - 1) := hle
    _ < p * q := Nat.mul_lt_mul'' (by omega) (by omega)
    _ ≤ p * p * q := Nat.mul_le_mul_right q (Nat.le_mul_self p)

/-- The internal step `f` runs `Derive` with destination `rd` (R182). -/
structure RunsDerive (f : Phase → State → State) (rd : RegIdx) : Prop where
  euclid : ∀ s, f .euclid s = deriveStep rd .euclid s
  bezout : ∀ s, f .bezout s = deriveStep rd .bezout s

/-- `Derive(p, q)` (R182) from its call: the gcd of `λ`, then the inverse of `N`. -/
theorem deriveBegin_reaches {f : Phase → State → State} {rd : RegIdx} (hf : RunsDerive f rd) {p q : Nat} (hp : 2 ≤ p)
    (hq : 2 ≤ q) (s : State) (w att : Word) (rest : List Word) (ph : Phase) (wk : Work) :
    ∃ j ≤ 2 * bitlen (q - 1) + 2 * bitlen (lambda p q) + 2, ∃ d noinv wk', IsModInv (p * p * q) (lambda p q) d noinv ∧
      Reaches f j (deriveBegin p q (s.during w att rest ph wk))
        (finish (keyWrites rd (p * p * q) d (p * q)) false noinv (s.during w att rest .bezout wk')) := by
  obtain ⟨j, hj, hgcd⟩ := euclidBegin_reaches (f := f) (ret := deriveLam) (p - 1) (q - 1)
    (fun s => by rw [hf.euclid]; rfl) (s.during w att rest ph { wk with p := p, q := q })
  obtain ⟨j', hj', d, noinv, r, newr, t, newt, hd, hinv⟩ := bezoutBegin_reaches (f := f) (ret := deriveDone rd)
    (p * p * q) (lambda p q) (fun s => by rw [hf.bezout]; rfl)
    (s.during w att rest .euclid
      { wk with p := p, q := q, r := Nat.gcd (p - 1) (q - 1), newr := 0, lam := lambda p q })
    (lambda_pos hp hq)
  exact ⟨j' + j, by omega, d, noinv, _, hd, hgcd.trans hinv⟩

/-- The three results of a key command fit if `N` does (R180, R182). -/
theorem fits_keyWrites {P : Params} {rd : RegIdx} {p q d : Nat} {noinv : Bool} (hp : 2 ≤ p) (hq : 2 ≤ q)
    (hN : p * p * q < 2 ^ P.width) (hd : IsModInv (p * p * q) (lambda p q) d noinv) :
    fits P (keyWrites rd (p * p * q) d (p * q)) = true := by
  have hdN := (isModInv_lt hd (lambda_pos hp hq)).trans (lambda_lt hp hq)
  have hn : p * q ≤ p * p * q := Nat.mul_le_mul_right q (Nat.le_mul_self p)
  simp [fits, keyWrites, hN, hdN.trans hN, hn.trans_lt hN]

/-- `Derive` ends within the internal steps of its two loops for primes whose `N` fits (R182). -/
theorem derive_steps_le {W p q : Nat} (hp : 2 ≤ p) (hq : 2 ≤ q) (hN : p * p * q < 2 ^ W) :
    2 * bitlen (q - 1) + 2 * bitlen (lambda p q) + 2 ≤ 4 * W + 2 := by
  have hqN : q ≤ p * p * q := Nat.le_mul_of_pos_left q (by positivity)
  have h1 : bitlen (q - 1) ≤ W := (bitlen_le_iff _ _).2 (by omega)
  have h2 : bitlen (lambda p q) ≤ W := (bitlen_le_iff _ _).2 ((lambda_lt hp hq).trans hN)
  omega

/-! ### KEYDERIVE -/

theorem keyderive_runsDerive (rd ra rb : RegIdx) : RunsDerive (stepOf (.keyderive rd ra rb)) rd where
  euclid _ := rfl
  bezout _ := rfl

/-- Settles O25: the checks in their order (R208), and then `Derive`. -/
theorem keyderiveResult : Obligations.KeyderiveResult := by
  intro s rd ra rb p q hrd hidle hfit hp hq hturn
  subst hp hq
  have hat := atStart_formatR (i := .keyderive rd ra rb) s rfl
  have hnoill : ¬ 5 < rd.val := by omega
  split_ifs with hdom hrel hrange
  · refine exec_fails_at_start hidle (by omega) ?_
    rw [hat]; exact (if_neg hnoill).trans (if_pos hdom)
  · refine exec_fails_at_start hidle (by omega) ?_
    rw [hat]; exact (if_neg hnoill).trans ((if_neg hdom).trans (if_pos (keyRel_iff.2 hrel)))
  · refine exec_fails_at_start hidle (by omega) ?_
    rw [hat]
    exact (if_neg hnoill).trans ((if_neg hdom).trans ((if_neg (mt keyRel_iff.1 hrel)).trans (if_pos hrange)))
  · have hp2 : 2 ≤ s.x[ra] := by omega
    have hq2 : 2 ≤ s.x[rb] := by omega
    have hN := not_le.1 hrange
    have hstart : stepOf (.keyderive rd ra rb) .start (s.atStart (.keyderive rd ra rb))
        = deriveBegin s.x[ra] s.x[rb] (s.atStart (.keyderive rd ra rb)) := by
      rw [hat]
      exact (if_neg hnoill).trans ((if_neg hdom).trans ((if_neg (mt keyRel_iff.1 hrel)).trans (if_neg hrange)))
    obtain ⟨j, hj, d, noinv, wk, hd, hr⟩ := deriveBegin_reaches (keyderive_runsDerive rd ra rb) hp2 hq2 (spendTurn s)
      (encode (.keyderive rd ra rb)) 0 s.source .start (snapshot s.x (encode (.keyderive rd ra rb)))
    have hsteps := derive_steps_le hp2 hq2 hN
    exact ⟨d, noinv, _, hd,
      exec_succeeds_without_words hidle (hstart ▸ hr) (fits_keyWrites hp2 hq2 hN hd) (by omega), rfl,
      writeAll_keyWrites hrd _ _ _⟩

/-! ### KEYGEN -/

theorem keygen_runsDerive (rd : RegIdx) (nbits : BitVec 13) (k : BitVec 7) :
    RunsDerive (stepOf (.keygen rd nbits k)) rd where
  euclid _ := rfl
  bezout _ := rfl

theorem keygen_runsSample (rd : RegIdx) (nbits : BitVec 13) (k : BitVec 7) :
    RunsSample (stepOf (.keygen rd nbits k)) (nbits.toNat / 2) k.toNat keygenSampled where
  candidate _ := rfl
  witness _ := rfl
  power _ := rfl
  square _ := rfl

/-- KEYGEN with a random source, a legal RD and `nbits` in its range begins to sample (R186, R190). -/
theorem keygen_start {s : State} {rd : RegIdx} {nbits : BitVec 13} (k : BitVec 7) (hrd : rd.val ≤ 5)
    (hsource : s.noRandomSource = false) (h3 : 3 ≤ nbits.toNat / 2) (hW : 3 * (nbits.toNat / 2) ≤ s.params.width) :
    stepOf (.keygen rd nbits k) .start (s.atStart (.keygen rd nbits k))
      = sampleBegin (s.atStart (.keygen rd nbits k)) := by
  have hnone : ¬ (s.atStart (.keygen rd nbits k)).noRandomSource = true := Bool.eq_false_iff.1 hsource
  have hout : ¬ (nbits.toNat / 2 < 3 ∨ s.params.width < 3 * (nbits.toNat / 2)) := by omega
  exact (if_neg (by omega)).trans ((if_neg hnone).trans (if_neg hout))

/-- The first prime sampled is `p` (R186). -/
theorem keygenSampled_first {c : Nat} {s : State} (h : s.work.haveP = false) :
    keygenSampled c s = sampleBegin { s with work := { s.work with p := c, haveP := true } } :=
  if_neg (Bool.eq_false_iff.1 h)

/-- A prime related to `p` is sampled again (R187). -/
theorem keygenSampled_related {c : Nat} {s : State} (h : s.work.haveP = true) (hrel : keyRel s.work.p c = true) :
    keygenSampled c s = sampleBegin s :=
  (if_pos h).trans (if_pos hrel)

/-- Another one is `q`, and `Derive` follows (R186). -/
theorem keygenSampled_unrelated {c : Nat} {s : State} (h : s.work.haveP = true) (hrel : keyRel s.work.p c = false) :
    keygenSampled c s = deriveBegin s.work.p c s :=
  (if_pos h).trans (if_neg (Bool.eq_false_iff.1 hrel))

/-- What KEYGEN does when it has sampled both primes, or none for ETIMEOUT (R186, R163). -/
def keyEnd : Option (Nat × Nat) → State → State
  | some (p, q), s => deriveBegin p q s
  | none, s => raise .etimeout s

section keygen
variable {f : Phase → State → State} {b k : Nat} (hf : RunsSample f b k keygenSampled) (hb : 0 < b) {s : State} {w : Word}
include hf hb

/-- The sampling of `q` (R186, R187), with `p` sampled. -/
theorem sampleQ_reaches {p n n' : Nat} {ws rest : List Word} {o : Option Nat}
    (h : SampleQ p b k s.maxTry n ws o n' rest) (hn : n < 2 ^ 32) (ph : Phase) (wk : Work) (hp : wk.p = p)
    (hhave : wk.haveP = true) :
    ∃ j wk' ph', Reaches f j (sampleBegin (s.during w (BitVec.ofNat 32 n) ws ph wk))
      (keyEnd (o.map (p, ·)) (s.during w (BitVec.ofNat 32 n') rest ph' wk')) := by
  induction h generalizing ph wk with
  | timeout n n' ws rest sample =>
    obtain ⟨j, wk', ph', -, -, hr⟩ := sample_reaches (w := w) hf hb sample hn ph wk
    exact ⟨j, wk', ph', hr⟩
  | accept n n' q ws rest sample unrelated =>
    obtain ⟨j, wk', ph', hp', hhave', hr⟩ := sample_reaches (w := w) hf hb sample hn ph wk
    refine ⟨j, wk', ph', reaches_eq hr ((keygenSampled_unrelated (hhave'.trans hhave) ?_).trans ?_)⟩
    · rw [during_work, hp', hp]; exact unrelated
    · rw [during_work, hp', hp]; rfl
  | resample n n' n'' q ws mid rest o sample related again ih =>
    obtain ⟨j, wk', ph', hp', hhave', hr⟩ := sample_reaches (w := w) hf hb sample hn ph wk
    obtain ⟨j', wk'', ph'', hr'⟩ := ih (primeSample_count sample hn) ph' wk' (hp'.trans hp) (hhave'.trans hhave)
    have hagain : sampleEnd keygenSampled (some q) (s.during w (BitVec.ofNat 32 n') mid ph' wk')
        = sampleBegin (s.during w (BitVec.ofNat 32 n') mid ph' wk') :=
      keygenSampled_related (hhave'.trans hhave) (by rw [during_work, hp', hp]; exact related)
    exact ⟨j' + j, wk'', ph'', hr.trans (by rw [hagain]; exact hr')⟩

/-- Both samplings of KEYGEN (R186) from a count of 0. -/
theorem keyPrimes_reaches {n : Nat} {ws rest : List Word} {o : Option (Nat × Nat)}
    (h : KeyPrimes b k s.maxTry ws o n rest) (ph : Phase) (wk : Work) (hhave : wk.haveP = false) :
    ∃ j wk' ph', Reaches f j (sampleBegin (s.during w 0 ws ph wk))
      (keyEnd o (s.during w (BitVec.ofNat 32 n) rest ph' wk')) := by
  have hboth : ∀ {n n' p : Nat} {mid : List Word} {o : Option Nat}, PrimeSample b k s.maxTry 0 ws (some p) n mid →
      SampleQ p b k s.maxTry n mid o n' rest →
      ∃ j wk' ph', Reaches f j (sampleBegin (s.during w 0 ws ph wk))
        (keyEnd (o.map (p, ·)) (s.during w (BitVec.ofNat 32 n') rest ph' wk')) := by
    intro n n' p mid o sample sampleQ
    obtain ⟨j, wk', ph', -, hhave', hr⟩ := sample_reaches (w := w) hf hb sample (by decide) ph wk
    obtain ⟨j', wk'', ph'', hr'⟩ := sampleQ_reaches hf hb (w := w) sampleQ (primeSample_count sample (by decide)) ph'
      { wk' with p := p, haveP := true } rfl rfl
    have hfirst : sampleEnd keygenSampled (some p) (s.during w (BitVec.ofNat 32 n) mid ph' wk')
        = sampleBegin (s.during w (BitVec.ofNat 32 n) mid ph' { wk' with p := p, haveP := true }) :=
      keygenSampled_first (hhave'.trans hhave)
    exact ⟨j' + j, wk'', ph'', hr.trans (by rw [hfirst]; exact hr')⟩
  cases h with
  | noP n ws rest sample =>
    obtain ⟨j, wk', ph', -, -, hr⟩ := sample_reaches (w := w) hf hb sample (by decide) ph wk
    exact ⟨j, wk', ph', hr⟩
  | noQ n n' p ws mid rest sample sampleQ => exact hboth sample sampleQ
  | both n n' p q ws mid rest sample sampleQ => exact hboth sample sampleQ

end keygen

/-- What the sampling of `q` answers (R164, R187). -/
theorem sampleQ_range {p b k M n n' q : Nat} {ws rest : List Word} (h : SampleQ p b k M n ws (some q) n' rest) :
    (2 ≤ q ∧ q < 2 ^ b) ∧ keyRel p q = false := by
  generalize ho : some q = o at h
  induction h with
  | timeout => cases ho
  | accept _ _ _ _ _ sample unrelated => cases ho; exact ⟨primeSample_range sample, unrelated⟩
  | resample _ _ _ _ _ _ _ _ _ _ _ ih => exact ih ho

/-- What the two samplings of KEYGEN answer (R164, R187). -/
theorem keyPrimes_range {b k M n p q : Nat} {ws rest : List Word} (h : KeyPrimes b k M ws (some (p, q)) n rest) :
    (2 ≤ p ∧ p < 2 ^ b) ∧ (2 ≤ q ∧ q < 2 ^ b) ∧ keyRel p q = false := by
  cases h with
  | both _ _ _ _ _ _ _ sample sampleQ => exact ⟨primeSample_range sample, sampleQ_range sampleQ⟩

/-- `N` of two numbers of `h` bits has at most `3h` bits (R190). -/
theorem keyN_lt {h W p q : Nat} (hp : p < 2 ^ h) (hq : q < 2 ^ h) (hW : 3 * h ≤ W) : p * p * q < 2 ^ W := by
  calc p * p * q < 2 ^ h * 2 ^ h * 2 ^ h := Nat.mul_lt_mul'' (Nat.mul_lt_mul'' hp hp) hq
    _ = 2 ^ (3 * h) := by rw [← pow_add, ← pow_add]; congr 1; omega
    _ ≤ 2 ^ W := Nat.pow_le_pow_right (by decide) hW

/-- Settles O29: the words of the draws are those that `KeyPrimes` takes, and `Derive` follows. -/
theorem keygenComputesKeyGen : Obligations.KeygenComputesKeyGen := by
  intro s rd nbits k o n rest hrd hidle hsource h3 hW hprimes
  obtain ⟨j, wk, ph, hr⟩ := keyPrimes_reaches (keygen_runsSample rd nbits k) (by omega) (s := spendTurn s)
    (w := encode (.keygen rd nbits k)) hprimes .start (snapshot s.x (encode (.keygen rd nbits k))) rfl
  have hstart := fun turn => keygen_start (s := s.withTurn turn) k hrd hsource h3 hW
  cases o with
  | none =>
    exact ⟨j + 1, fun turn hturn => exec_fails (s := s.withTurn turn) hidle ((hstart turn) ▸ hr) hturn⟩
  | some pq =>
    obtain ⟨p, q⟩ := pq
    obtain ⟨⟨hp2, hp⟩, ⟨hq2, hq⟩, -⟩ := keyPrimes_range hprimes
    obtain ⟨j', -, d, noinv, wk', hd, hr'⟩ := deriveBegin_reaches (keygen_runsDerive rd nbits k) hp2 hq2 (spendTurn s)
      (encode (.keygen rd nbits k)) (BitVec.ofNat 32 n) rest ph wk
    have hfit := fits_keyWrites (P := s.params) (rd := rd) hp2 hq2 (keyN_lt hp hq hW) hd
    exact ⟨d, noinv, j' + j + 1, hd, fun turn hturn =>
      exec_succeeds (s := s.withTurn turn) hidle ((hstart turn) ▸ hr.trans hr') hfit hturn⟩

/-- A candidate of one word (R152). -/
theorem assemble_one (u : Word) : assemble [u] = u.toNat := by simp [assemble]

theorem two_le_of_not_mem {c : Nat} (h : c ∉ [0, 1, 4]) : 2 ≤ c := by
  simp only [List.mem_cons, List.not_mem_nil, or_false, not_or] at h; omega

/-- The samplings of KEYGEN with `k = 0` and primes of at most 32 bits take one word each (R158, R186). -/
theorem keygen_two_words_reaches {f : Phase → State → State} {b : Nat} (hf : RunsSample f b 0 keygenSampled) (hb : 0 < b)
    (h32 : b ≤ 32) {s : State} {w u v : Word} {rest : List Word} (hmax : s.maxTry ≠ 1)
    (hp : u.toNat % 2 ^ b ∉ [0, 1, 4]) (hq : v.toNat % 2 ^ b ∉ [0, 1, 4])
    (hrel : keyRel (u.toNat % 2 ^ b) (v.toNat % 2 ^ b) = false) (ph : Phase) (wk : Work) (hhave : wk.haveP = false) :
    ∃ wk', Reaches f 2 (sampleBegin (s.during w 0 (u :: v :: rest) ph wk))
      (deriveBegin (u.toNat % 2 ^ b) (v.toNat % 2 ^ b) (s.during w 2 rest .candidate wk')) := by
  have hlen : ∀ x : Word, [x].length = wordsFor b := fun _ => by simp [wordsFor]; omega
  rw [← assemble_one u] at hp hrel ⊢
  rw [← assemble_one v] at hq hrel ⊢
  obtain ⟨wk1, -, hhave1, hr1⟩ := candidate_reaches hf hb (s := s) (w := w) (rest := v :: rest) (hlen u) hp (n := 0)
    (by decide) (fun h => h.1 h.2.symm) ph wk
  obtain ⟨wk2, hp2, hhave2, hr2⟩ := candidate_reaches hf hb (s := s) (w := w) (rest := rest) (hlen v) hq (n := 1)
    (by decide) (fun h => hmax h.2.symm) .candidate { wk1 with p := assemble [u] % 2 ^ b, haveP := true }
  have hfirst : keygenSampled (assemble [u] % 2 ^ b) (s.during w 1 (v :: rest) .candidate wk1)
      = sampleBegin (s.during w 1 (v :: rest) .candidate { wk1 with p := assemble [u] % 2 ^ b, haveP := true }) :=
    keygenSampled_first (hhave1.trans hhave)
  have hsecond : keygenSampled (assemble [v] % 2 ^ b) (s.during w 2 rest .candidate wk2)
      = deriveBegin (assemble [u] % 2 ^ b) (assemble [v] % 2 ^ b) (s.during w 2 rest .candidate wk2) := by
    rw [keygenSampled_unrelated hhave2 (by rw [during_work, hp2]; exact hrel), during_work, hp2]
  exact ⟨wk2, hsecond ▸ (reaches_eq hr1 hfirst).trans hr2⟩

/-- Settles O30: one word for each prime, and `Derive` within the steps of its loops. -/
theorem keygenWithoutRounds : Obligations.KeygenWithoutRounds := by
  intro s rd nbits u v rest p q hrd hidle hsource hmax h3 h32 hW hwords hp hq hp014 hq014 hrel hturn
  have hp2 := two_le_of_not_mem hp014
  have hq2 := two_le_of_not_mem hq014
  have hN : p * p * q < 2 ^ s.params.width :=
    keyN_lt (hp ▸ Nat.mod_lt _ (by positivity)) (hq ▸ Nat.mod_lt _ (by positivity)) hW
  subst hp hq
  obtain ⟨wk, hr⟩ := keygen_two_words_reaches (keygen_runsSample rd nbits 0) (by omega) h32 (s := spendTurn s)
    (w := encode (.keygen rd nbits 0)) (rest := rest) hmax hp014 hq014 (Bool.eq_false_iff.2 (mt keyRel_iff.1 hrel))
    .start (snapshot s.x (encode (.keygen rd nbits 0))) rfl
  obtain ⟨j, hj, d, noinv, wk', hd, hr'⟩ := deriveBegin_reaches (keygen_runsDerive rd nbits 0) hp2 hq2 (spendTurn s)
    (encode (.keygen rd nbits 0)) 2 rest .candidate wk
  have hsteps := derive_steps_le hp2 hq2 hN
  rw [← hwords] at hr
  exact ⟨d, noinv, hd, exec_succeeds hidle (keygen_start 0 hrd hsource h3 hW ▸ hr.trans hr')
    (fits_keyWrites hp2 hq2 hN hd) (by omega)⟩

end Sys2Proof.Machine

/-! PROOF. The keys of R184 and R185: primes that do not satisfy the relation have an inverse of `N` modulo `λ`, and with it
`ModExp` decrypts what it encrypts. -/

namespace Sys2Proof.Machine

open Pseudocode

/-! ### Number theory of the keys -/

/-- A prime is coprime to `λ` if it divides neither factor (R184). -/
theorem coprime_lambda {r p q : Nat} (hr : r.Prime) (hp : ¬ r ∣ p - 1) (hq : ¬ r ∣ q - 1) :
    Nat.Coprime r (lambda p q) :=
  Nat.Coprime.coprime_dvd_right (Nat.lcm_dvd_mul _ _)
    (Nat.Coprime.mul_right (hr.coprime_iff_not_dvd.2 hp) (hr.coprime_iff_not_dvd.2 hq))

theorem not_dvd_pred {p : Nat} (hp : p.Prime) : ¬ p ∣ p - 1 := fun h => by
  have h2 := hp.two_le
  have := Nat.le_of_dvd (by omega) h
  omega

/-- Primes that do not satisfy the relation make `N` invertible modulo `λ` (R183, R184). -/
theorem coprime_keyN_lambda {p q : Nat} (hp : p.Prime) (hq : q.Prime) (hrel : keyRel p q = false) :
    Nat.gcd (p * p * q) (lambda p q) = 1 := by
  obtain ⟨-, hqp, hpq⟩ : p ≠ q ∧ (p - 1) % q ≠ 0 ∧ (q - 1) % p ≠ 0 := by
    have h := mt keyRel_iff.2 (Bool.eq_false_iff.1 hrel)
    push Not at h; exact h
  have hpl : Nat.Coprime p (lambda p q) :=
    coprime_lambda hp (not_dvd_pred hp) fun h => hpq (Nat.mod_eq_zero_of_dvd h)
  have hql : Nat.Coprime q (lambda p q) :=
    coprime_lambda hq (fun h => hqp (Nat.mod_eq_zero_of_dvd h)) (not_dvd_pred hq)
  exact (hpl.mul_left hpl).mul_left hql

/-- From primes the no-inverse bit is 0 and `d` is an inverse of `N` (R184). -/
theorem isModInv_of_primes {p q d : Nat} {noinv : Bool} (hp : p.Prime) (hq : q.Prime) (hrel : keyRel p q = false)
    (hd : IsModInv (p * p * q) (lambda p q) d noinv) :
    noinv = false ∧ d * (p * p * q) % lambda p q = 1 % lambda p q := by
  obtain ⟨hnoinv, -, hinv⟩ := hd.1 (coprime_keyN_lambda hp hq hrel)
  exact ⟨hnoinv, by rw [mul_comm]; exact hinv⟩

/-- A power whose exponent is 1 modulo `p - 1` is the base modulo a prime `p`. -/
theorem pow_modEq_self {p e m : Nat} (hp : p.Prime) (he : e ≡ 1 [MOD p - 1]) (hpos : 0 < e) : m ^ e ≡ m [MOD p] := by
  by_cases hdvd : p ∣ m
  · have hzero : m ≡ 0 [MOD p] := Nat.modEq_zero_iff_dvd.2 hdvd
    have h := hzero.pow e
    rw [zero_pow hpos.ne'] at h
    exact h.trans hzero.symm
  · obtain ⟨c, hc⟩ := (Nat.modEq_iff_dvd' hpos).1 he.symm
    have hcop : Nat.Coprime m p := (hp.coprime_iff_not_dvd.2 hdvd).symm
    have hfermat := Nat.ModEq.pow_totient hcop
    rw [Nat.totient_prime hp] at hfermat
    calc m ^ e = m * (m ^ (p - 1)) ^ c := by rw [← pow_mul, ← hc, ← pow_succ']; congr 1; omega
      _ ≡ m * 1 ^ c [MOD p] := (hfermat.pow c).mul_left m
      _ = m := by rw [one_pow, mul_one]

/-- The exponent of a decryption after an encryption is 0 modulo `λ = 1` only, which distinct primes do not have. -/
theorem exponent_pos {p q e : Nat} (hp : p.Prime) (hq : q.Prime) (hne : p ≠ q) (he : e % lambda p q = 1 % lambda p q) :
    0 < e := by
  rcases Nat.eq_zero_or_pos e with rfl | h
  · exfalso
    have hone : lambda p q = 1 := by
      by_contra h1
      have hpos := lambda_pos hp.two_le hq.two_le
      rw [Nat.zero_mod, Nat.mod_eq_of_lt (by omega)] at he
      omega
    have h1 := Nat.le_of_dvd (by omega) (Nat.dvd_lcm_left (p - 1) (q - 1) |>.trans (dvd_of_eq hone))
    have h2 := Nat.le_of_dvd (by omega) (Nat.dvd_lcm_right (p - 1) (q - 1) |>.trans (dvd_of_eq hone))
    have := hp.two_le
    have := hq.two_le
    omega
  · exact h

/-- Decryption undoes encryption for every message below `n = p * q` (R185). -/
theorem decrypt_encrypt {p q d m : Nat} (hp : p.Prime) (hq : q.Prime) (hne : p ≠ q)
    (hd : d * (p * p * q) % lambda p q = 1 % lambda p q) (hm : m < p * q) :
    (m ^ (p * p * q) % (p * p * q)) ^ d % (p * q) = m := by
  have he := exponent_pos hp hq hne hd
  have hmodp : m ^ (d * (p * p * q)) ≡ m [MOD p] :=
    pow_modEq_self hp (Nat.ModEq.of_dvd (Nat.dvd_lcm_left _ _) hd) he
  have hmodq : m ^ (d * (p * p * q)) ≡ m [MOD q] :=
    pow_modEq_self hq (Nat.ModEq.of_dvd (Nat.dvd_lcm_right _ _) hd) he
  have hmod : m ^ (d * (p * p * q)) ≡ m [MOD p * q] :=
    (Nat.modEq_and_modEq_iff_modEq_mul ((Nat.coprime_primes hp hq).2 hne)).1 ⟨hmodp, hmodq⟩
  have hN : m ^ (p * p * q) % (p * p * q) ≡ m ^ (p * p * q) [MOD p * q] :=
    (Nat.mod_modEq _ _).of_dvd ⟨p, by ring⟩
  have hpow : (m ^ (p * p * q) % (p * p * q)) ^ d ≡ m [MOD p * q] := by
    refine (hN.pow d).trans ?_
    rw [← pow_mul, mul_comm _ d]; exact hmod
  rw [hpow, Nat.mod_eq_of_lt hm]

/-! ### The statements -/

/-- A KEYDERIVE that has completed has written the results of operands that are at least 2 and not related (R181). -/
theorem keyderive_done {s t : State} {rd ra rb : RegIdx} (hrd : rd.val ≤ 5) (hidle : s.seq = .idle) (hfit : s.operandsFit)
    (hturn : 4 * s.params.width + 8 ≤ s.env.turn) (hexec : exec (.keyderive rd ra rb) s = .next t)
    (hdone : t.status.done = true) :
    keyRel s.x[ra] s.x[rb] = false ∧ ∃ d, IsModInv (s.x[ra] * s.x[ra] * s.x[rb]) (lambda s.x[ra] s.x[rb]) d t.status.noinv ∧
      t.x[rd.val] = s.x[ra] * s.x[ra] * s.x[rb] ∧ t.x[rd.val + 1] = d ∧ t.x[rd.val + 2] = s.x[ra] * s.x[rb] := by
  have hresult := keyderiveResult s rd ra rb _ _ hrd hidle hfit rfl rfl hturn
  split_ifs at hresult with hdom hrel hrange
  · cases hexec.symm.trans hresult; cases hdone
  · cases hexec.symm.trans hresult; cases hdone
  · cases hexec.symm.trans hresult; cases hdone
  · obtain ⟨d, noinv, t', hd, ht', hsucc, hx⟩ := hresult
    cases hexec.symm.trans ht'
    refine ⟨Bool.eq_false_iff.2 (mt keyRel_iff.1 hrel), d, ?_, hx⟩
    rw [hsucc]; exact hd

/-- A KEYGEN that samples primes completes with their keys (R184, R186). -/
theorem keygen_primes {s : State} {rd : RegIdx} {nbits : BitVec 13} {k : BitVec 7} {p q n : Nat} {rest : List Word}
    (hrd : rd.val ≤ 5) (hidle : s.seq = .idle) (hsource : s.noRandomSource = false) (h3 : 3 ≤ nbits.toNat / 2)
    (hW : 3 * (nbits.toNat / 2) ≤ s.params.width)
    (hprimes : KeyPrimes (nbits.toNat / 2) k.toNat s.maxTry s.source (some (p, q)) n rest) (hp : p.Prime) (hq : q.Prime) :
    p ≠ q ∧ ∃ d enough, d * (p * p * q) % lambda p q = 1 % lambda p q ∧ ∀ turn ≥ enough, ∃ t,
      exec (.keygen rd nbits k) (s.withTurn turn) = .next t ∧ t.status.done = true ∧ t.status.noinv = false ∧
      t.x[rd.val] = p * p * q ∧ t.x[rd.val + 1] = d ∧ t.x[rd.val + 2] = p * q := by
  obtain ⟨-, -, hrel⟩ := keyPrimes_range hprimes
  have hne : p ≠ q := fun h => Bool.eq_false_iff.1 hrel (keyRel_iff.2 (.inl h))
  obtain ⟨d, noinv, enough, hd, hexec⟩ := keygenComputesKeyGen s rd nbits k (some (p, q)) n rest hrd hidle hsource h3 hW
    hprimes
  obtain ⟨hnoinv, hinv⟩ := isModInv_of_primes hp hq hrel hd
  exact ⟨hne, d, enough, hinv, fun turn hturn =>
    ⟨_, hexec turn hturn, rfl, hnoinv, writeAll_keyWrites (x := s.x) hrd _ _ _⟩⟩

/-- Settles O26: `N` is coprime to `λ`, for the operands of KEYDERIVE and for the primes that KEYGEN samples. -/
theorem keysOfPrimesHaveInverse : Obligations.KeysOfPrimesHaveInverse := by
  constructor
  · intro s t rd ra rb hrd hidle hfit hturn hp hq hexec hdone
    obtain ⟨hrel, d, hd, hN, hx, -⟩ := keyderive_done hrd hidle hfit hturn hexec hdone
    rw [hx, hN]
    exact isModInv_of_primes hp hq hrel hd
  · intro s rd nbits k p q n rest hrd hidle hsource h3 hW hprimes hp hq
    obtain ⟨-, d, enough, hinv, hexec⟩ := keygen_primes hrd hidle hsource h3 hW hprimes hp hq
    refine ⟨enough, fun turn hturn => ?_⟩
    obtain ⟨t, ht, hdone, hnoinv, hN, hx, -⟩ := hexec turn hturn
    exact ⟨t, ht, hdone, hnoinv, by rw [hx, hN]; exact hinv⟩

/-- Settles O27: `decrypt_encrypt` on the registers that the two commands leave. -/
theorem keysDecryptWhatTheyEncrypt : Obligations.KeysDecryptWhatTheyEncrypt := by
  constructor
  · intro s t rd ra rb hrd hidle hfit hturn hp hq hexec hdone _ m hm
    obtain ⟨hrel, d, hd, hN, hx, hn⟩ := keyderive_done hrd hidle hfit hturn hexec hdone
    have hne : s.x[ra] ≠ s.x[rb] := fun h => Bool.eq_false_iff.1 hrel (keyRel_iff.2 (.inl h))
    obtain ⟨-, hinv⟩ := isModInv_of_primes hp hq hrel hd
    rw [hn] at hm
    rw [hN, hx, hn]
    exact decrypt_encrypt hp hq hne hinv hm
  · intro s rd nbits k p q n rest hrd hidle hsource h3 hW hprimes hp hq
    obtain ⟨hne, d, enough, hinv, hexec⟩ := keygen_primes hrd hidle hsource h3 hW hprimes hp hq
    refine ⟨enough, fun turn hturn => ?_⟩
    obtain ⟨t, ht, hdone, hnoinv, hN, hx, hn⟩ := hexec turn hturn
    refine ⟨t, ht, hdone, hnoinv, hn, fun m hm => ?_⟩
    rw [hn] at hm
    rw [hN, hx, hn]
    exact decrypt_encrypt hp hq hne hinv hm

end Sys2Proof.Machine

/-! PROOF. The numbers that the relations of the pseudocode are written with are the spec's (R8, R33, R152, R155). -/

namespace Sys2Proof.Machine

/-! ### The split of `n - 1` -/

/-- The odd part is found before the fuel runs out. -/
theorem splitTwos_odd {fuel m : Nat} (hm : 0 < m) (hfuel : m < 2 ^ fuel) : (splitTwos fuel m).2 % 2 = 1 := by
  induction fuel generalizing m with
  | zero => simp at hfuel; omega
  | succ fuel ih =>
    unfold splitTwos; split
    · exact ih (by omega) (by rw [pow_succ] at hfuel; omega)
    · simp only; omega

/-- R155: `r` is odd. -/
theorem oddSplit_odd {n : Nat} (hn : 2 ≤ n) : (oddSplit n).2 % 2 = 1 :=
  splitTwos_odd (by omega) (lt_two_pow_bitlen _)

/-- A power of two times an odd number determines both. -/
theorem pow_two_mul_odd_unique {a b r r' : Nat} (hr : r % 2 = 1) (hr' : r' % 2 = 1) (h : 2 ^ a * r = 2 ^ b * r') :
    a = b ∧ r = r' := by
  induction a generalizing b with
  | zero =>
    cases b with
    | zero => exact ⟨rfl, by simpa using h⟩
    | succ b => rw [pow_zero, one_mul, pow_succ', mul_assoc] at h; omega
  | succ a ih =>
    cases b with
    | zero => rw [pow_zero, one_mul, pow_succ', mul_assoc] at h; omega
    | succ b =>
      rw [pow_succ', pow_succ', mul_assoc, mul_assoc] at h
      obtain ⟨hab, hrr⟩ := ih (b := b) (by omega)
      exact ⟨by rw [hab], hrr⟩

/-- R155: the split is the only one with `r` odd. -/
theorem oddSplit_unique {n s r : Nat} (hn : 2 ≤ n) (h : n - 1 = 2 ^ s * r) (hr : r % 2 = 1) : oddSplit n = (s, r) := by
  obtain ⟨hs, hr⟩ := pow_two_mul_odd_unique (oddSplit_odd hn) hr ((oddSplit_eq n).symm.trans h)
  exact Prod.ext hs hr

/-! ### bitlen and the words of a draw -/

/-- R8: a number other than 0 has its highest binary digit at `bitlen - 1`. -/
theorem two_pow_bitlen_le {x : Nat} (hx : 0 < x) : 2 ^ (bitlen x - 1) ≤ x := by
  have hpos := bitlen_pos hx
  have h := mt (bitlen_le_iff x (bitlen x - 1)).2 (by omega)
  exact not_lt.1 h

/-- R33: MAXTRY is the upper half of CTRL. -/
theorem maxTry_eq (s : State) : s.maxTry = s.ctrl.toNat / 2 ^ 16 := by
  have h := s.ctrl.isLt
  rw [State.maxTry, BitVec.extractLsb'_toNat, Nat.shiftRight_eq_div_pow]
  omega

/-- Settles O60: each number by its own lemma. -/
theorem numbersOfTheRelationsAreTheSpecs : Obligations.NumbersOfTheRelationsAreTheSpecs := by
  refine ⟨fun n hn => ⟨oddSplit_eq n, oddSplit_odd (by omega), fun s r => oddSplit_unique (by omega), fun hodd => ?_,
    fun heven => oddSplit_unique (by omega) (by simp) (by omega)⟩, bitlen_zero,
    fun x hx => ⟨two_pow_bitlen_le hx, lt_two_pow_bitlen x⟩, fun b hb => ?_, fun s => ⟨maxTry_eq s, rfl, rfl⟩⟩
  · by_contra h0
    have heq := oddSplit_eq n
    have hr := oddSplit_odd (n := n) (by omega)
    rw [show (oddSplit n).1 = 0 by omega, pow_zero, one_mul] at heq
    omega
  · unfold wordsFor; omega

end Sys2Proof.Machine
